-- ==== Sys2Proof/Word.lean ====
section
/-! DEFINITION. Word types of the GYA-CSI block (spec 00_scope.md R8, R9, R12; 10_state.md). -/

namespace Sys2Proof

/-- A 32-bit register or bus word (10_state.md R21: every register is 32 bits). -/
abbrev Word := BitVec 32

/-- A 16-bit value: a chanspec, a sequence counter, a slot mask. -/
abbrev Half := BitVec 16

/-- A byte of IN_BUF. -/
abbrev Byte := BitVec 8

/-- The 64-bit encoding of an IEEE 754 binary64 number (00_scope.md R13). -/
abbrev F64 := BitVec 64

/-- A complex value, a pair of binary64 numbers (00_scope.md R12). -/
structure Cplx where
  re : F64
  im : F64
deriving DecidableEq, Repr, Inhabited

/-- The integer `v` as a 32-bit two's complement word ("as i32", 30_encoding.md R89). -/
def asI32 (v : Int) : Word := BitVec.ofInt 32 v

/-- The natural number `v` zero-extended into a 32-bit word (30_encoding.md R89). -/
def asU32 (v : Nat) : Word := BitVec.ofNat 32 v

end Sys2Proof
end

