-- ==== Sys2Proof/Syntax.lean ====
section
/-! DEFINITION. The commands of the block (spec 30_encoding.md R83) and the operations of a host
script (R90). -/

namespace Sys2Proof

/-- The commands, one for each row of spec/opcode_table.json (30_encoding.md R83).
A command word has no operand field (R81), so no constructor has an argument. -/
inductive Instr where
  | nop
  | chanspecDecode
  | chanspecEncode
  | defaultDelay
  | subcarrierClass
  | unpackComplex
  | unpackCsi
  | decodeFrame
  | groupAdd
  | groupTake
  | aoa
  | tof
deriving DecidableEq, Repr

/-- The width of a host bus access (20_memory.md R61). -/
inductive Width where
  | w8
  | w16
  | w32
deriving DecidableEq, Repr

/-- The bytes an access of a width carries. -/
def Width.bytes : Width → Nat
  | .w8 => 1
  | .w16 => 2
  | .w32 => 4

/-- One operation of the outside world, in the order the host issues them (30_encoding.md R90).
Offsets are from `BASE`. -/
inductive HostOp where
  /-- `wr32`, `wr16`, `wr8`: a bus write of the low bits of `data`. -/
  | write (off : Nat) (width : Width) (data : Word)
  /-- `rd32`, `rd16`, `rd8`: a bus read whose zero-extended value the script names. -/
  | read (off : Nat) (width : Width) (name : String)
  /-- `wait`: repeat a read of STATUS until DONE is 1. -/
  | wait
  /-- A bus cycle in which the host issues nothing (log 3). -/
  | idle
  /-- The reset input of the block is pulsed (70_reset_and_hazards.md R250; log 3). -/
  | resetInput
deriving DecidableEq, Repr

end Sys2Proof
end

