-- ==== Sys2Proof/WellFormed.lean ====
section
/-! DEFINITION. Which command words and which host bus accesses are well formed
(spec 30_encoding.md R80, R84; 20_memory.md R60 to R62). -/

namespace Sys2Proof

/-- A command word is well formed when its RSV bits are zero and its OPCODE is one of the twelve
of 30_encoding.md R83. -/
def CommandWord.wellFormed (w : Word) : Bool :=
  decide (w.toNat / 256 = 0) &&
    [0x00, 0x01, 0x02, 0x03, 0x04, 0x10, 0x11, 0x20, 0x30, 0x31, 0x40, 0x41].contains
      (w.toNat % 256)

/-- The offset lies in the block's window of 0x30000 bytes (20_memory.md R60, R61). -/
def Access.inWindow (off : Nat) : Bool := decide (off < 0x30000)

/-- The access is naturally aligned (20_memory.md R62). -/
def Access.aligned (off : Nat) (w : Width) : Bool := decide (off % w.bytes = 0)

/-- The offset takes the width: every offset takes 32 bits, IN_BUF takes 8 and 16 as well
(20_memory.md R61). -/
def Access.widthTaken (off : Nat) (w : Width) : Bool :=
  decide (w = .w32) || (decide (0x1000 ≤ off) && decide (off < 0x2000))

/-- A host operation is well formed when its bus access is none that 20_memory.md R61, R62 refuse
and none beyond the block's window. -/
def HostOp.wellFormed : HostOp → Bool
  | .write off w _ => Access.inWindow off && Access.aligned off w && Access.widthTaken off w
  | .read off w _ => Access.inWindow off && Access.aligned off w && Access.widthTaken off w
  | .wait => true
  | .idle => true
  | .resetInput => true

end Sys2Proof
end

