-- ==== Sys2Proof/Decode.lean ====
section
/-! DEFINITION. The decoder of command words, total on 32-bit words, and the encoder
(spec 30_encoding.md R80, R83 to R87). -/

namespace Sys2Proof

/-- Why a word is no command. Both run as ILLEGAL_COMMAND (30_encoding.md R84, R85). -/
inductive DecodeError where
  /-- Bits 31:8 are not zero. -/
  | reservedBits
  /-- Bits 7:0 are an OPCODE that R83 does not list. -/
  | unknownOpcode
deriving DecidableEq, Repr

/-- The opcode map (30_encoding.md R83), read from OPCODE to command. -/
def instrOfOpcode (op : Nat) : Option Instr :=
  match op with
  | 0x00 => some .nop
  | 0x01 => some .chanspecDecode
  | 0x02 => some .chanspecEncode
  | 0x03 => some .defaultDelay
  | 0x04 => some .subcarrierClass
  | 0x10 => some .unpackComplex
  | 0x11 => some .unpackCsi
  | 0x20 => some .decodeFrame
  | 0x30 => some .groupAdd
  | 0x31 => some .groupTake
  | 0x40 => some .aoa
  | 0x41 => some .tof
  | _ => none

/-- Decoding a command word (30_encoding.md R84). -/
def decode (w : Word) : Except DecodeError Instr :=
  if w.extractLsb' 8 24 ≠ 0 then .error .reservedBits
  else
    match instrOfOpcode (w.extractLsb' 0 8).toNat with
    | some i => .ok i
    | none => .error .unknownOpcode

/-- The OPCODE of each command (30_encoding.md R83). -/
def opcode : Instr → BitVec 8
  | .nop => 0x00
  | .chanspecDecode => 0x01
  | .chanspecEncode => 0x02
  | .defaultDelay => 0x03
  | .subcarrierClass => 0x04
  | .unpackComplex => 0x10
  | .unpackCsi => 0x11
  | .decodeFrame => 0x20
  | .groupAdd => 0x30
  | .groupTake => 0x31
  | .aoa => 0x40
  | .tof => 0x41

/-- The command word of a command: RSV zero above OPCODE (30_encoding.md R80). -/
def encode (i : Instr) : Word := (0 : BitVec 24) ++ opcode i

/-- The instruction whose `nbits` bits are `w`, bits above `nbits` zero (log 4). -/
def decodeTableWord (nbits w : Nat) : Option Instr :=
  (decode (BitVec.ofNat 32 (w % 2 ^ nbits))).toOption

end Sys2Proof
end

