-- ==== Sys2Proof/Config.lean ====
section
/-! DEFINITION. What one implementation of the GYA-CSI block fixes (spec 00_scope.md R6) and the
free values of the model. A constant without a body is OPEN: no proof can see a value of it. -/

namespace Sys2Proof.Config

/-- `IN_BUF_SIZE` (00_scope.md R6, R7): 4096 bytes. -/
def inBufSize : Nat := 4096

/-- `HDR_LEN` (R6). -/
def hdrLen : Nat := 60

/-- `CHIP_ID` (R6; 42_frame.md R158). -/
def chipId : Half := 106

/-- `NSUB_MAX` (R6): the entries of COEF_BUF, of each AOA buffer and of each grid slot. -/
def nsubMax : Nat := 512

/-- `NSLOT` (R6): 4 cores by 4 spatial streams. -/
def nslot : Nat := 16

/-- `DELAY_LONG_US` (R6). -/
def delayLongUs : Nat := 50

/-- `DELAY_THRESHOLD` (R6). -/
def delayThreshold : Nat := 12

/-- `BASE` (R6, decision D3): OPEN, the block's base address on the host bus. -/
opaque base : Nat

/-- `MAGIC_STRING` (R6, decision D27): OPEN, 6 bytes. -/
opaque magicString : Fin 6 → Byte

/-- `MAGIC_BYTES` (R6, decision D27): OPEN, 2 bytes. -/
opaque magicBytes : Fin 2 → Byte

/-- `CMD_LATENCY` (R6, decision D45): OPEN, the most bus cycles a command takes. -/
opaque cmdLatency : Nat

/-- FREE VALUE: how long the command started at draw number `n` takes, before it is bounded by
`cmdLatency` (70_reset_and_hazards.md R262; log 5). -/
opaque latencyDraw : Nat → Nat

/-- FREE VALUE: the draw number `n` of the UNSPECIFIED location `key` (00_scope.md R14; log 1). -/
opaque draw : (n key : Nat) → BitVec 64

/-- FREE VALUE: which of the binary64 numbers within 1 ulp `ATAN2 y x` is
(44_estimator.md R193; log 6). -/
opaque atan2Pick : (y x : F64) → Nat

/-- FREE VALUE: `ATAN2 y x` where R193 states only its range: an infinite operand (log 6). -/
opaque atan2Free : (y x : F64) → F64

/-- FREE VALUE: which of the binary64 numbers within 1 ulp `ASIN a` is (R193; log 6). -/
opaque asinPick : F64 → Nat

/-- FREE VALUE: the scale `s_N` of `IDFT_N`, before it is kept positive and finite
(44_estimator.md R198, R201; log 7). -/
opaque idftScaleRaw : Nat → F64

/-- FREE VALUE: entry `k` of `IDFT_N` of a sequence, before R201's error bound is applied
(R201; log 7). -/
opaque idftRaw : (n : Nat) → List Cplx → (k : Nat) → Cplx

end Sys2Proof.Config
end

