-- ==== Sys2Proof/Machine/State.lean ====
section
/-! DEFINITION. The architectural state of the GYA-CSI block (spec 10_state.md R20 to R38) and its
state after reset (70_reset_and_hazards.md R250). -/

namespace Sys2Proof.Machine

/-- The codes of STATUS.ERR (30_encoding.md R88): a closed set, "every other value is never
written". -/
inductive ErrCode where
  | ok
  | notEnoughBytes
  | notANexmonPacket
  | missingMagicBytes
  | unknownChip
  | invalidBandwidth
  | invalidBand
  | illegalCommand
  | badOperand
  | noFrame
  | slotRange
  | noSnapshot
  | lengthMismatch
deriving DecidableEq, Repr

/-- Sparse storage: the keys that hold a value, strictly rising. A key that is not listed holds an
UNSPECIFIED value (log 1). -/
abbrev Sparse (α : Type) := List (Nat × α)

/-- The canonical form of sparse storage with keys below `bound`: keys strictly rise. -/
abbrev Sparse.wf {α : Type} (bound : Nat) (m : Sparse α) : Prop :=
  m.Pairwise (fun a b => a.1 < b.1) ∧ ∀ c ∈ m, c.1 < bound

/-- IN_BUF: bytes by their index in the buffer (10_state.md R34). -/
abbrev Memory := List Host.Cell

/-- The canonical form of IN_BUF. -/
abbrev Memory.wf (m : Memory) : Prop := Sparse.wf Config.inBufSize m

/-- STATUS but for BUSY, which is the sequencer's (10_state.md R23, R35). -/
structure Status where
  done        : Bool
  absent      : Bool
  emitted     : Bool
  overrun     : Bool
  err         : ErrCode
  frameValid  : Bool
  groupActive : Bool
  snapValid   : Bool
deriving DecidableEq, Repr

/-- The frame register set (10_state.md R28). -/
structure FrameRegs where
  rssi     : Word
  fc       : Byte
  macLo    : Word
  macHi    : Half
  seq      : Half
  config   : Half
  cfgBe    : Bool
  core     : BitVec 3
  spatial  : BitVec 3
  chanspec : Half
  chip     : Half
  nsub     : BitVec 10
deriving DecidableEq, Repr

/-- A grid of coefficient sequences with its shared values: the grouper's group (10_state.md R31)
and the snapshot (R32). Entry `j` of slot `s` has key `512·s + j`. -/
structure WifiCsi where
  seq      : Half
  mask     : Half
  chanspec : Half
  rssi     : Word
  len      : Vector (BitVec 10) 16
  grid     : Sparse Cplx
deriving DecidableEq, Repr

/-- The command sequencer (10_state.md R35): IDLE, or BUSY with the latched command word and the
bus cycles left before completion. -/
inductive Sequencer where
  | idle
  | busy (word : Word) (left : Nat)
deriving DecidableEq, Repr

/-- The state of the block (10_state.md R20) and, last, the model's own three fields. -/
structure State where
  irqEn   : Bool
  status  : Status
  inLen   : BitVec 13
  arg     : Vector Word 4
  res     : Vector Word 8
  frm     : FrameRegs
  coefBuf : Sparse Cplx
  grp     : WifiCsi
  snap    : WifiCsi
  aoa0    : Sparse F64
  aoa1    : Sparse F64
  inBuf   : Memory
  seqr    : Sequencer
  /-- The model's own: the number of the next draw of a free value (log 2). -/
  draws   : Nat
  /-- The model's own: the host operations not yet served, oldest first (log 3). -/
  script  : List HostOp
  /-- The model's own: the values the host has read, by name, newest first (log 3). -/
  log     : List (String × Word)
deriving DecidableEq, Repr

/-- Why the model stops with a fault. -/
inductive Fault where
  /-- A misaligned host access: a bus error (20_memory.md R62, R65, R244). Raised by the bus on a
  host script's access. Safe: R65 asks for it. -/
  | misalignedAccess
  /-- A host access of a width its offset does not take: a bus error (20_memory.md R61, R65, R244).
  Raised by the bus on a host script's access. Safe: R65 asks for it. -/
  | widthNotTaken
  /-- AOA or TOF on a valid snapshot whose chanspec does not decode, which 44_estimator.md R190 says
  cannot happen (log 9). Raised by AOA and TOF in states no run reaches. Safe. -/
  | undecodableSnapshot
deriving DecidableEq, Repr

/-- Why the model refuses to go on. -/
inductive Refusal where
  /-- An instruction without a meaning yet. Raised by no arm of this model. Safe. -/
  | notModelled (mnemonic : String)
  /-- A host access beyond the block's window, which the platform answers (20_memory.md R61;
  log 10). Raised by the bus on a host script's access. Safe. -/
  | platformAddress
deriving DecidableEq, Repr

/-- STATUS after reset (70_reset_and_hazards.md R250). -/
def Status.reset : Status :=
  { done := false, absent := false, emitted := false, overrun := false, err := .ok,
    frameValid := false, groupActive := false, snapValid := false }

/-- The frame registers after reset (R250). -/
def FrameRegs.reset : FrameRegs :=
  { rssi := 0, fc := 0, macLo := 0, macHi := 0, seq := 0, config := 0, cfgBe := false, core := 0,
    spatial := 0, chanspec := 0, chip := 0, nsub := 0 }

/-- The group or snapshot registers after reset; the grid is UNSPECIFIED (R250). -/
def WifiCsi.reset : WifiCsi :=
  { seq := 0, mask := 0, chanspec := 0, rssi := 0, len := Vector.replicate 16 0, grid := [] }

/-- The machine right after reset (70_reset_and_hazards.md R250). The buffers are UNSPECIFIED:
nothing is listed in them. -/
def State.reset : State :=
  { irqEn := false, status := Status.reset, inLen := 0, arg := Vector.replicate 4 0,
    res := Vector.replicate 8 0, frm := FrameRegs.reset, coefBuf := [], grp := WifiCsi.reset,
    snap := WifiCsi.reset, aoa0 := [], aoa1 := [], inBuf := [], seqr := .idle,
    draws := 0, script := [], log := [] }

end Sys2Proof.Machine
end

