-- ==== Sys2Proof/Machine/Flags.lean ====
section
/-! DEFINITION. STATUS and CTRL as words, the error codes, the interrupt, and the status updates of
command start and completion (spec 10_state.md R22, R23, R36; 30_encoding.md R88; 45_control.md
R220, R222). -/

namespace Sys2Proof.Machine

/-- The code of each error (30_encoding.md R88). -/
def errCode : ErrCode → BitVec 8
  | .ok => 0x00
  | .notEnoughBytes => 0x01
  | .notANexmonPacket => 0x02
  | .missingMagicBytes => 0x03
  | .unknownChip => 0x04
  | .invalidBandwidth => 0x05
  | .invalidBand => 0x06
  | .illegalCommand => 0x80
  | .badOperand => 0x81
  | .noFrame => 0x82
  | .slotRange => 0x83
  | .noSnapshot => 0x84
  | .lengthMismatch => 0x85

/-- STATUS.BUSY (10_state.md R35: BUSY = 0 exactly when the sequencer is IDLE). -/
def isBusy (s : State) : Bool :=
  match s.seqr with
  | .idle => false
  | .busy _ _ => true

/-- A bit as a number. -/
def bitAt (b : Bool) (k : Nat) : Nat := if b then 2 ^ k else 0

/-- The STATUS word (10_state.md R23); the reserved bits read 0. -/
def statusWord (s : State) : Word :=
  BitVec.ofNat 32
    (bitAt (isBusy s) 0 + bitAt s.status.done 1 + bitAt s.status.absent 2 +
      bitAt s.status.emitted 3 + bitAt s.status.overrun 4 + (errCode s.status.err).toNat * 2 ^ 8 +
      bitAt s.status.frameValid 16 + bitAt s.status.groupActive 17 + bitAt s.status.snapValid 18)

/-- The CTRL word (10_state.md R22): SOFT_RESET and the reserved bits read 0. -/
def ctrlWord (s : State) : Word := BitVec.ofNat 32 (bitAt s.irqEn 0)

/-- The interrupt output (10_state.md R36; 60_exceptions.md R234): a level, with no state. -/
def irq (s : State) : Bool := s.irqEn && s.status.done

/-- How a command's pseudocode ends (00_scope.md R11; 45_control.md R222). -/
inductive Ending where
  /-- `done`, with EMITTED = 0. -/
  | done
  /-- `done` after `x[STATUS.EMITTED] <- 1` (only GROUP_ADD and GROUP_TAKE, R222). -/
  | doneEmitted
  /-- `absent`. -/
  | absent
  /-- `raise E`. -/
  | raise (e : ErrCode)
deriving DecidableEq, Repr

/-- ERR at completion (45_control.md R222). -/
def Ending.err : Ending → ErrCode
  | .raise e => e
  | _ => .ok

/-- The status update of completion (45_control.md R222): BUSY is the sequencer's. -/
def completionStatus (e : Ending) (st : Status) : Status :=
  { st with
    done := true
    absent := decide (e = .absent)
    emitted := decide (e = .doneEmitted)
    err := e.err }

/-- The status update of command start (45_control.md R220). -/
def startStatus (st : Status) : Status :=
  { st with done := false, absent := false, emitted := false, err := .ok }

/-- A host write of `v` to STATUS (45_control.md R226): bits 1 and 4 clear DONE and OVERRUN. -/
def clearStatus (v : Word) (st : Status) : Status :=
  { st with
    done := st.done && !v.getLsbD 1
    overrun := st.overrun && !v.getLsbD 4 }

end Sys2Proof.Machine
end

