-- ==== Sys2Proof/Machine/Ops.lean ====
section
/-! DEFINITION. The named operations over storage and registers, command start and completion, and
reset. Completion with `raise E` is this block's one form of an exception, and it has no return
(spec 60_exceptions.md R230, R237, R238). -/

namespace Sys2Proof.Machine

/-! ### Sparse storage -/

/-- The value stored at a key, none where the content is UNSPECIFIED. -/
def Sparse.read? {α : Type} : Sparse α → Nat → Option α
  | [], _ => none
  | (k, v) :: m, a => if a = k then some v else Sparse.read? m a

/-- The values `vs` at the keys from `a` up. -/
def Sparse.block {α : Type} : (a : Nat) → List α → Sparse α
  | _, [] => []
  | a, v :: vs => (a, v) :: Sparse.block (a + 1) vs

/-- Store `vs` at the keys from `a` up and leave every other key as it is. -/
def Sparse.writeFrom {α : Type} (m : Sparse α) (a : Nat) (vs : List α) : Sparse α :=
  m.filter (fun c => decide (c.1 < a)) ++ Sparse.block a vs ++
    m.filter (fun c => decide (a + vs.length ≤ c.1))

/-! ### Draws: reads of UNSPECIFIED contents (00_scope.md R14; log 1)

A draw is keyed by the step and by the location, so that in one step one location has one value.
A location's key is its bus offset; GRP_GRID, which has no window, has keys from 0x30000. -/

/-- A byte that nothing has written. -/
def drawByte (s : State) (key : Nat) : Byte := (Config.draw s.draws key).setWidth 8

/-- A 32-bit word that nothing has written. -/
def drawWord (s : State) (key : Nat) : Word := (Config.draw s.draws key).setWidth 32

/-- A complex entry that nothing has written. -/
def drawCplx (s : State) (key : Nat) : Cplx :=
  ⟨Config.draw s.draws key, Config.draw s.draws (key + 8)⟩

/-- `IN_BUF[a]` (10_state.md R34). -/
def inByte (s : State) (a : Nat) : Byte :=
  (Sparse.read? s.inBuf a).getD (drawByte s (0x1000 + a))

/-- `COEF_BUF[j]` (R30). -/
def coefEntry (s : State) (j : Nat) : Cplx :=
  (Sparse.read? s.coefBuf j).getD (drawCplx s (0x2000 + 16 * j))

/-- The key of entry `j` of slot `slot` in a grid. -/
def gridKey (slot j : Nat) : Nat := Config.nsubMax * slot + j

/-- `GRP_GRID[slot][j]` (R31). -/
def grpEntry (s : State) (slot j : Nat) : Cplx :=
  (Sparse.read? s.grp.grid (gridKey slot j)).getD
    (drawCplx s (0x30000 + 16 * gridKey slot j))

/-- `SNAP_GRID[slot][j]` (R32). -/
def snapEntry (s : State) (slot j : Nat) : Cplx :=
  (Sparse.read? s.snap.grid (gridKey slot j)).getD
    (drawCplx s (0x10000 + 16 * gridKey slot j))

/-! ### IN_BUF reads of more than a byte (00_scope.md R10; 20_memory.md R67) -/

/-- The number whose bytes, least significant first, are the list. -/
def leNat : List Byte → Nat
  | [] => 0
  | b :: bs => b.toNat + 256 * leNat bs

/-- The bytes `IN_BUF[a]` to `IN_BUF[a+n-1]`. -/
def inBytes (s : State) (a n : Nat) : List Byte := (List.range n).map fun i => inByte s (a + i)

/-- `MemRead(a, n)` (R10). -/
def memRead (s : State) (a n : Nat) : Nat := leNat (inBytes s a n)

/-- `MemReadBE(a, n)` (R10). -/
def memReadBE (s : State) (a n : Nat) : Nat := leNat (inBytes s a n).reverse

/-! ### Registers -/

/-- Write RES0, RES1, … with the words of the list; the registers past its end keep their values
(10_state.md R27; 30_encoding.md R89). -/
def setResults (vs : List Word) (s : State) : State :=
  { s with res := Vector.ofFn fun k => vs.getD k.val s.res[k] }

/-- `x[STATUS.FRAME_VALID] <- v` (10_state.md R29). -/
def setFrameValid (v : Bool) (s : State) : State :=
  { s with status := { s.status with frameValid := v } }

/-- `x[STATUS.GROUP_ACTIVE] <- v` (R31). -/
def setGroupActive (v : Bool) (s : State) : State :=
  { s with status := { s.status with groupActive := v } }

/-- A dropped host write: the sticky `STATUS.OVERRUN` (45_control.md R225). -/
def setOverrun (s : State) : State :=
  { s with status := { s.status with overrun := true } }

/-! ### Command start and completion -/

/-- Every step uses its own draws (log 2). -/
def nextDraw (s : State) : State := { s with draws := s.draws + 1 }

/-- Completion (45_control.md R222): the status update, the sequencer back to IDLE. With
`raise E` this is how an error is taken. -/
def finish (e : Ending) (s : State) : State :=
  nextDraw { s with status := completionStatus e s.status, seqr := .idle }

/-- A command's outcome from the ending and the state its pseudocode leaves. -/
def complete (p : Ending × State) : Host.Outcome State Fault Refusal := .next (finish p.1 p.2)

/-- The bus cycles the command started now takes before it completes: a free number, at most
`CMD_LATENCY` (70_reset_and_hazards.md R262; log 5). -/
def latency (draws : Nat) : Nat := min (Config.latencyDraw draws) Config.cmdLatency

/-- Command start (45_control.md R220): latch the word, clear the last command's outcome. -/
def startCommand (w : Word) (s : State) : State :=
  { s with status := startStatus s.status, seqr := .busy w (latency s.draws) }

/-! ### Reset -/

/-- Reset (70_reset_and_hazards.md R250) and soft reset (R252, R253): every piece of the block's
state into its reset state. The model's own fields are no part of the block and stay. -/
def resetBlock (s : State) : State :=
  { State.reset with draws := s.draws, script := s.script, log := s.log }

end Sys2Proof.Machine
end

