-- ==== Sys2Proof/Machine/Operands.lean ====
section
/-! DEFINITION. The operand forms of the commands (spec 30_encoding.md R81, R82, R86). -/

namespace Sys2Proof.Machine

/-- A bandwidth (40_chanspec.md R101). -/
inductive Bw where
  | mhz20
  | mhz40
  | mhz80
  | mhz160
deriving DecidableEq, Repr

/-- A band (R102). -/
inductive Band where
  | ghz2
  | ghz5
deriving DecidableEq, Repr

/-- A bandwidth in MHz. -/
def Bw.mhz : Bw → Nat
  | .mhz20 => 20
  | .mhz40 => 40
  | .mhz80 => 80
  | .mhz160 => 160

/-- `NSUB(bw)` (40_chanspec.md R103; 00_scope.md R6). -/
def Bw.nsub : Bw → Nat
  | .mhz20 => 64
  | .mhz40 => 128
  | .mhz80 => 256
  | .mhz160 => 512

/-- The bandwidth code of operands and results (30_encoding.md R82). -/
def Bw.code : Bw → Nat
  | .mhz20 => 0
  | .mhz40 => 1
  | .mhz80 => 2
  | .mhz160 => 3

/-- The bandwidth of an operand code; every value is legal (R82). -/
def bwOfCode (c : BitVec 2) : Bw :=
  match c.toNat with
  | 0 => .mhz20
  | 1 => .mhz40
  | 2 => .mhz80
  | _ => .mhz160

/-- The band code of operands and results (R82). -/
def Band.code : Band → Nat
  | .ghz2 => 0
  | .ghz5 => 1

/-- The band of an operand code (R82). -/
def bandOfCode (c : Bool) : Band := if c then .ghz5 else .ghz2

/-- A field marked "rsv" in R81 is set: a bit of `w` from bit `n` up. -/
def rsvSet (w : Word) (n : Nat) : Bool := decide (w >>> n ≠ 0)

/-- The length of the input, `x[IN_LEN]` (10_state.md R25). -/
def inLength (s : State) : Nat := s.inLen.toNat

/-- `x[IN_LEN] > IN_BUF_SIZE` (30_encoding.md R86). -/
def inLenTooLong (s : State) : Bool := decide (Config.inBufSize < inLength s)

/-- The bandwidth operand in bits 1:0 of a register. -/
def bwOperand (w : Word) : Bw := bwOfCode (w.extractLsb' 0 2)

/-- The binary64 operand in the pair ARG1:ARG0 (20_memory.md R68). -/
def f64Operand (s : State) : F64 := s.arg[1] ++ s.arg[0]

/-- The two words of a binary64 number, low word first (20_memory.md R68). -/
def f64Words (v : F64) : List Word := [v.extractLsb' 0 32, v.extractLsb' 32 32]

end Sys2Proof.Machine
end

