-- ==== Sys2Proof/Machine/Bus.lean ====
section
/-! DEFINITION. The host bus: the map, reads, writes, and one host operation
(spec 10_state.md R21 to R34; 20_memory.md R60 to R66; 45_control.md R225 to R227). -/

namespace Sys2Proof.Machine

/-! ### The map -/

/-- The regions of the block's window (20_memory.md R60). -/
inductive Region where
  | registers
  | inBuf
  | coefBuf
  | aoa0
  | aoa1
  | snapGrid
  | reserved
  | outside
deriving DecidableEq, Repr

/-- The region of an offset (R60). -/
def regionOf (off : Nat) : Region :=
  if off < 0x100 then .registers
  else if off < 0x1000 then .reserved
  else if off < 0x2000 then (if off - 0x1000 < Config.inBufSize then .inBuf else .reserved)
  else if off < 0x4000 then .coefBuf
  else if off < 0x5000 then .aoa0
  else if off < 0x6000 then .aoa1
  else if off < 0x10000 then .reserved
  else if off < 0x30000 then .snapGrid
  else .outside

/-- The offset of a bus address in the block's window from `BASE`, none for an address that is not
the block's (R60, R61; log 15). -/
def offsetOfAddress (addr : Nat) : Option Nat :=
  if Config.base ≤ addr ∧ addr < Config.base + 0x30000 then some (addr - Config.base) else none

/-- Why a bus access does not complete. -/
inductive BusStop where
  /-- A bus error (R65). -/
  | fault (f : Fault)
  /-- Not the block's address (R61). -/
  | refused (r : Refusal)
deriving DecidableEq, Repr

/-- The checks of an access (R61, R62): beyond the window, misaligned, or of a width that the
offset does not take. -/
def accessStop (off : Nat) (w : Width) : Option BusStop :=
  if 0x30000 ≤ off then some (.refused .platformAddress)
  else if off % w.bytes ≠ 0 then some (.fault .misalignedAccess)
  else if w ≠ .w32 ∧ (off < 0x1000 ∨ 0x2000 ≤ off) then some (.fault .widthNotTaken)
  else none

/-! ### Reads -/

/-- Word `hi` (false: bits 31:0, true: bits 63:32) of a binary64 number (R68). -/
def f64Half (v : F64) (hi : Bool) : Word := if hi then v.extractLsb' 32 32 else v.extractLsb' 0 32

/-- A word of a window of complex entries at `base` (R60): a draw where nothing is stored. -/
def cplxWindowWord (s : State) (m : Sparse Cplx) (base off : Nat) : Word :=
  match Sparse.read? m ((off - base) / 16) with
  | some z =>
    f64Half (if (off - base) / 8 % 2 = 0 then z.re else z.im) (decide ((off - base) / 4 % 2 = 1))
  | none => drawWord s off

/-- A word of a window of binary64 entries at `base` (R60): a draw where nothing is stored. -/
def f64WindowWord (s : State) (m : Sparse F64) (base off : Nat) : Word :=
  match Sparse.read? m ((off - base) / 8) with
  | some v => f64Half v (decide ((off - base) / 4 % 2 = 1))
  | none => drawWord s off

/-- The value of a frame register, zero above its bits (10_state.md R21, R28). -/
def frmWord (f : FrameRegs) (off : Nat) : Word :=
  match off with
  | 0x040 => f.rssi
  | 0x044 => f.fc.setWidth 32
  | 0x048 => f.macLo
  | 0x04C => f.macHi.setWidth 32
  | 0x050 => f.seq.setWidth 32
  | 0x054 => BitVec.ofNat 32 (f.config.toNat + bitAt f.cfgBe 16)
  | 0x058 => f.core.setWidth 32
  | 0x05C => f.spatial.setWidth 32
  | 0x060 => f.chanspec.setWidth 32
  | 0x064 => f.chip.setWidth 32
  | 0x068 => f.nsub.setWidth 32
  | _ => 0

/-- The four words of the GRP_* or SNAP_* registers, by index (10_state.md R31, R32). -/
def csiWord (g : WifiCsi) (k : Nat) : Word :=
  match k with
  | 0 => g.seq.setWidth 32
  | 1 => g.mask.setWidth 32
  | 2 => g.chanspec.setWidth 32
  | _ => g.rssi

/-- A register whose value a running command may be changing: reads of it while BUSY are
UNSPECIFIED (20_memory.md R66). -/
def isResultReg (off : Nat) : Bool :=
  decide (0x020 ≤ off ∧ off < 0x06C) || decide (0x080 ≤ off ∧ off < 0x0A0) ||
    decide (0x0C0 ≤ off ∧ off < 0x100)

/-- A register word by its offset, a multiple of 4 (10_state.md R21); reserved offsets read 0. -/
def regWord (s : State) (off : Nat) : Word :=
  if off = 0x000 then ctrlWord s
  else if off = 0x004 then statusWord s
  else if off = 0x008 then 0
  else if off = 0x00C then s.inLen.setWidth 32
  else if off < 0x020 then s.arg.toList.getD ((off - 0x010) / 4) 0
  else if off < 0x040 then s.res.toList.getD ((off - 0x020) / 4) 0
  else if off < 0x06C then frmWord s.frm off
  else if off < 0x080 then 0
  else if off < 0x090 then csiWord s.grp ((off - 0x080) / 4)
  else if off < 0x0A0 then csiWord s.snap ((off - 0x090) / 4)
  else if off < 0x0C0 then 0
  else (s.snap.len.toList.getD ((off - 0x0C0) / 4) 0).setWidth 32

/-- The value of a read that no check of R61, R62 stops, zero-extended (20_memory.md R60, R63, R64,
R66). -/
def readValue (s : State) (off : Nat) (w : Width) : Word :=
  match regionOf off with
  | .registers => if isBusy s && isResultReg off then drawWord s off else regWord s off
  | .inBuf => BitVec.ofNat 32 (memRead s (off - 0x1000) w.bytes)
  | .coefBuf => if isBusy s then drawWord s off else cplxWindowWord s s.coefBuf 0x2000 off
  | .aoa0 => if isBusy s then drawWord s off else f64WindowWord s s.aoa0 0x4000 off
  | .aoa1 => if isBusy s then drawWord s off else f64WindowWord s s.aoa1 0x5000 off
  | .snapGrid => if isBusy s then drawWord s off else cplxWindowWord s s.snap.grid 0x10000 off
  | .reserved => 0
  | .outside => 0

/-- A host read (20_memory.md R61 to R66): reads have no side effect (R64). -/
def busRead (s : State) (off : Nat) (w : Width) : Except BusStop Word :=
  match accessStop off w with
  | some e => .error e
  | none => .ok (readValue s off w)

/-! ### Writes -/

/-- The bytes a write of a width carries, least significant first (R63). -/
def writeBytes (w : Width) (v : Word) : List Byte :=
  (List.range w.bytes).map fun i => v.extractLsb' (8 * i) 8

/-- A host write to CTRL (45_control.md R227): IRQ_EN first, then the soft reset. -/
def writeCtrl (v : Word) (s : State) : State :=
  if v.getLsbD 1 then resetBlock { s with irqEn := v.getLsbD 0 }
  else { s with irqEn := v.getLsbD 0 }

/-- A host write that a running command drops (R225). -/
def unlessBusy (f : State → State) (s : State) : State := if isBusy s then setOverrun s else f s

/-- A host write to ARG `k` (10_state.md R26). -/
def writeArg (k : Nat) (v : Word) (s : State) : State :=
  { s with arg := Vector.ofFn fun i => if i.val = k then v else s.arg[i] }

/-- A host write to a register offset; RO registers and reserved offsets ignore it
(10_state.md R21; 20_memory.md R64). -/
def writeReg (off : Nat) (v : Word) (s : State) : State :=
  if off = 0x000 then writeCtrl v s
  else if off = 0x004 then { s with status := clearStatus v s.status }
  else if off = 0x008 then unlessBusy (startCommand v) s
  else if off = 0x00C then unlessBusy (fun s => { s with inLen := v.setWidth 13 }) s
  else if off < 0x020 then unlessBusy (writeArg ((off - 0x010) / 4) v) s
  else s

/-- The effect of a write that no check of R61, R62 stops. -/
def writeEffect (off : Nat) (w : Width) (v : Word) (s : State) : State :=
  match regionOf off with
  | .registers => writeReg off v s
  | .inBuf =>
    unlessBusy
      (fun s => { s with inBuf := Sparse.writeFrom s.inBuf (off - 0x1000) (writeBytes w v) }) s
  | _ => s

/-- A host write (20_memory.md R61 to R66). -/
def busWrite (s : State) (off : Nat) (w : Width) (v : Word) : Except BusStop State :=
  match accessStop off w with
  | some e => .error e
  | none => .ok (writeEffect off w v s)

/-! ### One bus cycle -/

/-- A bus stop as the outcome of the step: R65 asks for a fault of the host script. -/
def BusStop.outcome : BusStop → Host.Outcome State Fault Refusal
  | .fault f => .fault f
  | .refused r => .refused r

/-- Serve one host operation in a state from which it has been removed (30_encoding.md R90). A
`wait` whose read of STATUS finds DONE = 0 stays at the head. -/
def serve (op : HostOp) (s : State) : Host.Outcome State Fault Refusal :=
  match op with
  | .write off w v =>
    match busWrite s off w v with
    | .error e => e.outcome
    | .ok t => .next (nextDraw t)
  | .read off w name =>
    match busRead s off w with
    | .error e => e.outcome
    | .ok v => .next (nextDraw { s with log := (name, v) :: s.log })
  | .wait =>
    .next (nextDraw (if (statusWord s).getLsbD 1 then s else { s with script := .wait :: s.script }))
  | .idle => .next (nextDraw s)
  | .resetInput => .next (nextDraw (resetBlock s))

/-- One bus cycle: the oldest host operation, or nothing when the host has none (log 3). -/
def hostCycle (s : State) : Host.Outcome State Fault Refusal :=
  match s.script with
  | [] => .next (nextDraw s)
  | op :: rest => serve op { s with script := rest }

end Sys2Proof.Machine
end

