-- ==== Sys2Proof/Machine/Chanspec.lean ====
section
/-! DEFINITION. The channel-specification codec family: CHANSPEC_DECODE, CHANSPEC_ENCODE,
DEFAULT_DELAY, SUBCARRIER_CLASS (spec 40_chanspec.md). -/

namespace Sys2Proof.Machine

/-- A decoded chanspec (40_chanspec.md R100). -/
structure Chanspec where
  center   : BitVec 8
  sideband : BitVec 3
  band     : Band
  bw       : Bw
deriving DecidableEq, Repr

/-- `channel_lo_20mhz(cs)` (R104): may be negative. -/
def chanLo (cs : Chanspec) : Int := (cs.center.toNat : Int) - ((cs.bw.mhz - 20) / 10 : Nat)

/-- `center_freq_mhz(cs)` (R104), for either band. -/
def centerFreqMhz (cs : Chanspec) : Nat := 5000 + 5 * cs.center.toNat

/-- The bandwidth field `v[13:11]` (R101). -/
def bwOfField (f : BitVec 3) : Option Bw :=
  match f.toNat with
  | 2 => some .mhz20
  | 3 => some .mhz40
  | 4 => some .mhz80
  | 5 => some .mhz160
  | _ => none

/-- The band field `v[15:14]` (R102). -/
def bandOfField (f : BitVec 2) : Option Band :=
  match f.toNat with
  | 0 => some .ghz2
  | 3 => some .ghz5
  | _ => none

/-- "2.4 GHz band only legal with 20/40 MHz bandwidth" (R102). -/
def bandAllows (band : Band) (bw : Bw) : Bool :=
  match band, bw with
  | .ghz2, .mhz80 => false
  | .ghz2, .mhz160 => false
  | _, _ => true

/-- `cs_decode` (R106): the bandwidth field first, then the band, then their legality together. -/
def csDecode (v : Half) : Except ErrCode Chanspec :=
  match bwOfField (v.extractLsb' 11 3) with
  | none => .error .invalidBandwidth
  | some bw =>
    match bandOfField (v.extractLsb' 14 2) with
    | none => .error .invalidBand
    | some band =>
      if bandAllows band bw then
        .ok { center := v.extractLsb' 0 8, sideband := v.extractLsb' 8 3, band := band, bw := bw }
      else .error .invalidBandwidth

/-- The bandwidth bits of a composed chanspec (R110). -/
def bwBits : Bw → Nat
  | .mhz20 => 0x1000
  | .mhz40 => 0x1800
  | .mhz80 => 0x2000
  | .mhz160 => 0x2800

/-- The band bits of a composed chanspec (R110). -/
def bandBits : Band → Nat
  | .ghz2 => 0x0000
  | .ghz5 => 0xC000

/-- `cs_compose` (R110). -/
def csCompose (c sb : Nat) (band : Band) (bw : Bw) : Half :=
  BitVec.ofNat 16 (bandBits band ||| bwBits bw ||| (sb <<< 8) ||| c)

/-- The candidate tables, ascending (R109): the spec's default parameters (log 12). -/
def chanTable : Bw → List Nat
  | .mhz20 => []
  | .mhz40 => [38, 46, 54, 62, 102, 110, 118, 126, 134, 142, 151, 159]
  | .mhz80 => [42, 58, 106, 122, 138, 155]
  | .mhz160 => [50, 114]

/-- The search of R108: the first candidate whose offset fits wins. -/
def csSearch (ch : Nat) (band : Band) (bw : Bw) : List Nat → Option Half
  | [] => none
  | c :: cs =>
    let d : Int := (ch : Int) - ((c : Int) - ((bw.mhz - 20) / 10 : Nat))
    if 0 ≤ d ∧ d % 4 = 0 ∧ d / 4 < (bw.mhz / 20 : Nat) then
      some (csCompose c (d / 4).toNat band bw)
    else csSearch ch band bw cs

/-- `cs_encode` (R108). -/
def csEncode (ch : Nat) (band : Band) (bw : Bw) : Option Half :=
  if bandAllows band bw then
    (if bw = .mhz20 then some (csCompose ch 0 band bw) else csSearch ch band bw (chanTable bw))
  else none

/-- The results of CHANSPEC_DECODE (R105). -/
def decodeResults (cs : Chanspec) : List Word :=
  [asU32 cs.center.toNat, asU32 cs.sideband.toNat, asU32 cs.band.code, asU32 cs.bw.code,
    asU32 cs.bw.mhz, asU32 cs.bw.nsub, asI32 (chanLo cs), asU32 (centerFreqMhz cs)]

/-- The pseudocode of CHANSPEC_DECODE (R105). -/
def chanspecDecodeBody (s : State) : Ending × State :=
  if rsvSet s.arg[0] 16 then (.raise .badOperand, s)
  else
    match csDecode (s.arg[0].extractLsb' 0 16) with
    | .error e => (.raise e, s)
    | .ok cs => (.done, setResults (decodeResults cs) s)

/-- CHANSPEC_DECODE (R105). -/
def execChanspecDecode (s : State) : Host.Outcome State Fault Refusal :=
  complete (chanspecDecodeBody s)

/-- The results of CHANSPEC_ENCODE for the encoded chanspec `v` (R107). -/
def encodeResults (v : Half) : List Word :=
  match csDecode v with
  | .ok cs =>
    [asU32 v.toNat, asU32 cs.center.toNat, asU32 cs.sideband.toNat, asI32 (chanLo cs)]
  | .error _ => [asU32 v.toNat]

/-- The pseudocode of CHANSPEC_ENCODE (R107). By R111 the encoded value always decodes. -/
def chanspecEncodeBody (s : State) : Ending × State :=
  if rsvSet s.arg[0] 8 || rsvSet s.arg[1] 1 || rsvSet s.arg[2] 2 then (.raise .badOperand, s)
  else
    match csEncode (s.arg[0].extractLsb' 0 8).toNat (bandOfCode (s.arg[1].getLsbD 0))
        (bwOperand s.arg[2]) with
    | none => (.absent, s)
    | some v => (.done, setResults (encodeResults v) s)

/-- CHANSPEC_ENCODE (R107). -/
def execChanspecEncode (s : State) : Host.Outcome State Fault Refusal :=
  complete (chanspecEncodeBody s)

/-- `popcount` of a 4-bit mask (00_scope.md R9). -/
def popcount4 (m : BitVec 4) : Nat :=
  (m.getLsbD 0).toNat + (m.getLsbD 1).toNat + (m.getLsbD 2).toNat + (m.getLsbD 3).toNat

/-- The settling delay in microseconds (R112). -/
def settlingDelay (p : Nat) : Nat := if Config.delayThreshold ≤ p then Config.delayLongUs else 0

/-- The pseudocode of DEFAULT_DELAY (R112). -/
def defaultDelayBody (s : State) : Ending × State :=
  if rsvSet s.arg[0] 4 || rsvSet s.arg[1] 4 then (.raise .badOperand, s)
  else
    let p := popcount4 (s.arg[0].extractLsb' 0 4) * popcount4 (s.arg[1].extractLsb' 0 4)
    (.done, setResults [asU32 (settlingDelay p), asU32 p] s)

/-- DEFAULT_DELAY (R112). -/
def execDefaultDelay (s : State) : Host.Outcome State Fault Refusal :=
  complete (defaultDelayBody s)

/-- The pilot sets of R114, by `a = |k|`. -/
def pilots : Bw → List Nat
  | .mhz20 => [7, 21]
  | .mhz40 => [11, 25, 53]
  | .mhz80 => [11, 39, 75, 103]
  | .mhz160 => [25, 53, 89, 117, 139, 167, 203, 231]

/-- The data range of R114, by `a = |k|`. -/
def inDataRange (bw : Bw) (a : Nat) : Bool :=
  match bw with
  | .mhz20 => decide (1 ≤ a ∧ a ≤ 28)
  | .mhz40 => decide (2 ≤ a ∧ a ≤ 58)
  | .mhz80 => decide (2 ≤ a ∧ a ≤ 122)
  | .mhz160 => decide ((6 ≤ a ∧ a ≤ 126) ∨ (130 ≤ a ∧ a ≤ 250))

/-- `sc_class(bw, k)` (R114): 0 unused, 1 pilot, 2 data. -/
def scClass (bw : Bw) (k : Int) : Nat :=
  if (pilots bw).contains k.natAbs then 1 else if inDataRange bw k.natAbs then 2 else 0

/-- The pseudocode of SUBCARRIER_CLASS (R113). -/
def subcarrierClassBody (s : State) : Ending × State :=
  if rsvSet s.arg[0] 2 then (.raise .badOperand, s)
  else (.done, setResults [asU32 (scClass (bwOperand s.arg[0]) s.arg[1].toInt)] s)

/-- SUBCARRIER_CLASS (R113). -/
def execSubcarrierClass (s : State) : Host.Outcome State Fault Refusal :=
  complete (subcarrierClassBody s)

end Sys2Proof.Machine
end

