-- ==== Sys2Proof/Machine/Control.lean ====
section
/-! DEFINITION. Command control: NOP and illegal command words (spec 45_control.md R223, R224). -/

namespace Sys2Proof.Machine

/-- NOP (45_control.md R223). -/
def execNop (s : State) : Host.Outcome State Fault Refusal := complete (.done, s)

/-- An illegal command word (R224): it completes with ILLEGAL_COMMAND and changes nothing else. -/
def execIllegal (s : State) : Host.Outcome State Fault Refusal :=
  complete (.raise .illegalCommand, s)

end Sys2Proof.Machine
end

