-- ==== Sys2Proof/Machine/Float64.lean ====
section
/-! DEFINITION. Binary64 arithmetic on encodings, rounded to nearest with ties to even
(spec 00_scope.md R13; the IEEE 754 semantics are the spec's item G1, log 18). -/

namespace Sys2Proof.Machine

/-- The encoding of the binary64 number 1. -/
def fOne : F64 := 0x3FF0000000000000

/-- The encoding of +∞. -/
def fInf : F64 := 0x7FF0000000000000

/-- The NaN an operation answers with inside a command; a NaN a command STORES gets a drawn
payload (log 8). -/
def fNaN : F64 := 0x7FF8000000000000

/-- The sign bit, true for negative. -/
def fNeg (a : F64) : Bool := a.msb

/-- The biased exponent field. -/
def fExp (a : F64) : Nat := a.toNat / 2 ^ 52 % 2 ^ 11

/-- The fraction field. -/
def fFrac (a : F64) : Nat := a.toNat % 2 ^ 52

/-- The encoding without its sign. -/
def fMag (a : F64) : Nat := a.toNat % 2 ^ 63

def fIsNaN (a : F64) : Bool := decide (0x7FF0000000000000 < fMag a)

def fIsInf (a : F64) : Bool := decide (fMag a = 0x7FF0000000000000)

def fIsZero (a : F64) : Bool := decide (fMag a = 0)

def fIsFinite (a : F64) : Bool := decide (fMag a < 0x7FF0000000000000)

/-- The integer significand: a finite `a` is `± fMant a · 2 ^ fQuantum a`. -/
def fMant (a : F64) : Nat := if fExp a = 0 then fFrac a else 2 ^ 52 + fFrac a

/-- The exponent of the last significand bit. -/
def fQuantum (a : F64) : Int := if fExp a = 0 then -1074 else (fExp a : Int) - 1075

/-- The value of a finite number as a multiple of 2 ^ (-1074), without its sign. -/
def fFixAbs (a : F64) : Nat := fMant a <<< (fQuantum a + 1074).toNat

/-- The value of a finite number as a multiple of 2 ^ (-1074). -/
def fFix (a : F64) : Int := if fNeg a then -(fFixAbs a : Int) else fFixAbs a

/-- The rational value of a finite number. -/
def fValue (a : F64) : ℚ := (fFix a : ℚ) / 2 ^ 1074

/-- The sign bit put on a magnitude. -/
def fWithSign (neg : Bool) (mag : Nat) : F64 := BitVec.ofNat 64 ((if neg then 2 ^ 63 else 0) + mag)

/-- The opposite number: the sign bit flipped. -/
def fOpp (a : F64) : F64 := fWithSign (!fNeg a) (fMag a)

/-- `m / 2 ^ k` rounded to the nearest integer, ties to even, for `0 < k`. -/
def roundShift (m k : Nat) : Nat :=
  let h := m >>> k
  let r := m % 2 ^ k
  if 2 ^ (k - 1) < r ∨ (r = 2 ^ (k - 1) ∧ h % 2 = 1) then h + 1 else h

/-- The magnitude of `m · 2 ^ e` rounded to binary64 (nearest, ties to even), overflow to +∞.
A carry out of the significand runs into the exponent field, as the encoding wants. -/
def fPackMag (m : Nat) (e : Int) : Nat :=
  if m = 0 then 0
  else
    let q : Int := max (e + (Nat.log2 m : Int) - 52) (-1074)
    let mant := if q ≤ e then m <<< (e - q).toNat else roundShift m (q - e).toNat
    min ((q + 1074).toNat * 2 ^ 52 + mant) 0x7FF0000000000000

/-- `± m · 2 ^ e` rounded to binary64. -/
def fPack (neg : Bool) (m : Nat) (e : Int) : F64 := fWithSign neg (fPackMag m e)

/-- `f64(z · 2 ^ e)` for an integer `z`: zero is +0.0 (41_unpack.md R133, R134). -/
def fOfScaled (z : Int) (e : Int) : F64 := fPack (decide (z < 0)) z.natAbs e

/-- `f64(z)` for an integer `z`. -/
def fOfInt (z : Int) : F64 := fOfScaled z 0

/-- `a ⊕ b` (00_scope.md R13). An exact zero sum is +0, but -0 when both operands are -0. -/
def fAdd (a b : F64) : F64 :=
  if fIsNaN a ∨ fIsNaN b then fNaN
  else if fIsInf a then (if fIsInf b ∧ fNeg a ≠ fNeg b then fNaN else a)
  else if fIsInf b then b
  else
    let z := fFix a + fFix b
    if z = 0 then fWithSign (fNeg a && fNeg b) 0 else fOfScaled z (-1074)

/-- `a ⊖ b` (R13). -/
def fSub (a b : F64) : F64 := if fIsNaN b then fNaN else fAdd a (fOpp b)

/-- `a ⊗ b` (R13). -/
def fMul (a b : F64) : F64 :=
  let s := fNeg a != fNeg b
  if fIsNaN a ∨ fIsNaN b then fNaN
  else if fIsInf a ∨ fIsInf b then
    (if fIsZero a ∨ fIsZero b then fNaN else fWithSign s 0x7FF0000000000000)
  else fPack s (fMant a * fMant b) (fQuantum a + fQuantum b)

/-- `a ⊘ b` (R13). The last bit of the scaled quotient is sticky: it is set when the division
leaves a remainder. -/
def fDiv (a b : F64) : F64 :=
  let s := fNeg a != fNeg b
  if fIsNaN a ∨ fIsNaN b then fNaN
  else if fIsInf a then (if fIsInf b then fNaN else fWithSign s 0x7FF0000000000000)
  else if fIsInf b then fWithSign s 0
  else if fIsZero b then (if fIsZero a then fNaN else fWithSign s 0x7FF0000000000000)
  else
    let n := fMant a <<< 120
    let q := 2 * (n / fMant b) + (if n % fMant b = 0 then 0 else 1)
    fPack s q (fQuantum a - fQuantum b - 121)

/-- The integer square root, bit by bit from bit `i` down. -/
def isqrtFrom (n : Nat) : (i acc : Nat) → Nat
  | 0, acc => if (acc + 1) * (acc + 1) ≤ n then acc + 1 else acc
  | i + 1, acc =>
    let t := acc + 2 ^ (i + 1)
    isqrtFrom n i (if t * t ≤ n then t else acc)

/-- The integer square root. -/
def isqrt (n : Nat) : Nat := isqrtFrom n (Nat.log2 n / 2 + 1) 0

/-- `sqrt64(a)` (R13). -/
def fSqrt (a : F64) : F64 :=
  if fIsNaN a then fNaN
  else if fIsZero a then a
  else if fNeg a then fNaN
  else if fIsInf a then a
  else
    let odd := (fQuantum a % 2).toNat
    let n := fMant a <<< (120 + odd)
    let r := isqrt n
    let q := 2 * r + (if r * r = n then 0 else 1)
    fPack false q ((fQuantum a - odd - 120) / 2 - 1)

/-- The order key of a number: both zeros have key 0. -/
def fKey (a : F64) : Int := if fNeg a then -(fMag a : Int) else fMag a

/-- `a > b` on numbers; false when either is NaN (44_estimator.md R202). -/
def fGt (a b : F64) : Bool := !fIsNaN a && !fIsNaN b && decide (fKey b < fKey a)

/-- `a ≤ b` on numbers; false when either is NaN. -/
def fLe (a b : F64) : Bool := !fIsNaN a && !fIsNaN b && decide (fKey a ≤ fKey b)

/-- The NaN whose sign and payload are those of 64 free bits; a zero payload is made the quiet one
(93_implementation_defined.md U24; log 8). -/
def fNaNOf (free : F64) : F64 :=
  fWithSign (fNeg free)
    (0x7FF0000000000000 + (if fFrac free = 0 then 2 ^ 51 else fFrac free))

end Sys2Proof.Machine
end

