-- ==== Sys2Proof/Machine/Angle.lean ====
section
/-! DEFINITION. `ATAN2` and `ASIN` (spec 44_estimator.md R193). They are OPEN: the spec fixes their
special cases, their range and an error of at most 1 ulp. The model computes the true angle to
`2 ^ -1260`, lists the binary64 numbers within 1 ulp of it, and lets a free value choose one
(log 6). -/

namespace Sys2Proof.Machine

/-- `PI64`, the binary64 nearest π (R193 item 1). -/
def fPi : F64 := 0x400921FB54442D18

/-- `PI64 / 2` (R193 item 2). -/
def fHalfPi : F64 := 0x3FF921FB54442D18

/-- Fixed-point angles carry this many fraction bits. -/
def angleBits : Nat := 1280

/-- A bound, in units of `2 ^ -angleBits`, on the error of the fixed-point angle. -/
def angleError : Nat := 2 ^ 20

/-- The arctangent series of `t ≤ 3/7`, both with `p` fraction bits: `fuel` terms from number `k`,
`pow` being `t ^ (2k+1)` and `t2` being `t ^ 2`. -/
def atanTerms (p t2 : Nat) : (fuel k pow : Nat) → Int
  | 0, _, _ => 0
  | fuel + 1, k, pow =>
    let term : Int := (pow / (2 * k + 1) : Nat)
    (if k % 2 = 0 then term else -term) + atanTerms p t2 fuel (k + 1) ((pow * t2) >>> p)

/-- `atan t` with `p` fraction bits, for `t ≤ 3/7` given with `p` fraction bits. -/
def atanSeries (p fuel t : Nat) : Nat := (atanTerms p ((t * t) >>> p) fuel 0 t).toNat

/-- π/4 with `p` fraction bits: `4 atan (1/5) - atan (1/239)`. -/
def quarterPi (p fuel : Nat) : Nat :=
  4 * atanSeries p fuel (2 ^ p / 5) - atanSeries p fuel (2 ^ p / 239)

/-- `atan (y / x)` with `angleBits` fraction bits, for `y ≤ x`, `x > 0`: the series below 2/5, and
`π/4 - atan ((x - y) / (x + y))` above. -/
def atanRatio (y x : Nat) : Nat :=
  if 5 * y ≤ 2 * x then atanSeries angleBits 540 ((y <<< angleBits) / x)
  else
    quarterPi angleBits 540 - atanSeries angleBits 540 (((x - y) <<< angleBits) / (x + y))

/-- The angle in `[0, π]` of the point `(± x, y)`, not the origin, with `angleBits` fraction
bits. -/
def angleOf (y x : Nat) (xNeg : Bool) : Nat :=
  let q := quarterPi angleBits 540
  let a := if y ≤ x then atanRatio y x else 2 * q - atanRatio x y
  if xNeg then 4 * q - a else a

/-- A finite binary64 magnitude with `angleBits` fraction bits, exactly. -/
def fixOfMag (mag : Nat) : Nat :=
  let a := fWithSign false mag
  fMant a <<< (fQuantum a + angleBits).toNat

/-- One ulp of the fixed-point angle `t`, with `angleBits` fraction bits. -/
def ulpOf (t : Nat) : Nat := 2 ^ max (Nat.log2 t - 52) (angleBits - 1074)

/-- The binary64 magnitudes within 1 ulp of the angle `t` and not above `cap`, among the five next
to the nearest (R193 items 1 and 4). -/
def withinUlp (t : Nat) (cap : F64) : List Nat :=
  let near := fPackMag t (-(angleBits : Int))
  let slack := ulpOf t + angleError
  [near - 2, near - 1, near, near + 1, near + 2].filter fun c =>
    decide (t ≤ fixOfMag c + slack) && decide (fixOfMag c ≤ t + slack) && decide (c ≤ fMag cap)

/-- One of the magnitudes within 1 ulp of the angle `t`, chosen by the free value `pick`. -/
def pickWithinUlp (t : Nat) (cap : F64) (pick : Nat) : Nat :=
  let cs := withinUlp t cap
  cs.getD (pick % cs.length) (min (fPackMag t (-(angleBits : Int))) (fMag cap))

/-- `ATAN2(y, x)` (44_estimator.md R193 items 1, 2, 3 and 6). -/
def fAtan2 (y x : F64) : F64 :=
  if fIsNaN y ∨ fIsNaN x then fNaN
  else if fIsZero y then
    (if fNeg x then fWithSign (fNeg y) (fMag fPi) else fWithSign (fNeg y) 0)
  else if fIsZero x then fWithSign (fNeg y) (fMag fHalfPi)
  else if fIsInf y ∨ fIsInf x then
    let v := Config.atan2Free y x
    if fLe (fOpp fPi) v && fLe v fPi then v else 0
  else
    fWithSign (fNeg y)
      (pickWithinUlp (angleOf (fFixAbs y) (fFixAbs x) (fNeg x)) fPi (Config.atan2Pick y x))

/-- The angle `asin a` for a magnitude `0 < a < 1`, with `angleBits` fraction bits: the angle of the
point `(√(1 - a²), a)`. -/
def asinAngle (mag : Nat) : Nat :=
  let a := fixOfMag mag
  angleOf a (isqrt (2 ^ (2 * angleBits) - a * a)) false

/-- `ASIN(a)` (44_estimator.md R193 items 4, 5 and 6). -/
def fAsin (a : F64) : F64 :=
  if fIsNaN a then fNaN
  else if fMag fOne < fMag a then fNaN
  else if fIsZero a then a
  else if fMag a = fMag fOne then fWithSign (fNeg a) (fMag fHalfPi)
  else fWithSign (fNeg a) (pickWithinUlp (asinAngle (fMag a)) fHalfPi (Config.asinPick a))

end Sys2Proof.Machine
end

