-- ==== Sys2Proof/Machine/Grouper.lean ====
section
/-! DEFINITION. The frame grouper family: GROUP_ADD, GROUP_TAKE (spec 43_grouper.md). -/

namespace Sys2Proof.Machine

/-- The entries a length of 10 bits names: a slot has NSUB_MAX of them (log 19). -/
def entryCount (n : BitVec 10) : Nat := min n.toNat Config.nsubMax

/-- Bit `slot` of a mask. -/
def maskBit (mask : Half) (slot : Nat) : Bool := mask.getLsbD slot

/-- The sequence of one populated slot of the group (43_grouper.md R170). -/
def grpSequence (s : State) (slot : Fin 16) : List Cplx :=
  (List.range (entryCount s.grp.len[slot])).map fun j => grpEntry s slot.val j

/-- One slot of the emitted grid: its sequence when populated, else nothing, so that it is
UNSPECIFIED (R172; 10_state.md R32). -/
def emitSlot (s : State) (slot : Fin 16) : Sparse Cplx :=
  if maskBit s.grp.mask slot.val then Sparse.block (gridKey slot.val 0) (grpSequence s slot) else []

/-- The group as the snapshot takes it over (R172). -/
def emitted (s : State) : WifiCsi :=
  { seq := s.grp.seq
    mask := s.grp.mask
    chanspec := s.grp.chanspec
    rssi := s.grp.rssi
    len := Vector.ofFn fun t => if maskBit s.grp.mask t.val then s.grp.len[t] else 0
    grid := (List.finRange 16).flatMap (emitSlot s) }

/-- The emit helper (R172). -/
def emit (s : State) : State :=
  { s with snap := emitted s, status := { s.status with snapValid := true } }

/-- The flush helper (R171): whether a group was emitted, and the state after. -/
def flush (s : State) : Bool × State :=
  if s.status.groupActive && decide (s.grp.mask ≠ 0) then (true, setGroupActive false (emit s))
  else (false, setGroupActive false s)

/-- A fresh group seeded with the frame (R173, R175). -/
def startGroup (s : State) : State :=
  setGroupActive true
    { s with
      grp :=
        { s.grp with
          seq := s.frm.seq
          chanspec := s.frm.chanspec
          rssi := s.frm.rssi
          mask := 0
          len := Vector.replicate 16 0 } }

/-- The slot of the frame, `4·core + spatial` (10_state.md R31). -/
def frameSlot (s : State) : Nat := 4 * s.frm.core.toNat + s.frm.spatial.toNat

/-- The sequence of the decoded frame, `COEF_BUF[0..FRM_NSUB)` (R173). -/
def frameSequence (s : State) : List Cplx :=
  (List.range (entryCount s.frm.nsub)).map (coefEntry s)

/-- Write the frame's sequence into its slot (R173). -/
def addSlot (s : State) : State :=
  { s with
    grp :=
      { s.grp with
        grid := Sparse.writeFrom s.grp.grid (gridKey (frameSlot s) 0) (frameSequence s)
        len := Vector.ofFn fun t => if t.val = frameSlot s then s.frm.nsub else s.grp.len[t]
        mask := s.grp.mask ||| (BitVec.twoPow 16 (frameSlot s)) } }

/-- The frame starts a new group: none is in progress, or its seq_cnt differs (R173). -/
def startsGroup (s : State) : Bool :=
  !s.status.groupActive || decide (s.frm.seq ≠ s.grp.seq)

/-- The frame has no slot in the 4 × 4 grid (R173). -/
def slotOutOfRange (s : State) : Bool :=
  decide (4 ≤ s.frm.core.toNat) || decide (4 ≤ s.frm.spatial.toNat)

/-- The pseudocode of GROUP_ADD (R173). -/
def groupAddBody (s : State) : Ending × State :=
  if !s.status.frameValid then (.raise .noFrame, s)
  else if slotOutOfRange s then (.raise .slotRange, s)
  else if startsGroup s then
    (if (flush s).1 then .doneEmitted else .absent, addSlot (startGroup (flush s).2))
  else (.absent, addSlot s)

/-- GROUP_ADD (R173). -/
def execGroupAdd (s : State) : Host.Outcome State Fault Refusal :=
  complete (groupAddBody s)

/-- The pseudocode of GROUP_TAKE (R174). -/
def groupTakeBody (s : State) : Ending × State :=
  (if (flush s).1 then .doneEmitted else .absent, (flush s).2)

/-- GROUP_TAKE (R174). -/
def execGroupTake (s : State) : Host.Outcome State Fault Refusal :=
  complete (groupTakeBody s)

end Sys2Proof.Machine
end

