-- ==== Sys2Proof/Machine/Idft.lean ====
section
/-! DEFINITION. The inverse DFT of TOF (spec 44_estimator.md R198, R201). It is OPEN: R201 fixes its
error bound and its value on an impulse. The model takes the free value where it meets the bound
and the rounded exact value where it does not; the scale is free among those that leave the peak
index alone (log 7). -/

namespace Sys2Proof.Machine

/-- The roots of unity carry this many fraction bits. -/
def trigBits : Nat := 192

/-- The series of cosine (from `k = 0`, `term = 1`) or sine (from `k = 1`, `term = θ`), with
`trigBits` fraction bits: alternating terms `θ ^ k / k!`. -/
def trigTerms (theta : Nat) : (fuel k term : Nat) → Int
  | 0, _, _ => 0
  | fuel + 1, k, term =>
    (term : Int) -
      trigTerms theta fuel (k + 2)
        (((((term * theta) >>> trigBits) * theta) >>> trigBits) / ((k + 1) * (k + 2)))

/-- `2π·j/n` with `trigBits` fraction bits. -/
def rootAngle (n j : Nat) : Nat := 8 * quarterPi trigBits 100 * j / n

/-- `cos (2π·j/n)` with `trigBits` fraction bits. -/
def rootCos (n j : Nat) : Int := trigTerms (rootAngle n j) 64 0 (2 ^ trigBits)

/-- `sin (2π·j/n)` with `trigBits` fraction bits. -/
def rootSin (n j : Nat) : Int := trigTerms (rootAngle n j) 64 1 (rootAngle n j)

/-- The real and imaginary part of `Σ x[m]·e^(2πi·k·m/n)` (R198), exact but for the roots, as
multiples of `2 ^ -(1074 + trigBits)`; `m` is the index of the head of the list. -/
def dftSum (n k : Nat) : List Cplx → (m : Nat) → Int × Int
  | [], _ => (0, 0)
  | x :: xs, m =>
    let c := rootCos n (k * m % n)
    let s := rootSin n (k * m % n)
    let rest := dftSum n k xs (m + 1)
    (fFix x.re * c - fFix x.im * s + rest.1, fFix x.re * s + fFix x.im * c + rest.2)

/-- `Σ |x[m]|`, rounded up, as a multiple of `2 ^ -1074`. -/
def absSum : List Cplx → Nat
  | [] => 0
  | x :: xs =>
    let sq := fFixAbs x.re * fFixAbs x.re + fFixAbs x.im * fFixAbs x.im
    (if sq = 0 then 0 else isqrt sq + 1) + absSum xs

/-- The scale `s_N` (R198): any number from `2 ^ -400` to below `2 ^ 400`. On unpacked data
(41_unpack.md R139) no square of MAG2 that decides a peak then underflows or overflows, so the scale
"does not change the peak index" (R201; log 7). -/
def idftScale (n : Nat) : F64 :=
  let s := Config.idftScaleRaw n
  if !fNeg s && decide (623 ≤ fExp s) && decide (fExp s < 1423) then s else fOne

/-- `v` is finite and differs from `s · t` by at most `s · 2 ^ -40 · Σ|x|` (R201 item 2), `t` and
`sum` being multiples of `2 ^ -(1074 + trigBits)` and `2 ^ -1074`. The last summand is the error of
the roots. -/
def withinBound (s : F64) (t : Int) (sum : Nat) (v : F64) : Bool :=
  fIsFinite v &&
    decide ((fFix v * 2 ^ (1074 + trigBits) - fFixAbs s * t).natAbs ≤
      fFixAbs s * (sum * 2 ^ (trigBits - 40) + 2 * sum * 2 ^ 24))

/-- A free value kept finite (R201 item 4). -/
def finiteFree (v : F64) : F64 := if fIsFinite v then v else 0

/-- A part of an output: the free value where R201 item 2 admits it, else the rounded exact value
where that meets the bound. On data out of the unpacker's range no binary64 number may meet it; the
part is then a free finite number. -/
def boundedPart (s : F64) (t : Int) (sum : Nat) (free : F64) : F64 :=
  let near := fOfScaled (fFixAbs s * t) (-(1074 + 1074 + (trigBits : Int)))
  if withinBound s t sum free then free
  else if withinBound s t sum near then near
  else finiteFree free

/-- Both parts are finite. -/
def cFinite (x : Cplx) : Bool := fIsFinite x.re && fIsFinite x.im

/-- Both parts are zero. -/
def cZero (x : Cplx) : Bool := fIsZero x.re && fIsZero x.im

/-- Entry `k` of `IDFT_N` of the sequence `xs` of length `n` (R198, R201). -/
def idft (n : Nat) (xs : List Cplx) (k : Nat) : Cplx :=
  let s := idftScale n
  let free := Config.idftRaw n xs k
  if !xs.all cFinite then free
  else if xs.tail.all cZero then
    ⟨fMul s (xs.headD ⟨0, 0⟩).re, fMul s (xs.headD ⟨0, 0⟩).im⟩
  else
    let t := dftSum n k xs 0
    let sum := absSum xs
    ⟨boundedPart s t.1 sum free.re, boundedPart s t.2 sum free.im⟩

end Sys2Proof.Machine
end

