-- ==== Sys2Proof/Machine/Estimator.lean ====
section
/-! DEFINITION. The estimator family: AOA, TOF (spec 44_estimator.md). -/

namespace Sys2Proof.Machine

/-! ### Frequencies and wavelengths -/

/-- The lower end of the frequency grid, in hertz (44_estimator.md R191). -/
def gridStart (cs : Chanspec) : F64 :=
  fOfInt ((centerFreqMhz cs : Int) * 1000000 - (cs.bw.mhz * 1000000 / 2 : Nat))

/-- The upper end of the frequency grid (R191). -/
def gridEnd (cs : Chanspec) : F64 :=
  fOfInt ((centerFreqMhz cs : Int) * 1000000 + (cs.bw.mhz * 1000000 / 2 : Nat))

/-- The step of the frequency grid (R191). -/
def gridStep (cs : Chanspec) : F64 :=
  fDiv (fSub (gridEnd cs) (gridStart cs)) (fOfInt ((cs.bw.nsub : Int) - 1))

/-- `freq[i]` (R191): both ends are points of the grid. -/
def freq (cs : Chanspec) (i : Nat) : F64 :=
  if i + 1 = cs.bw.nsub then gridEnd cs
  else fAdd (gridStart cs) (fMul (fOfInt i) (gridStep cs))

/-- `SPEED_OF_LIGHT` (00_scope.md R6): 299792458.0 m/s. -/
def speedOfLight : F64 := fOfInt 299792458

/-- `lambda[i]` (R192). -/
def wavelength (cs : Chanspec) (i : Nat) : F64 := fDiv speedOfLight (freq cs i)

/-! ### Angle of arrival -/

/-- `CDIV(a, b)` (R194). -/
def cDiv (a b : Cplx) : Cplx :=
  let den := fAdd (fMul b.re b.re) (fMul b.im b.im)
  ⟨fDiv (fAdd (fMul a.re b.re) (fMul a.im b.im)) den,
    fDiv (fSub (fMul a.im b.re) (fMul a.re b.im)) den⟩

/-- The phase of a quotient, its "argument" (R194). -/
def phase (q : Cplx) : F64 := fAtan2 q.im q.re

/-- `den = (2 ⊗ PI64) ⊗ d` (R195, R196). -/
def aoaDen (d : F64) : F64 := fMul (fMul (fOfInt 2) fPi) d

/-- The angle of one entry (R195, R196): phase times wavelength, divided by `den`, then ASIN. -/
def aoaAngle (cs : Chanspec) (d : F64) (i : Nat) (num right : Cplx) : F64 :=
  fAsin (fDiv (fMul (phase (cDiv num right)) (wavelength cs i)) (aoaDen d))

/-- A value as a command stores it: the payload of a NaN is drawn (93_implementation_defined.md
U24; log 8). -/
def storedF64 (s : State) (key : Nat) (v : F64) : F64 :=
  if fIsNaN v then fNaNOf (Config.draw s.draws key) else v

/-- The angles of one antenna, slot `num` over slot 0, as stored in the buffer whose window starts
at `window` (R195). -/
def aoaAngles (s : State) (cs : Chanspec) (num window : Nat) : List F64 :=
  (List.range cs.bw.nsub).map fun i =>
    storedF64 s (window + 8 * i)
      (aoaAngle cs (f64Operand s) i (snapEntry s num i) (snapEntry s 0 i))

/-- The slots AOA reads: right (core 0), center (core 3), left (core 1) at spatial stream 0
(R195). -/
def aoaSlots : List (Fin 16) := [0, 12, 4]

/-- A slot of the snapshot is populated (10_state.md R32). -/
def snapHas (s : State) (slot : Fin 16) : Bool := maskBit s.snap.mask slot.val

/-- A slot's length differs from the subcarrier count (R190). -/
def lengthDiffers (s : State) (n : Nat) (slot : Fin 16) : Bool :=
  decide (s.snap.len[slot].toNat ≠ n)

/-- The writes of a successful AOA (R195). -/
def aoaWrites (cs : Chanspec) (s : State) : State :=
  setResults [asU32 cs.bw.nsub]
    { s with
      aoa0 := Sparse.writeFrom s.aoa0 0 (aoaAngles s cs 12 0x4000)
      aoa1 := Sparse.writeFrom s.aoa1 0 (aoaAngles s cs 4 0x5000) }

/-- The pseudocode of AOA after the snapshot precondition (R195). -/
def aoaBody (cs : Chanspec) (s : State) : Ending × State :=
  if !aoaSlots.all (snapHas s) then (.absent, s)
  else if aoaSlots.any (lengthDiffers s cs.bw.nsub) then (.raise .lengthMismatch, s)
  else (.done, aoaWrites cs s)

/-- The snapshot precondition (R190), shared by AOA and TOF: NO_SNAPSHOT, then the decoded chanspec
of the snapshot. R190 says the decode cannot fail; where it does the model stops by name (log 9). -/
def withSnapshot (s : State) (body : Chanspec → State → Ending × State) :
    Host.Outcome State Fault Refusal :=
  if !s.status.snapValid then complete (.raise .noSnapshot, s)
  else
    match csDecode s.snap.chanspec with
    | .error _ => .fault .undecodableSnapshot
    | .ok cs => complete (body cs s)

/-- AOA (R195). -/
def execAoa (s : State) : Host.Outcome State Fault Refusal :=
  withSnapshot s aoaBody

/-! ### Time of flight -/

/-- `MAG2(z)` (R199). -/
def mag2 (z : Cplx) : F64 := fAdd (fMul z.re z.re) (fMul z.im z.im)

/-- The loop of PEAK (R202): `fuel` indices from `k` up, strictly greater magnitudes win. -/
def peakFrom (X : Nat → Cplx) : (fuel k best : Nat) → Nat
  | 0, _, best => best
  | fuel + 1, k, best =>
    peakFrom X fuel (k + 1) (if fGt (mag2 (X k)) (mag2 (X best)) then k else best)

/-- `PEAK(X, h)` (R202): the indices 1 to `h - 1` against 0. -/
def peak (X : Nat → Cplx) (h : Nat) : Nat := peakFrom X (h - 1) 1 0

/-- The slot of core `c` at spatial stream 0 (R200). -/
def coreSlot (c : Fin 4) : Fin 16 := ⟨4 * c.val, by omega⟩

/-- The sequence of core `c` in the snapshot. -/
def coreSequence (s : State) (n : Nat) (c : Fin 4) : List Cplx :=
  (List.range n).map fun j => snapEntry s (coreSlot c).val j

/-- The peak index of core `c`, 0 where it is not populated (R200). -/
def corePeak (s : State) (n : Nat) (c : Fin 4) : Nat :=
  if snapHas s (coreSlot c) then peak (idft n (coreSequence s n c)) (n / 2) else 0

/-- The valid-core mask (R200). -/
def coreMask (s : State) : Nat :=
  bitAt (snapHas s 0) 0 + bitAt (snapHas s 4) 1 + bitAt (snapHas s 8) 2 + bitAt (snapHas s 12) 3

/-- The results of TOF (R200). -/
def tofResults (cs : Chanspec) (s : State) : List Word :=
  [asU32 (coreMask s), asU32 (corePeak s cs.bw.nsub 0), asU32 (corePeak s cs.bw.nsub 1),
    asU32 (corePeak s cs.bw.nsub 2), asU32 (corePeak s cs.bw.nsub 3), asU32 cs.bw.mhz,
    asU32 cs.bw.nsub]

/-- A populated core's slot has another length than the snapshot's subcarrier count (R200). -/
def coreLengthDiffers (s : State) (n : Nat) (c : Fin 4) : Bool :=
  snapHas s (coreSlot c) && lengthDiffers s n (coreSlot c)

/-- The pseudocode of TOF after the snapshot precondition (R200). -/
def tofBody (cs : Chanspec) (s : State) : Ending × State :=
  if (List.finRange 4).any (coreLengthDiffers s cs.bw.nsub) then (.raise .lengthMismatch, s)
  else (.done, setResults (tofResults cs s) s)

/-- TOF (R200). -/
def execTof (s : State) : Host.Outcome State Fault Refusal :=
  withSnapshot s tofBody

end Sys2Proof.Machine
end

