-- ==== Sys2Proof/Machine/Unpack.lean ====
section
/-! DEFINITION. The complex unpacker family: UNPACK_COMPLEX, UNPACK_CSI (spec 41_unpack.md). -/

namespace Sys2Proof.Machine

/-- The exponent `e` of a packed sample (41_unpack.md R131, R132): bits 5:0, two's complement. -/
def packedExp (raw : Word) : Int := (raw.extractLsb' 0 6).toInt

/-- A signed mantissa (R133): magnitude and sign bit; a sign over zero gives the integer 0. -/
def signedMant (neg : Bool) (mag : BitVec 12) : Int :=
  if neg then -(mag.toNat : Int) else mag.toNat

/-- The real mantissa `mr` (R131, R133): sign bit 31, magnitude bits 30:19. -/
def packedRe (raw : Word) : Int := signedMant (raw.getLsbD 31) (raw.extractLsb' 19 12)

/-- The imaginary mantissa `mi` (R131, R133): sign bit 18, magnitude bits 17:6. -/
def packedIm (raw : Word) : Int := signedMant (raw.getLsbD 18) (raw.extractLsb' 6 12)

/-- `unpack_complex` (R134): the multiply form. -/
def unpackComplex (raw : Word) : Cplx :=
  ⟨fOfScaled (packedRe raw) (packedExp raw), fOfScaled (packedIm raw) (packedExp raw)⟩

/-- The results of UNPACK_COMPLEX (R135). -/
def unpackResults (raw : Word) : List Word :=
  f64Words (unpackComplex raw).re ++ f64Words (unpackComplex raw).im ++
    [asI32 (packedExp raw), asI32 (packedRe raw), asI32 (packedIm raw)]

/-- The pseudocode of UNPACK_COMPLEX (R135): no operand is refused. -/
def unpackComplexBody (s : State) : Ending × State :=
  (.done, setResults (unpackResults s.arg[0]) s)

/-- UNPACK_COMPLEX (R135). -/
def execUnpackComplex (s : State) : Host.Outcome State Fault Refusal :=
  complete (unpackComplexBody s)

/-- `rotate_right(s, k)` for `k ≤` the length (00_scope.md R12). -/
def rotateRight {α : Type} (l : List α) (k : Nat) : List α :=
  l.drop (l.length - k) ++ l.take (l.length - k)

/-- The samples of a payload in wire order, from IN_BUF byte `at0` (41_unpack.md R136). -/
def wireSamples (s : State) (n at0 : Nat) : List Cplx :=
  (List.range n).map fun i => unpackComplex (BitVec.ofNat 32 (memRead s (at0 + 4 * i) 4))

/-- `unpack_csi` (R136, R137): the payload in wire order, rotated by half its length. -/
def unpackCsi (s : State) (bw : Bw) (at0 : Nat) : List Cplx :=
  rotateRight (wireSamples s bw.nsub at0) (bw.nsub / 2)

/-- The writes of a successful UNPACK_CSI (R138). -/
def unpackCsiWrites (bw : Bw) (s : State) : State :=
  setResults [asU32 bw.nsub]
    (setFrameValid false
      { s with coefBuf := Sparse.writeFrom s.coefBuf 0 (unpackCsi s bw 0) })

/-- The pseudocode of UNPACK_CSI (R138). -/
def unpackCsiBody (s : State) : Ending × State :=
  if rsvSet s.arg[0] 2 || inLenTooLong s then (.raise .badOperand, s)
  else if inLength s < 4 * (bwOperand s.arg[0]).nsub then (.raise .notEnoughBytes, s)
  else (.done, unpackCsiWrites (bwOperand s.arg[0]) s)

/-- UNPACK_CSI (R138). -/
def execUnpackCsi (s : State) : Host.Outcome State Fault Refusal :=
  complete (unpackCsiBody s)

end Sys2Proof.Machine
end

