-- ==== Sys2Proof/Machine/Frame.lean ====
section
/-! DEFINITION. The frame decoder family: DECODE_FRAME (spec 42_frame.md). -/

namespace Sys2Proof.Machine

/-- Bytes 6 to 11 are MAGIC_STRING (42_frame.md R153). -/
def magicStringOk (s : State) : Bool :=
  decide (∀ i : Fin 6, inByte s (6 + i.val) = Config.magicString i)

/-- Bytes 42 and 43 are MAGIC_BYTES, in buffer order (R154). -/
def magicBytesOk (s : State) : Bool :=
  decide (∀ i : Fin 2, inByte s (42 + i.val) = Config.magicBytes i)

/-- The config value and whether the big-endian fallback was taken (R156). -/
def frameConfig (s : State) : Nat × Bool :=
  if 63 < memRead s 54 2 then (memReadBE s 54 2, true) else (memRead s 54 2, false)

/-- The raw chanspec of the frame (R157). -/
def frameChanspec (s : State) : Half := BitVec.ofNat 16 (memRead s 56 2)

/-- The chip id of the frame (R158). -/
def frameChip (s : State) : Half := BitVec.ofNat 16 (memRead s 58 2)

/-- The fields of the frame in IN_BUF whose chanspec has the bandwidth `bw`
(R155, R156, R160; 10_state.md R28). -/
def frameFields (s : State) (bw : Bw) : FrameRegs :=
  let cfg := BitVec.ofNat 16 (frameConfig s).1
  { rssi := (inByte s 44).signExtend 32
    fc := inByte s 45
    macLo := BitVec.ofNat 32 (memRead s 46 4)
    macHi := BitVec.ofNat 16 (memRead s 50 2)
    seq := BitVec.ofNat 16 (memRead s 52 2)
    config := cfg
    cfgBe := (frameConfig s).2
    core := cfg.extractLsb' 0 3
    spatial := cfg.extractLsb' 3 3
    chanspec := frameChanspec s
    chip := frameChip s
    nsub := BitVec.ofNat 10 bw.nsub }

/-- The checks of DECODE_FRAME after BAD_OPERAND, in the order of R161, with the bandwidth of a
frame that passes them. -/
def frameCheck (s : State) : Except ErrCode Bw :=
  if inLength s < Config.hdrLen then .error .notEnoughBytes
  else if !magicStringOk s then .error .notANexmonPacket
  else if !magicBytesOk s then .error .missingMagicBytes
  else
    match csDecode (frameChanspec s) with
    | .error e => .error e
    | .ok cs =>
      if frameChip s ≠ Config.chipId then .error .unknownChip
      else if inLength s - Config.hdrLen < 4 * cs.bw.nsub then .error .notEnoughBytes
      else .ok cs.bw

/-- The writes of a successful DECODE_FRAME (R160). -/
def frameWrites (bw : Bw) (s : State) : State :=
  setResults [asU32 bw.nsub]
    (setFrameValid true
      { s with
        frm := frameFields s bw
        coefBuf := Sparse.writeFrom s.coefBuf 0 (unpackCsi s bw Config.hdrLen) })

/-- The pseudocode of DECODE_FRAME (R151). Every error but BAD_OPERAND clears FRAME_VALID. -/
def decodeFrameBody (s : State) : Ending × State :=
  if inLenTooLong s then (.raise .badOperand, s)
  else
    match frameCheck s with
    | .error e => (.raise e, setFrameValid false s)
    | .ok bw => (.done, frameWrites bw s)

/-- DECODE_FRAME (R151). -/
def execDecodeFrame (s : State) : Host.Outcome State Fault Refusal :=
  complete (decodeFrameBody s)

end Sys2Proof.Machine
end

