-- ==== Sys2Proof/Machine/Dispatch.lean ====
section
/-! DEFINITION. One arm for each command of spec/opcode_table.json. -/

namespace Sys2Proof.Machine

/-- The effect of a running command at its completion (45_control.md R221, R222). -/
def exec (i : Instr) (s : State) : Host.Outcome State Fault Refusal :=
  match i with
  | .nop => Sys2Proof.Machine.execNop s
  | .chanspecDecode => Sys2Proof.Machine.execChanspecDecode s
  | .chanspecEncode => Sys2Proof.Machine.execChanspecEncode s
  | .defaultDelay => Sys2Proof.Machine.execDefaultDelay s
  | .subcarrierClass => Sys2Proof.Machine.execSubcarrierClass s
  | .unpackComplex => Sys2Proof.Machine.execUnpackComplex s
  | .unpackCsi => Sys2Proof.Machine.execUnpackCsi s
  | .decodeFrame => Sys2Proof.Machine.execDecodeFrame s
  | .groupAdd => Sys2Proof.Machine.execGroupAdd s
  | .groupTake => Sys2Proof.Machine.execGroupTake s
  | .aoa => Sys2Proof.Machine.execAoa s
  | .tof => Sys2Proof.Machine.execTof s

end Sys2Proof.Machine
end

