-- ==== Sys2Proof/Machine/Step.lean ====
section
/-! DEFINITION. One step of the machine (spec 10_state.md R35; 45_control.md R220 to R222;
logs 3, 4, 5). -/

namespace Sys2Proof.Machine

/-- The latched command completes: the decoded command's effect, or ILLEGAL_COMMAND
(30_encoding.md R84). -/
def runLatched (w : Word) (s : State) : Host.Outcome State Fault Refusal :=
  match decode w with
  | .ok i => exec i s
  | .error _ => execIllegal s

/-- One step: a running command with no bus cycle left completes; otherwise one bus cycle passes,
in which the host's oldest operation is served. -/
def step (s : State) : Host.Outcome State Fault Refusal :=
  match s.seqr with
  | .idle => hostCycle s
  | .busy w 0 => runLatched w s
  | .busy w (left + 1) => hostCycle { s with seqr := .busy w left }

/-- `s` with the command word `w` latched and started, no bus cycle left, so that the next step runs
it (log 4). -/
def State.withFetchWord (s : State) (nbits w : Nat) : State :=
  { startCommand (BitVec.ofNat 32 (w % 2 ^ nbits)) s with
    seqr := .busy (BitVec.ofNat 32 (w % 2 ^ nbits)) 0 }

end Sys2Proof.Machine
end

