-- ==== Sys2Proof/Machine/Script.lean ====
section
/-! DEFINITION. Host scripts: the register names and the pseudo-instructions with their expansions
(spec 10_state.md R21; 30_encoding.md R90, R91). A script is a list of host operations. -/

namespace Sys2Proof.Machine

/-- Offsets of the registers that scripts name (10_state.md R21). -/
def regCtrl : Nat := 0x000
def regStatus : Nat := 0x004
def regCmd : Nat := 0x008
def regInLen : Nat := 0x00C
def regArg (k : Nat) : Nat := 0x010 + 4 * k
def regRes (k : Nat) : Nat := 0x020 + 4 * k
def regSnapLen (k : Nat) : Nat := 0x0C0 + 4 * k

/-- Place a script before a state's pending operations: how a program comes to run (log 3). -/
def withScript (ops : List HostOp) (s : State) : State := { s with script := ops ++ s.script }

/-- Writes of the given operands to ARG `k` and up. -/
def argWrites : (k : Nat) → List Word → List HostOp
  | _, [] => []
  | k, v :: vs => .write (regArg k) .w32 v :: argWrites (k + 1) vs

/-- `cmd OP a0, a1, a2, a3` (R91), with the operands given. -/
def cmdScript (i : Instr) (args : List Word) : List HostOp :=
  argWrites 0 args ++ [.write regCmd .w32 (encode i), .wait]

/-- `cmd64 OP d` (R91). -/
def cmd64Script (i : Instr) (d : F64) : List HostOp := cmdScript i (f64Words d)

/-- `wrbytes off, b0 b1 ... bk` (R91). -/
def wrbytesScript : (off : Nat) → List Byte → List HostOp
  | _, [] => []
  | off, b :: bs => .write off .w8 (b.setWidth 32) :: wrbytesScript (off + 1) bs

/-- `fill32 off, count, v` (R91). -/
def fill32Script (off count : Nat) (v : Word) : List HostOp :=
  (List.range count).map fun i => .write (off + 4 * i) .w32 v

/-- `rd64 off -> name` (R91): the halves are named after `name`. -/
def rd64Script (off : Nat) (name : String) : List HostOp :=
  [.read off .w32 (name ++ ".lo"), .read (off + 4) .w32 (name ++ ".hi")]

/-- `clrdone` (R91). -/
def clrdoneScript : List HostOp := [.write regStatus .w32 0x2]

/-- The value last read under a name. -/
def namedValue (s : State) (name : String) : Option Word := s.log.lookup name

/-- The binary64 number a `rd64` named (R91): `hi ‖ lo`. -/
def namedF64 (s : State) (name : String) : Option F64 :=
  match namedValue s (name ++ ".hi"), namedValue s (name ++ ".lo") with
  | some hi, some lo => some (hi ++ lo)
  | _, _ => none

/-- `expect name == v` (R90): the claim a script makes of a read, no transaction. -/
def expectHolds (s : State) (name : String) (v : Word) : Bool :=
  decide (namedValue s name = some v)

end Sys2Proof.Machine
end

