-- ==== Sys2Proof/Safety.lean ====
section
/-! DEFINITION. What a sound state of the block is, which states a run reaches, what a safe host
script is, the frames of the commands, and what it is for a binary64 number to be a rounded real or
within an ulp of one (spec 00_scope.md R13; 10_state.md R23, R29 to R35; 43_grouper.md R171;
44_estimator.md R190, R193; 70_reset_and_hazards.md R250). -/

namespace Sys2Proof.Machine

/-- A chanspec that decodes with subcarrier count `n`. -/
def decodesWith (v : Half) (n : Nat) : Prop := ∃ cs, csDecode v = .ok cs ∧ cs.bw.nsub = n

/-- A slot length that some bandwidth has (40_chanspec.md R103). -/
def isSlotLength (n : BitVec 10) : Prop := ∃ bw : Bw, n.toNat = bw.nsub

/-- A grid as the grouper builds it: its chanspec decodes, some slot is populated, a populated slot
has a subcarrier count for its length and an unpopulated one length 0, and every entry below a
length is stored (10_state.md R31, R32; 43_grouper.md R171, R173). -/
structure GridSound (g : WifiCsi) : Prop where
  decodes : ∃ n, decodesWith g.chanspec n
  populated : g.mask ≠ 0
  lengths : ∀ t : Fin 16, maskBit g.mask t.val = true → isSlotLength g.len[t]
  empties : ∀ t : Fin 16, maskBit g.mask t.val = false → g.len[t] = 0
  stored : ∀ (t : Fin 16) (j : Nat), j < g.len[t].toNat →
    (Sparse.read? g.grid (gridKey t.val j)).isSome = true

/-- The storage of the block is in its canonical form. -/
structure StorageSound (s : State) : Prop where
  inBuf : Memory.wf s.inBuf
  coefBuf : Sparse.wf Config.nsubMax s.coefBuf
  grpGrid : Sparse.wf (Config.nslot * Config.nsubMax) s.grp.grid
  snapGrid : Sparse.wf (Config.nslot * Config.nsubMax) s.snap.grid
  aoa0 : Sparse.wf Config.nsubMax s.aoa0
  aoa1 : Sparse.wf Config.nsubMax s.aoa1

/-- The status bits that a command start and a completion write (45_control.md R220, R222, R225;
10_state.md R23, R35). -/
structure StatusSound (s : State) : Prop where
  /-- DONE, ABSENT, EMITTED and ERR are 0 throughout a command. -/
  running : isBusy s = true →
    s.status.done = false ∧ s.status.absent = false ∧ s.status.emitted = false ∧
      s.status.err = .ok
  /-- The remaining bus cycles are at most CMD_LATENCY. -/
  bounded : ∀ w left, s.seqr = .busy w left → left ≤ Config.cmdLatency
  /-- "ABSENT and ERR ≠ 0 are never both set by one completion". -/
  exclusive : s.status.absent = true → s.status.err = .ok
  /-- EMITTED only with `done`. -/
  emission : s.status.emitted = true →
    s.status.absent = false ∧ s.status.err = .ok ∧ s.status.snapValid = true

/-- FRAME_VALID means that FRM_* and COEF_BUF hold a frame DECODE_FRAME accepted
(10_state.md R29; 42_frame.md R156 to R158). -/
structure FrameSound (s : State) : Prop where
  decodes : decodesWith s.frm.chanspec s.frm.nsub.toNat
  chip : s.frm.chip = Config.chipId
  core : s.frm.core = s.frm.config.extractLsb' 0 3
  spatial : s.frm.spatial = s.frm.config.extractLsb' 3 3
  stored : ∀ j, j < s.frm.nsub.toNat → (Sparse.read? s.coefBuf j).isSome = true

/-- The invariant of the machine. -/
structure Inv (s : State) : Prop where
  storage : StorageSound s
  status : StatusSound s
  frame : s.status.frameValid = true → FrameSound s
  group : s.status.groupActive = true → GridSound s.grp
  snapshot : s.status.snapValid = true → GridSound s.snap

/-- The states of a run: reset with any host script, and every state a step leads to. -/
inductive Reachable : State → Prop where
  | start (ops : List HostOp) : Reachable { State.reset with script := ops }
  | next {s t : State} : Reachable s → step s = .next t → Reachable t

/-- `k` steps, stopping at the first fault or refusal. -/
def runSteps : (k : Nat) → State → Host.Outcome State Fault Refusal
  | 0, s => .next s
  | k + 1, s =>
    match step s with
    | .next t => runSteps k t
    | .fault f => .fault f
    | .refused r => .refused r

/-- A host script whose accesses the block answers (20_memory.md R61, R62). -/
def scriptWellFormed (s : State) : Prop := ∀ op ∈ s.script, op.wellFormed = true

/-! ### Frames: what a command leaves alone -/

/-- What only the host writes (10_state.md R22, R25, R26, R34), and the host's own two lists. -/
structure KeepsInputs (s t : State) : Prop where
  irqEn : t.irqEn = s.irqEn
  inLen : t.inLen = s.inLen
  arg : t.arg = s.arg
  inBuf : t.inBuf = s.inBuf
  script : t.script = s.script
  log : t.log = s.log

/-- The decoded frame (10_state.md R28 to R30). -/
structure KeepsFrame (s t : State) : Prop where
  frm : t.frm = s.frm
  coefBuf : t.coefBuf = s.coefBuf
  valid : t.status.frameValid = s.status.frameValid

/-- The grouper (R31). -/
structure KeepsGroup (s t : State) : Prop where
  grp : t.grp = s.grp
  active : t.status.groupActive = s.status.groupActive

/-- The snapshot (R32). -/
structure KeepsSnapshot (s t : State) : Prop where
  snap : t.snap = s.snap
  valid : t.status.snapValid = s.status.snapValid

/-- The angle buffer (R33). -/
structure KeepsAngles (s t : State) : Prop where
  aoa0 : t.aoa0 = s.aoa0
  aoa1 : t.aoa1 = s.aoa1

/-- The result registers from RES `n` up (R27). -/
def KeepsResultsFrom (n : Nat) (s t : State) : Prop :=
  ∀ k : Fin 8, n ≤ k.val → t.res[k] = s.res[k]

/-- The status after a completion (45_control.md R222): OVERRUN is no command's. -/
structure CompletedWith (err : ErrCode) (absent emitted : Bool) (s t : State) : Prop where
  idle : t.seqr = .idle
  done : t.status.done = true
  err : t.status.err = err
  absent : t.status.absent = absent
  emitted : t.status.emitted = emitted
  overrun : t.status.overrun = s.status.overrun

/-- A completion that writes nothing but STATUS (45_control.md R222). -/
structure OnlyCompletes (err : ErrCode) (absent : Bool) (s t : State) : Prop where
  status : CompletedWith err absent false s t
  inputs : KeepsInputs s t
  results : KeepsResultsFrom 0 s t
  frame : KeepsFrame s t
  group : KeepsGroup s t
  snapshot : KeepsSnapshot s t
  angles : KeepsAngles s t

/-- A completion with `done` that writes RES0 to RES `n - 1` only (R27; 30_encoding.md R89). -/
structure WritesResults (n : Nat) (s t : State) : Prop where
  status : CompletedWith .ok false false s t
  inputs : KeepsInputs s t
  results : KeepsResultsFrom n s t
  frame : KeepsFrame s t
  group : KeepsGroup s t
  snapshot : KeepsSnapshot s t
  angles : KeepsAngles s t

/-- The snapshot of `t` is the group of `s` (43_grouper.md R172): its registers, the length and
entries of each populated slot, length 0 and nothing stored for the others. -/
structure SnapshotIsGroup (s t : State) : Prop where
  valid : t.status.snapValid = true
  seq : t.snap.seq = s.grp.seq
  mask : t.snap.mask = s.grp.mask
  chanspec : t.snap.chanspec = s.grp.chanspec
  rssi : t.snap.rssi = s.grp.rssi
  len : ∀ k : Fin 16, t.snap.len[k] = if s.grp.mask.getLsbD k.val then s.grp.len[k] else 0
  entries : ∀ (k : Fin 16) (j : Nat), s.grp.mask.getLsbD k.val = true → j < s.grp.len[k].toNat →
    Sparse.read? t.snap.grid (512 * k.val + j) = some (grpEntry s k.val j)
  others : ∀ (k : Fin 16) (j : Nat), j < 512 →
    (s.grp.mask.getLsbD k.val = true → s.grp.len[k].toNat ≤ j) →
    Sparse.read? t.snap.grid (512 * k.val + j) = none

/-- The group of `t` is a fresh one that the frame of `s` started, with that frame in its slot and
nothing else (43_grouper.md R173). -/
structure GroupStartedByFrame (s t : State) : Prop where
  active : t.status.groupActive = true
  seq : t.grp.seq = s.frm.seq
  chanspec : t.grp.chanspec = s.frm.chanspec
  rssi : t.grp.rssi = s.frm.rssi
  mask : t.grp.mask = BitVec.ofNat 16 (2 ^ (4 * s.frm.core.toNat + s.frm.spatial.toNat))
  len : ∀ k : Fin 16, t.grp.len[k] =
    if k.val = 4 * s.frm.core.toNat + s.frm.spatial.toNat then s.frm.nsub else 0

/-- The frame of `s` stands in its slot of the grid of `t`, and every other entry is kept
(43_grouper.md R173). -/
structure SlotHoldsFrame (s t : State) : Prop where
  entries : ∀ j, j < s.frm.nsub.toNat →
    Sparse.read? t.grp.grid (512 * (4 * s.frm.core.toNat + s.frm.spatial.toNat) + j) =
      some (coefEntry s j)
  others : ∀ a,
    (a < 512 * (4 * s.frm.core.toNat + s.frm.spatial.toNat) ∨
      512 * (4 * s.frm.core.toNat + s.frm.spatial.toNat) + s.frm.nsub.toNat ≤ a) →
    Sparse.read? t.grp.grid a = Sparse.read? s.grp.grid a

/-! ### Nearest numbers -/

/-- No finite number lies nearer to `x` than `v`, and where another one lies equally near `v` has the
even significand (00_scope.md R13). -/
def NearestEven (x : ℝ) (v : F64) : Prop :=
  ∀ c : F64, fIsFinite c = true →
    |(fValue v : ℝ) - x| ≤ |(fValue c : ℝ) - x| ∧
      (|(fValue v : ℝ) - x| = |(fValue c : ℝ) - x| → fValue c ≠ fValue v → fFrac v % 2 = 0)

/-- `v` is `x` rounded to binary64 (R13): nearest with ties to even, an infinity from half a unit
above the greatest finite number up, and of the sign of `x`. -/
structure RoundedTo (x : ℝ) (v : F64) : Prop where
  finite : |x| < 2 ^ 1024 - 2 ^ 970 → fIsFinite v = true ∧ NearestEven x v
  overflow : 2 ^ 1024 - 2 ^ 970 ≤ |x| → fIsInf v = true
  negative : x < 0 → fNeg v = true
  positive : 0 < x → fNeg v = false

/-- `v` is within 1 ulp of `θ` (44_estimator.md R193), up to `2 ^ -1250`, the resolution of the
model's own choice (log 6): an ulp is the distance of the binary64 numbers around `θ`, `2 ^ (k - 52)`
for the power `2 ^ k` next below `|θ|`, and `2 ^ -1074` at the least. -/
def WithinUlp (θ : ℝ) (v : F64) : Prop :=
  fIsFinite v = true ∧ ∃ k : Int, (2 : ℝ) ^ k ≤ |θ| + 2 ^ (-1250 : Int) ∧
    |(fValue v : ℝ) - θ| ≤ max (2 ^ (k - 52)) (2 ^ (-1074 : Int)) + 2 ^ (-1250 : Int)

/-- The same number, the payload of a NaN apart (93_implementation_defined.md U24). -/
def SameNumber (a b : F64) : Prop := a = b ∨ (fIsNaN a = true ∧ fIsNaN b = true)

end Sys2Proof.Machine
end

