-- ==== Sys2Proof/Certificates/Slice0/Obligations.lean ====
section
/-! DEFINITION. The statements for the provers, from the numbered rules of spec/. -/

open Sys2Proof Sys2Proof.Machine

/-! ### Words shared by the statements -/

namespace Sys2Proof.Machine

/-- The four bandwidths: chanspec field (40_chanspec.md R101), operand code (30_encoding.md R82),
MHz, subcarriers (R103). -/
def bandwidthRows : List (Nat × Nat × Nat × Nat) :=
  [(0x1000, 0, 20, 64), (0x1800, 1, 40, 128), (0x2000, 2, 80, 256), (0x2800, 3, 160, 512)]

/-- The code of each error (30_encoding.md R88). -/
def errorCodes : List (ErrCode × BitVec 8) :=
  [(.ok, 0x00), (.notEnoughBytes, 0x01), (.notANexmonPacket, 0x02), (.missingMagicBytes, 0x03),
    (.unknownChip, 0x04), (.invalidBandwidth, 0x05), (.invalidBand, 0x06), (.illegalCommand, 0x80),
    (.badOperand, 0x81), (.noFrame, 0x82), (.slotRange, 0x83), (.noSnapshot, 0x84),
    (.lengthMismatch, 0x85)]

/-- An operand that R86 refuses: a field of R81 marked rsv that is not zero, or an input longer than
IN_BUF. -/
def operandRefused (i : Instr) (s : State) : Prop :=
  match i with
  | .nop => False
  | .chanspecDecode => 2 ^ 16 ≤ s.arg[0].toNat
  | .chanspecEncode => 2 ^ 8 ≤ s.arg[0].toNat ∨ 2 ≤ s.arg[1].toNat ∨ 4 ≤ s.arg[2].toNat
  | .defaultDelay => 16 ≤ s.arg[0].toNat ∨ 16 ≤ s.arg[1].toNat
  | .subcarrierClass => 4 ≤ s.arg[0].toNat
  | .unpackComplex => False
  | .unpackCsi => 4 ≤ s.arg[0].toNat ∨ 4096 < s.inLen.toNat
  | .decodeFrame => 4096 < s.inLen.toNat
  | .groupAdd => False
  | .groupTake => False
  | .aoa => False
  | .tof => False

/-- The offset of channel `ch` over the lowest channel of candidate `c` (40_chanspec.md R108). -/
def candidateOffset (ch mhz c : Nat) : Int := (ch : Int) - ((c : Int) - ((mhz : Int) - 20) / 10)

/-- The candidate takes the channel (R108): a non-negative multiple of 4 inside the bandwidth. -/
def candidateFits (ch mhz c : Nat) : Prop :=
  0 ≤ candidateOffset ch mhz c ∧ candidateOffset ch mhz c % 4 = 0 ∧
    candidateOffset ch mhz c / 4 < (mhz : Int) / 20

/-- The default candidate tables (R109), by MHz. -/
def candidateTable (mhz : Nat) : List Nat :=
  if mhz = 40 then [38, 46, 54, 62, 102, 110, 118, 126, 134, 142, 151, 159]
  else if mhz = 80 then [42, 58, 106, 122, 138, 155]
  else if mhz = 160 then [50, 114]
  else []

/-- The frame in IN_BUF passes the checks of R152 to R154: long enough for a header, both magics. -/
def headerAccepted (s : State) : Prop :=
  60 ≤ s.inLen.toNat ∧ (∀ i : Fin 6, inByte s (6 + i.val) = Config.magicString i) ∧
    (∀ i : Fin 2, inByte s (42 + i.val) = Config.magicBytes i)

/-- The little-endian 16-bit value at byte `a` of the frame (20_memory.md R67). -/
def frameWord16 (s : State) (a : Nat) : Nat := (inByte s a).toNat + 256 * (inByte s (a + 1)).toNat

/-- A failed DECODE_FRAME (42_frame.md R160): FRAME_VALID is cleared, nothing else is written. -/
structure FrameRefused (e : ErrCode) (s t : State) : Prop where
  status : CompletedWith e false false s t
  cleared : t.status.frameValid = false
  inputs : KeepsInputs s t
  results : KeepsResultsFrom 0 s t
  frm : t.frm = s.frm
  coefBuf : t.coefBuf = s.coefBuf
  group : KeepsGroup s t
  snapshot : KeepsSnapshot s t
  angles : KeepsAngles s t

/-- The slot of the decoded frame is in the 4 × 4 grid (43_grouper.md R173). -/
def frameHasSlot (s : State) : Prop := s.frm.core.toNat < 4 ∧ s.frm.spatial.toNat < 4

/-- A slot's length is at most the 512 entries it has (10_state.md R31). -/
def lengthsInRange (s : State) : Prop :=
  s.frm.nsub.toNat ≤ 512 ∧ ∀ k : Fin 16, s.grp.len[k].toNat ≤ 512

/-- The frequency grid of 44_estimator.md R191 for a center channel, a bandwidth in MHz and `n`
points. -/
def gridFrequency (center mhz n i : Nat) : F64 :=
  let fc : Int := (5000 + 5 * (center : Int)) * 10 ^ 6
  let bw : Int := (mhz : Int) * 10 ^ 6
  let first := fOfInt (fc - bw / 2)
  let last := fOfInt (fc + bw / 2)
  if i = n - 1 then last
  else fAdd first (fMul (fOfInt i) (fDiv (fSub last first) (fOfInt ((n : Int) - 1))))

/-- The angle of 44_estimator.md R195 and R196, operation by operation. -/
def expectedAngle (d : F64) (freqHz : F64) (num right : Cplx) : F64 :=
  let bb := fAdd (fMul right.re right.re) (fMul right.im right.im)
  let qre := fDiv (fAdd (fMul num.re right.re) (fMul num.im right.im)) bb
  let qim := fDiv (fSub (fMul num.im right.re) (fMul num.re right.im)) bb
  let lam := fDiv (fOfInt 299792458) freqHz
  fAsin (fDiv (fMul (fAtan2 qim qre) lam) (fMul (fMul (fOfInt 2) 0x400921FB54442D18) d))

/-- A snapshot that AOA accepts (R190, R195): valid, decodable, the three slots populated with the
chanspec's length. -/
structure AoaReady (s : State) (cs : Chanspec) : Prop where
  valid : s.status.snapValid = true
  decodes : csDecode s.snap.chanspec = .ok cs
  right : s.snap.mask.getLsbD 0 = true
  left : s.snap.mask.getLsbD 4 = true
  center : s.snap.mask.getLsbD 12 = true
  lenRight : s.snap.len[0].toNat = cs.bw.nsub
  lenLeft : s.snap.len[4].toNat = cs.bw.nsub
  lenCenter : s.snap.len[12].toNat = cs.bw.nsub

/-- A snapshot that TOF accepts (R190, R200): valid, decodable, the populated slots of spatial
stream 0 with the chanspec's length. -/
structure TofReady (s : State) (cs : Chanspec) : Prop where
  valid : s.status.snapValid = true
  decodes : csDecode s.snap.chanspec = .ok cs
  lengths : ∀ c : Fin 4, s.snap.mask.getLsbD (4 * c.val) = true →
    s.snap.len[4 * c.val].toNat = cs.bw.nsub

/-- R13 on finite operands: the exact result rounded, and the sign of a zero result. -/
structure FiniteArithmetic (a b : F64) : Prop where
  add : RoundedTo ((fValue a : ℝ) + fValue b) (fAdd a b)
  sub : RoundedTo ((fValue a : ℝ) - fValue b) (fSub a b)
  mul : RoundedTo ((fValue a : ℝ) * fValue b) (fMul a b)
  div : fIsZero b = false → RoundedTo ((fValue a : ℝ) / fValue b) (fDiv a b)
  sqrt : (fIsZero a = true ∨ fNeg a = false) → RoundedTo (Real.sqrt (fValue a)) (fSqrt a)
  addZero : fValue a + fValue b = 0 →
    fAdd a b = if fNeg a && fNeg b then 0x8000000000000000 else 0
  subZero : fValue a - fValue b = 0 →
    fSub a b = if fNeg a && !fNeg b then 0x8000000000000000 else 0
  mulSign : fNeg (fMul a b) = (fNeg a != fNeg b)
  divSign : fIsZero b = false → fNeg (fDiv a b) = (fNeg a != fNeg b)
  sqrtZero : fIsZero a = true → fSqrt a = a

/-- R13 on a NaN, an infinity, a zero divisor and a negative radicand. -/
structure SpecialArithmetic (a b : F64) : Prop where
  nan : (fIsNaN a = true ∨ fIsNaN b = true) → fIsNaN (fAdd a b) = true ∧
    fIsNaN (fSub a b) = true ∧ fIsNaN (fMul a b) = true ∧ fIsNaN (fDiv a b) = true
  sqrtNan : (fIsNaN a = true ∨ fNeg a = true ∧ fIsZero a = false) → fIsNaN (fSqrt a) = true
  addInf : fIsInf a = true → (fIsFinite b = true ∨ fIsInf b = true ∧ fNeg b = fNeg a) →
    fAdd a b = a ∧ fAdd b a = a
  addOpposite : fIsInf a = true → fIsInf b = true → fNeg b ≠ fNeg a → fIsNaN (fAdd a b) = true
  subInf : fIsInf a = true → (fIsFinite b = true ∨ fIsInf b = true ∧ fNeg b ≠ fNeg a) →
    fSub a b = a ∧ fIsInf (fSub b a) = true ∧ fNeg (fSub b a) = !fNeg a
  subSame : fIsInf a = true → fIsInf b = true → fNeg b = fNeg a → fIsNaN (fSub a b) = true
  mulInf : fIsInf a = true → fIsNaN b = false → fIsZero b = false →
    (fIsInf (fMul a b) = true ∧ fNeg (fMul a b) = (fNeg a != fNeg b)) ∧
      fIsInf (fMul b a) = true ∧ fNeg (fMul b a) = (fNeg a != fNeg b)
  mulInfZero : fIsInf a = true → fIsZero b = true →
    fIsNaN (fMul a b) = true ∧ fIsNaN (fMul b a) = true
  divInf : fIsInf a = true → fIsFinite b = true →
    fIsInf (fDiv a b) = true ∧ fNeg (fDiv a b) = (fNeg a != fNeg b)
  divByInf : fIsFinite a = true → fIsInf b = true →
    fIsZero (fDiv a b) = true ∧ fNeg (fDiv a b) = (fNeg a != fNeg b)
  divByZero : fIsFinite a = true → fIsZero a = false → fIsZero b = true →
    fIsInf (fDiv a b) = true ∧ fNeg (fDiv a b) = (fNeg a != fNeg b)
  divNan : (fIsInf a = true ∧ fIsInf b = true ∨ fIsZero a = true ∧ fIsZero b = true) →
    fIsNaN (fDiv a b) = true
  sqrtInf : fIsInf a = true → fNeg a = false → fSqrt a = a

end Sys2Proof.Machine

/-! ### Encoding and steps -/

/-- R84: a word decodes to a command exactly when it is that command's word; so every other word is
refused. -/
def Obligations.WordDecodesExactlyToItsCommand : Prop :=
  ∀ (w : Word) (i : Instr), decode w = .ok i ↔ w = encode i

/-- R83, R84: command words written out from the opcode map, and two words that are none. -/
def Obligations.KnownCommandWordsDecode : Prop :=
  decode 0x00000000 = .ok .nop ∧ decode 0x00000001 = .ok .chanspecDecode ∧
    decode 0x00000002 = .ok .chanspecEncode ∧ decode 0x00000003 = .ok .defaultDelay ∧
    decode 0x00000004 = .ok .subcarrierClass ∧ decode 0x00000010 = .ok .unpackComplex ∧
    decode 0x00000011 = .ok .unpackCsi ∧ decode 0x00000020 = .ok .decodeFrame ∧
    decode 0x00000030 = .ok .groupAdd ∧ decode 0x00000031 = .ok .groupTake ∧
    decode 0x00000040 = .ok .aoa ∧ decode 0x00000041 = .ok .tof ∧
    decode 0x00000105 = .error .reservedBits ∧ decode 0x00000005 = .error .unknownOpcode

/-- The step of a running command whose bus cycles have passed is exec of the decoded command; the
host's fetch word is run by the very next step. -/
def Obligations.StepRunsTheLatchedCommand : Prop :=
  (∀ (s : State) (w : Word) (i : Instr), s.seqr = .busy w 0 → decode w = .ok i →
      step s = exec i s) ∧
    ∀ (s : State) (nbits w : Nat) (i : Instr), decodeTableWord nbits w = some i →
      step (s.withFetchWord nbits w) = exec i (s.withFetchWord nbits w)

/-- R224: a word that is no command starts like any command, and completes with ILLEGAL_COMMAND
(0x80), changing nothing else. -/
def Obligations.IllegalWordCompletesWithItsError : Prop :=
  errCode .illegalCommand = 0x80 ∧
    ∀ (s : State) (w : Word), (∀ i, w ≠ encode i) →
      (∀ rest, s.seqr = .idle → s.script = .write 0x008 .w32 w :: rest →
        ∃ t left, step s = .next t ∧ t.seqr = .busy w left ∧ t.status.done = false ∧
          t.status.err = .ok) ∧
      (s.seqr = .busy w 0 →
        ∃ t, step s = .next t ∧ OnlyCompletes .illegalCommand false s t)

/-- R220: a CMD write while BUSY = 0 latches the word, sets BUSY, clears DONE, ABSENT, EMITTED and
ERR, and keeps every other piece of state. -/
def Obligations.CmdWriteStartsACommand : Prop :=
  ∀ (s : State) (w : Word) (rest : List HostOp), s.seqr = .idle →
    s.script = .write 0x008 .w32 w :: rest →
    ∃ t left, step s = .next t ∧ t.seqr = .busy w left ∧ left ≤ Config.cmdLatency ∧
      t.status.done = false ∧ t.status.absent = false ∧ t.status.emitted = false ∧
      t.status.err = .ok ∧ t.status.overrun = s.status.overrun ∧ t.irqEn = s.irqEn ∧
      t.inLen = s.inLen ∧ t.arg = s.arg ∧ t.inBuf = s.inBuf ∧ t.log = s.log ∧ t.script = rest ∧
      t.res = s.res ∧ KeepsFrame s t ∧ KeepsGroup s t ∧ KeepsSnapshot s t ∧ KeepsAngles s t

/-- R221, R262, R90: a word with `left` bus cycles to go completes in `left + 1` steps, the host idle
or waiting: a command with the effect of exec on the state it started in, any other word with
ILLEGAL_COMMAND. A `wait` stays while DONE is 0 and is done when DONE is 1; so a CMD write followed
by `wait` ends in the command's own next state. One step for a cycle, and the draw counter, are the
model's choice (logs 2, 3 and 5). -/
def Obligations.RunningCommandCompletesInTime : Prop :=
  (∀ (s : State) (w : Word) (left : Nat), s.seqr = .busy w left →
    (s.script = [] ∨ s.status.done = false ∧ ∃ rest, s.script = .wait :: rest) →
    (∀ i, decode w = .ok i →
      runSteps (left + 1) s = exec i { s with seqr := .busy w 0, draws := s.draws + left }) ∧
    ((∀ i, w ≠ encode i) →
      ∃ t, runSteps (left + 1) s = .next t ∧ OnlyCompletes .illegalCommand false s t)) ∧
  (∀ (s : State) (rest : List HostOp), s.seqr = .idle → s.script = .wait :: rest →
    step s = .next
      { s with script := if s.status.done then rest else s.script, draws := s.draws + 1 }) ∧
  ∀ (s : State) (w : Word) (i : Instr) (rest : List HostOp), s.seqr = .idle →
    s.script = .write 0x008 .w32 w :: .wait :: rest → decode w = .ok i →
    ∃ u left, step s = .next u ∧ u.seqr = .busy w left ∧ left ≤ Config.cmdLatency ∧
      u.script = .wait :: rest ∧
      ∀ t, exec i { u with seqr := .busy w 0, draws := u.draws + left } = .next t →
        runSteps (left + 3) s = .next { t with script := rest, draws := t.draws + 1 }

/-! ### The host bus -/

/-- R225, R256: a write to CMD, IN_LEN, ARG or IN_BUF while BUSY changes nothing but OVERRUN, which
it sets. -/
def Obligations.WritesWhileBusyAreDropped : Prop :=
  ∀ (s : State) (off : Nat) (w : Width) (v : Word), isBusy s = true →
    (off ∈ [0x008, 0x00C, 0x010, 0x014, 0x018, 0x01C] ∧ w = .w32 ∨
      0x1000 ≤ off ∧ off < 0x2000 ∧ off % w.bytes = 0) →
    busWrite s off w v = .ok { s with status := { s.status with overrun := true } }

/-- R25, R26: while BUSY = 0 a write to ARG `k` or IN_LEN stores the word (LEN is bits 12:0), reads
back, and changes nothing else. -/
def Obligations.OperandWritesReadBack : Prop :=
  ∀ (s : State) (v : Word), isBusy s = false →
    (∀ k : Fin 4, ∃ t, busWrite s (0x010 + 4 * k.val) .w32 v = .ok t ∧
      t.arg[k] = v ∧ (∀ j : Fin 4, j ≠ k → t.arg[j] = s.arg[j]) ∧
      busRead t (0x010 + 4 * k.val) .w32 = .ok v ∧ t = { s with arg := t.arg }) ∧
    ∃ t, busWrite s 0x00C .w32 v = .ok t ∧ t.inLen.toNat = v.toNat % 2 ^ 13 ∧
      busRead t 0x00C .w32 = .ok (BitVec.ofNat 32 (v.toNat % 2 ^ 13)) ∧
      t = { s with inLen := t.inLen }

/-- R226: a write of `v` to STATUS clears DONE when bit 1 is set and OVERRUN when bit 4 is set, and
nothing else, while BUSY or not. -/
def Obligations.StatusWriteClearsDoneAndOverrun : Prop :=
  ∀ (s : State) (v : Word), ∃ t, busWrite s 0x004 .w32 v = .ok t ∧
    (t.status.done = true ↔ s.status.done = true ∧ v.getLsbD 1 = false) ∧
    (t.status.overrun = true ↔ s.status.overrun = true ∧ v.getLsbD 4 = false) ∧
    t.status.err = s.status.err ∧ t.status.absent = s.status.absent ∧
    t.status.emitted = s.status.emitted ∧ t.status.frameValid = s.status.frameValid ∧
    t.status.groupActive = s.status.groupActive ∧ t.status.snapValid = s.status.snapValid ∧
    t = { s with status := t.status } ∧ (v.getLsbD 1 = true → irq t = false)

/-- R227, R252: a write to CTRL with bit 1 set puts every piece of the block's state into its
reset state, aborting a running command and leaving IRQ_EN 0; with bit 1 clear it writes IRQ_EN and
nothing else. Last, the reset input (R250), which is a host operation in the model (log 3): the step
that serves it puts the block into the same state. -/
def Obligations.CtrlWriteEnablesOrResets : Prop :=
  (∀ (s : State) (v : Word), ∃ t, busWrite s 0x000 .w32 v = .ok t ∧
    (v.getLsbD 1 = false → t = { s with irqEn := v.getLsbD 0 }) ∧
    (v.getLsbD 1 = true →
      t = { State.reset with draws := s.draws, script := s.script, log := s.log } ∧
        isBusy t = false ∧ t.status.done = false ∧ irq t = false)) ∧
  ∀ (s : State) (rest : List HostOp), s.script = .resetInput :: rest →
    (s.seqr = .idle ∨ ∃ w left, s.seqr = .busy w (left + 1)) →
    step s = .next { State.reset with draws := s.draws + 1, script := rest, log := s.log }

/-- R250: every piece of state after reset. The buffers hold nothing that could be read as a value;
that they are empty lists is the model's form of UNSPECIFIED (log 1). -/
def Obligations.ResetStateAsSpecified : Prop :=
  ctrlWord State.reset = 0 ∧ statusWord State.reset = 0 ∧ State.reset.inLen = 0 ∧
    (∀ k : Fin 4, State.reset.arg[k] = 0) ∧ (∀ k : Fin 8, State.reset.res[k] = 0) ∧
    (∀ off ∈ [0x040, 0x044, 0x048, 0x04C, 0x050, 0x054, 0x058, 0x05C, 0x060, 0x064, 0x068],
      frmWord State.reset.frm off = 0) ∧
    (∀ k < 4, csiWord State.reset.grp k = 0 ∧ csiWord State.reset.snap k = 0) ∧
    (∀ k : Fin 16, State.reset.grp.len[k] = 0 ∧ State.reset.snap.len[k] = 0) ∧
    State.reset.seqr = .idle ∧ irq State.reset = false ∧
    (∀ a, Sparse.read? State.reset.inBuf a = none ∧ Sparse.read? State.reset.coefBuf a = none ∧
      Sparse.read? State.reset.grp.grid a = none ∧ Sparse.read? State.reset.snap.grid a = none ∧
      Sparse.read? State.reset.aoa0 a = none ∧ Sparse.read? State.reset.aoa1 a = none)

/-- R61, R62, R65, R244: inside the window an access is a bus error exactly when it is misaligned or
of a width its offset does not take, for reads and writes alike, whatever the state; the step that
serves a bad access is that fault of the host script, beyond the window a refusal (log 10). The step
that serves a well-formed write ends in the state of `busWrite`, the draw counter advanced; while
BUSY it is one of the command's bus cycles (logs 2 and 3). -/
def Obligations.BusAccessesAreServedOrFault : Prop :=
  (∀ (s : State) (off : Nat) (w : Width) (v : Word), off < 0x30000 →
    ((∃ f, busWrite s off w v = .error (.fault f)) ↔
      ¬ (Access.aligned off w = true ∧ Access.widthTaken off w = true)) ∧
    ((∃ f, busRead s off w = .error (.fault f)) ↔
      ¬ (Access.aligned off w = true ∧ Access.widthTaken off w = true)) ∧
    (∀ r, busWrite s off w v ≠ .error (.refused r) ∧ busRead s off w ≠ .error (.refused r))) ∧
  (∀ (s : State) (off : Nat) (w : Width) (v : Word) (name : String) (rest : List HostOp),
    (s.script = .write off w v :: rest ∨ s.script = .read off w name :: rest) →
    (s.seqr = .idle ∨ ∃ word left, s.seqr = .busy word (left + 1)) →
    (off < 0x30000 → ¬ (Access.aligned off w = true ∧ Access.widthTaken off w = true) →
      ∃ f, busWrite s off w v = .error (.fault f) ∧ busRead s off w = .error (.fault f) ∧
        step s = .fault f) ∧
    (0x30000 ≤ off → step s = .refused .platformAddress)) ∧
  ∀ (s : State) (off : Nat) (w : Width) (v : Word) (rest : List HostOp),
    s.script = .write off w v :: rest → (HostOp.write off w v).wellFormed = true →
    (s.seqr = .idle → ∃ t, busWrite { s with script := rest } off w v = .ok t ∧
      step s = .next { t with draws := t.draws + 1 }) ∧
    ∀ word left, s.seqr = .busy word (left + 1) →
      ∃ t, busWrite { s with seqr := .busy word left, script := rest } off w v = .ok t ∧
        step s = .next { t with draws := t.draws + 1 }

/-- R63: a 32-bit write of `v` to IN_BUF reads back byte by byte, least significant byte first, and
leaves every other byte of IN_BUF and every other piece of state alone. -/
def Obligations.InBufWordWriteReadsBackByBytes : Prop :=
  ∀ (s : State) (a : Nat) (v : Word), isBusy s = false → a % 4 = 0 → a < 4096 →
    ∃ t, busWrite s (0x1000 + a) .w32 v = .ok t ∧
      (∀ k < 4, busRead t (0x1000 + a + k) .w8 =
        .ok (BitVec.ofNat 32 (v.toNat / 256 ^ k % 256))) ∧
      busRead t (0x1000 + a) .w32 = .ok v ∧
      (∀ b, b < a ∨ a + 4 ≤ b → Sparse.read? t.inBuf b = Sparse.read? s.inBuf b) ∧
      t = { s with inBuf := t.inBuf }

/-- R63: a narrow write to IN_BUF writes only the bytes it names. -/
def Obligations.NarrowInBufWritesNameTheirBytes : Prop :=
  ∀ (s : State) (a : Nat) (v : Word), isBusy s = false → a < 4096 →
    (∃ t, busWrite s (0x1000 + a) .w8 v = .ok t ∧
      Sparse.read? t.inBuf a = some (v.setWidth 8) ∧
      (∀ b, b ≠ a → Sparse.read? t.inBuf b = Sparse.read? s.inBuf b) ∧
      t = { s with inBuf := t.inBuf }) ∧
    (a % 2 = 0 → ∃ t, busWrite s (0x1000 + a) .w16 v = .ok t ∧
      Sparse.read? t.inBuf a = some (BitVec.ofNat 8 v.toNat) ∧
      Sparse.read? t.inBuf (a + 1) = some (BitVec.ofNat 8 (v.toNat / 256)) ∧
      (∀ b, b ≠ a → b ≠ a + 1 → Sparse.read? t.inBuf b = Sparse.read? s.inBuf b) ∧
      t = { s with inBuf := t.inBuf })

/-- R64: a write to a reserved offset, a RO register or a RO window has no effect, BUSY or not. -/
def Obligations.ReadOnlyAndReservedWritesIgnored : Prop :=
  ∀ (s : State) (off : Nat) (v : Word), off % 4 = 0 →
    (0x020 ≤ off ∧ off < 0x1000 ∨ 0x2000 ≤ off ∧ off < 0x30000) →
    busWrite s off .w32 v = .ok s

/-- R24, R60, R64: CMD and the reserved offsets read 0, BUSY or not. -/
def Obligations.CmdAndReservedOffsetsReadZero : Prop :=
  ∀ (s : State) (off : Nat), off % 4 = 0 →
    (off = 0x008 ∨ 0x06C ≤ off ∧ off < 0x080 ∨ 0x0A0 ≤ off ∧ off < 0x0C0 ∨
      0x100 ≤ off ∧ off < 0x1000 ∨ 0x6000 ≤ off ∧ off < 0x10000) →
    busRead s off .w32 = .ok 0

/-- R64: a read has no side effect: the step that serves it gives the host the value of the read and
leaves all of the block's state as it was, but that while BUSY it is one of the command's bus
cycles. -/
def Obligations.ReadsHaveNoSideEffect : Prop :=
  ∀ (s : State) (off : Nat) (w : Width) (name : String) (rest : List HostOp),
    s.script = .read off w name :: rest → (HostOp.read off w name).wellFormed = true →
    ∃ v, busRead s off w = .ok v ∧
      (s.seqr = .idle → step s =
        .next { s with script := rest, log := (name, v) :: s.log, draws := s.draws + 1 }) ∧
      ∀ word left, s.seqr = .busy word (left + 1) → step s =
        .next { s with
          seqr := .busy word left, script := rest, log := (name, v) :: s.log,
          draws := s.draws + 1 }

/-- R21, R22, R27, R28, R31, R32, R60, R68: while BUSY = 0 every register of the map shows its
value, zero above its bits, and the buffer windows show the stored binary64 numbers, low word
first. -/
def Obligations.WindowsShowStoredNumbers : Prop :=
  ∀ (s : State), isBusy s = false →
    (busRead s 0x000 .w32 = .ok (if s.irqEn then 1 else 0) ∧
      ∀ k : Fin 8, busRead s (0x020 + 4 * k.val) .w32 = .ok s.res[k]) ∧
    (busRead s 0x040 .w32 = .ok s.frm.rssi ∧
      busRead s 0x044 .w32 = .ok (BitVec.ofNat 32 s.frm.fc.toNat) ∧
      busRead s 0x048 .w32 = .ok s.frm.macLo ∧
      busRead s 0x04C .w32 = .ok (BitVec.ofNat 32 s.frm.macHi.toNat) ∧
      busRead s 0x050 .w32 = .ok (BitVec.ofNat 32 s.frm.seq.toNat) ∧
      busRead s 0x054 .w32 =
        .ok (BitVec.ofNat 32 (s.frm.config.toNat + if s.frm.cfgBe then 2 ^ 16 else 0)) ∧
      busRead s 0x058 .w32 = .ok (BitVec.ofNat 32 s.frm.core.toNat) ∧
      busRead s 0x05C .w32 = .ok (BitVec.ofNat 32 s.frm.spatial.toNat) ∧
      busRead s 0x060 .w32 = .ok (BitVec.ofNat 32 s.frm.chanspec.toNat) ∧
      busRead s 0x064 .w32 = .ok (BitVec.ofNat 32 s.frm.chip.toNat) ∧
      busRead s 0x068 .w32 = .ok (BitVec.ofNat 32 s.frm.nsub.toNat)) ∧
    (busRead s 0x080 .w32 = .ok (BitVec.ofNat 32 s.grp.seq.toNat) ∧
      busRead s 0x084 .w32 = .ok (BitVec.ofNat 32 s.grp.mask.toNat) ∧
      busRead s 0x088 .w32 = .ok (BitVec.ofNat 32 s.grp.chanspec.toNat) ∧
      busRead s 0x08C .w32 = .ok s.grp.rssi) ∧
    (busRead s 0x090 .w32 = .ok (BitVec.ofNat 32 s.snap.seq.toNat) ∧
      busRead s 0x094 .w32 = .ok (BitVec.ofNat 32 s.snap.mask.toNat) ∧
      busRead s 0x098 .w32 = .ok (BitVec.ofNat 32 s.snap.chanspec.toNat) ∧
      busRead s 0x09C .w32 = .ok s.snap.rssi ∧
      ∀ k : Fin 16, busRead s (0x0C0 + 4 * k.val) .w32 =
        .ok (BitVec.ofNat 32 s.snap.len[k].toNat)) ∧
    (∀ (j : Nat) (z : Cplx), j < 512 → Sparse.read? s.coefBuf j = some z →
      busRead s (0x2000 + 16 * j) .w32 = .ok (z.re.extractLsb' 0 32) ∧
      busRead s (0x2004 + 16 * j) .w32 = .ok (z.re.extractLsb' 32 32) ∧
      busRead s (0x2008 + 16 * j) .w32 = .ok (z.im.extractLsb' 0 32) ∧
      busRead s (0x200C + 16 * j) .w32 = .ok (z.im.extractLsb' 32 32)) ∧
    (∀ (k : Fin 16) (j : Nat) (z : Cplx), j < 512 →
      Sparse.read? s.snap.grid (512 * k.val + j) = some z →
      busRead s (0x10000 + 0x2000 * k.val + 16 * j) .w32 = .ok (z.re.extractLsb' 0 32) ∧
      busRead s (0x10004 + 0x2000 * k.val + 16 * j) .w32 = .ok (z.re.extractLsb' 32 32) ∧
      busRead s (0x10008 + 0x2000 * k.val + 16 * j) .w32 = .ok (z.im.extractLsb' 0 32) ∧
      busRead s (0x1000C + 0x2000 * k.val + 16 * j) .w32 = .ok (z.im.extractLsb' 32 32)) ∧
    (∀ (j : Nat) (v : F64), j < 512 → Sparse.read? s.aoa0 j = some v →
      busRead s (0x4000 + 8 * j) .w32 = .ok (v.extractLsb' 0 32) ∧
      busRead s (0x4004 + 8 * j) .w32 = .ok (v.extractLsb' 32 32)) ∧
    (∀ (j : Nat) (v : F64), j < 512 → Sparse.read? s.aoa1 j = some v →
      busRead s (0x5000 + 8 * j) .w32 = .ok (v.extractLsb' 0 32) ∧
      busRead s (0x5004 + 8 * j) .w32 = .ok (v.extractLsb' 32 32))

/-- R23, R88: a read of STATUS, BUSY or not, gives each flag in its bit, the code of ERR in bits
15:8, and 0 in the reserved bits. -/
def Obligations.StatusReadsEachFlagInItsBit : Prop :=
  ∀ s : State, ∃ v, busRead s 0x004 .w32 = .ok v ∧
    v.getLsbD 0 = isBusy s ∧ v.getLsbD 1 = s.status.done ∧ v.getLsbD 2 = s.status.absent ∧
    v.getLsbD 3 = s.status.emitted ∧ v.getLsbD 4 = s.status.overrun ∧
    v.extractLsb' 5 3 = 0 ∧ (s.status.err, v.extractLsb' 8 8) ∈ errorCodes ∧
    v.getLsbD 16 = s.status.frameValid ∧ v.getLsbD 17 = s.status.groupActive ∧
    v.getLsbD 18 = s.status.snapValid ∧ v.extractLsb' 19 13 = 0

/-- R234, R235: every completion, with or without an error and also of a word that is no command,
raises DONE, and so irq where IRQ_EN is 1; enabling the interrupt
while DONE is 1 asserts irq at once; the start of the next command drops it. -/
def Obligations.InterruptFollowsDoneAndEnable : Prop :=
  (∀ (i : Instr) (s t : State), exec i s = .next t → irq t = s.irqEn) ∧
    (∀ (s t : State) (w : Word), s.seqr = .busy w 0 → step s = .next t →
      t.status.done = true ∧ irq t = s.irqEn) ∧
    (∀ s : State, ∃ t, busWrite s 0x000 .w32 1 = .ok t ∧ irq t = s.status.done) ∧
    (∀ (s : State) (w : Word), irq (startCommand w s) = false)

/-! ### NOP and operand checks -/

/-- R223: NOP, word 0x00000000, completes with ERR, ABSENT and EMITTED 0 and changes no other state;
from the reset status it leaves STATUS = 0x00000002. -/
def Obligations.NopOnlyCompletes : Prop :=
  encode .nop = 0x00000000 ∧
    ∀ s : State, ∃ t, exec .nop s = .next t ∧ OnlyCompletes .ok false s t ∧
      (s.status = State.reset.status → statusWord t = 0x00000002)

/-- R86: a command ends in BAD_OPERAND exactly when a reserved operand field is set or the input is
longer than IN_BUF, whatever else is wrong, and then it changes nothing else. -/
def Obligations.BadOperandComesFirst : Prop :=
  ∀ (i : Instr) (s : State),
    (operandRefused i s → ∃ t, exec i s = .next t ∧ OnlyCompletes .badOperand false s t) ∧
    (∀ t, exec i s = .next t → t.status.err = .badOperand → operandRefused i s)

/-! ### The channel-specification codec -/

/-- R104, R105, R106: CHANSPEC_DECODE of a legal chanspec completes with its fields and derived
quantities in RES0 to RES7 and writes nothing else. -/
def Obligations.ChanspecDecodeGivesTheFields : Prop :=
  ∀ (s : State) (v field code mhz nsub : Nat) (five : Bool),
    (field, code, mhz, nsub) ∈ bandwidthRows → v < 2 ^ 16 → s.arg[0].toNat = v →
    v &&& 0x3800 = field → v &&& 0xC000 = (if five then 0xC000 else 0) →
    (five = true ∨ mhz = 20 ∨ mhz = 40) →
    ∃ t, exec .chanspecDecode s = .next t ∧
      t.res[0].toNat = v % 2 ^ 8 ∧ t.res[1].toNat = v / 2 ^ 8 % 8 ∧
      t.res[2].toNat = (if five then 1 else 0) ∧ t.res[3].toNat = code ∧
      t.res[4].toNat = mhz ∧ t.res[5].toNat = nsub ∧
      t.res[6].toInt = (v % 2 ^ 8 : Nat) - ((mhz : Int) - 20) / 10 ∧
      t.res[7].toNat = 5000 + 5 * (v % 2 ^ 8) ∧ WritesResults 8 s t

/-- R106, R233: the errors of CHANSPEC_DECODE in their order: the bandwidth field, then the band,
then 2.4 GHz with 80 or 160 MHz. -/
def Obligations.ChanspecDecodeErrorsInOrder : Prop :=
  ∀ (s : State) (v : Nat), v < 2 ^ 16 → s.arg[0].toNat = v →
    (v &&& 0x3800 ∉ [0x1000, 0x1800, 0x2000, 0x2800] →
      ∃ t, exec .chanspecDecode s = .next t ∧ OnlyCompletes .invalidBandwidth false s t) ∧
    (v &&& 0x3800 ∈ [0x1000, 0x1800, 0x2000, 0x2800] → v &&& 0xC000 ∉ [0, 0xC000] →
      ∃ t, exec .chanspecDecode s = .next t ∧ OnlyCompletes .invalidBand false s t) ∧
    (v &&& 0x3800 ∈ [0x2000, 0x2800] → v &&& 0xC000 = 0 →
      ∃ t, exec .chanspecDecode s = .next t ∧ OnlyCompletes .invalidBandwidth false s t)

/-- R111: what `cs_encode` accepts, `cs_decode` gives back, for every channel, band and bandwidth. -/
def Obligations.EncodedChanspecDecodesBack : Prop :=
  ∀ (ch : Nat) (band : Band) (bw : Bw) (v : Half), ch < 256 → csEncode ch band bw = some v →
    ∃ cs, csDecode v = .ok cs ∧ cs.band = band ∧ cs.bw = bw ∧
      chanLo cs + 4 * (cs.sideband.toNat : Int) = ch

/-- R106: every 16-bit value that decodes has all of its bits in a field, so composing the decoded
fields with R110 gives the value back. -/
def Obligations.DecodedChanspecComposesBack : Prop :=
  ∀ (v : Half) (cs : Chanspec), csDecode v = .ok cs →
    csCompose cs.center.toNat cs.sideband.toNat cs.band cs.bw = v

/-- R107, R108, R110: CHANSPEC_ENCODE at 20 MHz takes every channel, with sideband 0. -/
def Obligations.ChanspecEncodeTakesEveryTwentyMhzChannel : Prop :=
  ∀ (s : State) (ch band : Nat), ch < 256 → band < 2 → s.arg[0].toNat = ch →
    s.arg[1].toNat = band → s.arg[2].toNat = 0 →
    ∃ t, exec .chanspecEncode s = .next t ∧
      t.res[0].toNat = 0xC000 * band + 0x1000 + ch ∧ t.res[1].toNat = ch ∧
      t.res[2].toNat = 0 ∧ t.res[3].toNat = ch ∧ WritesResults 4 s t

/-- R107 to R110: for a wider bandwidth the first candidate of the ascending table that takes the
channel gives the center, and the offset over 4 the sideband. -/
def Obligations.ChanspecEncodeTakesTheFirstCandidate : Prop :=
  ∀ (s : State) (ch band field code mhz nsub c : Nat) (before after : List Nat),
    (field, code, mhz, nsub) ∈ bandwidthRows → ch < 256 → band < 2 → s.arg[0].toNat = ch →
    s.arg[1].toNat = band → s.arg[2].toNat = code → (band = 1 ∨ mhz = 40) →
    candidateTable mhz = before ++ c :: after → (∀ b ∈ before, ¬ candidateFits ch mhz b) →
    candidateFits ch mhz c →
    ∃ t, exec .chanspecEncode s = .next t ∧
      (t.res[0].toNat : Int) =
        0xC000 * band + field + 256 * (candidateOffset ch mhz c / 4) + c ∧
      t.res[1].toNat = c ∧ (t.res[2].toNat : Int) = candidateOffset ch mhz c / 4 ∧
      t.res[3].toInt = (c : Int) - ((mhz : Int) - 20) / 10 ∧ WritesResults 4 s t

/-- R107, R108: CHANSPEC_ENCODE is ABSENT, and writes nothing but STATUS, when the band does not
allow the bandwidth or no candidate takes the channel. -/
def Obligations.ChanspecEncodeAbsentWithoutCandidate : Prop :=
  ∀ (s : State) (ch band field code mhz nsub : Nat),
    (field, code, mhz, nsub) ∈ bandwidthRows → ch < 256 → band < 2 → s.arg[0].toNat = ch →
    s.arg[1].toNat = band → s.arg[2].toNat = code →
    (band = 0 ∧ (mhz = 80 ∨ mhz = 160) ∨
      mhz ≠ 20 ∧ ∀ c ∈ candidateTable mhz, ¬ candidateFits ch mhz c) →
    ∃ t, exec .chanspecEncode s = .next t ∧ OnlyCompletes .ok true s t

/-- R112: DEFAULT_DELAY answers the product of the two popcounts in RES1, and 50 in RES0 exactly
when it is at least 12, else 0. -/
def Obligations.DefaultDelayCountsMasks : Prop :=
  ∀ (s : State) (cores streams p : Nat), cores < 16 → streams < 16 → s.arg[0].toNat = cores →
    s.arg[1].toNat = streams →
    p = ((List.range 4).filter cores.testBit).length *
      ((List.range 4).filter streams.testBit).length →
    ∃ t, exec .defaultDelay s = .next t ∧ t.res[0].toNat = (if 12 ≤ p then 50 else 0) ∧
      t.res[1].toNat = p ∧ WritesResults 2 s t

/-- R113, R114: SUBCARRIER_CLASS answers 1 on a pilot, 2 on another subcarrier in the data range,
else 0, for every 32-bit index. -/
def Obligations.SubcarrierClassFollowsTheTonePlan : Prop :=
  ∀ (s : State) (code : Nat) (pilotSet : List Nat) (ranges : List (Nat × Nat)),
    (code, pilotSet, ranges) ∈
      [(0, [7, 21], [(1, 28)]), (1, [11, 25, 53], [(2, 58)]), (2, [11, 39, 75, 103], [(2, 122)]),
        (3, [25, 53, 89, 117, 139, 167, 203, 231], [(6, 126), (130, 250)])] →
    s.arg[0].toNat = code →
    ∃ t, exec .subcarrierClass s = .next t ∧ WritesResults 1 s t ∧
      (s.arg[1].toInt.natAbs ∈ pilotSet → t.res[0].toNat = 1) ∧
      (s.arg[1].toInt.natAbs ∉ pilotSet →
        (∃ r ∈ ranges, r.1 ≤ s.arg[1].toInt.natAbs ∧ s.arg[1].toInt.natAbs ≤ r.2) →
        t.res[0].toNat = 2) ∧
      ((∀ r ∈ ranges, s.arg[1].toInt.natAbs < r.1 ∨ r.2 < s.arg[1].toInt.natAbs) →
        t.res[0].toNat = 0)

/-- R115: the counts of data and pilot subcarriers. -/
def Obligations.SubcarrierCountsAsDocumented : Prop :=
  ∀ row ∈ [(Bw.mhz20, 128, 52, 4), (Bw.mhz40, 128, 108, 6), (Bw.mhz80, 128, 234, 8),
      (Bw.mhz160, 256, 468, 16)],
    ((List.range (2 * row.2.1 - 1)).filter fun k => scClass row.1 ((k : Int) - row.2.1) = 2).length =
        row.2.2.1 ∧
      ((List.range (2 * row.2.1 - 1)).filter fun k =>
        scClass row.1 ((k : Int) - row.2.1) = 1).length = row.2.2.2

/-! ### The complex unpacker -/

/-- R131 to R135: UNPACK_COMPLEX takes every 32-bit sample; RES1:RES0 and RES3:RES2 are the exact
values `mr·2^e` and `mi·2^e`, +0.0 for a zero mantissa, and RES4 to RES6 the three integers. -/
def Obligations.UnpackComplexIsExact : Prop :=
  ∀ (s : State) (raw : Nat) (e mr mi : Int), s.arg[0].toNat = raw →
    e = (if raw % 64 < 32 then (raw % 64 : Nat) else (raw % 64 : Nat) - 64 : Int) →
    mr = (if raw / 2 ^ 31 = 1 then -(raw / 2 ^ 19 % 2 ^ 12 : Nat) else
      (raw / 2 ^ 19 % 2 ^ 12 : Nat) : Int) →
    mi = (if raw / 2 ^ 18 % 2 = 1 then -(raw / 2 ^ 6 % 2 ^ 12 : Nat) else
      (raw / 2 ^ 6 % 2 ^ 12 : Nat) : Int) →
    ∃ t, exec .unpackComplex s = .next t ∧
      fIsFinite (t.res[1] ++ t.res[0]) = true ∧
      fValue (t.res[1] ++ t.res[0]) = (mr : ℚ) * (2 : ℚ) ^ e ∧
      fIsFinite (t.res[3] ++ t.res[2]) = true ∧
      fValue (t.res[3] ++ t.res[2]) = (mi : ℚ) * (2 : ℚ) ^ e ∧
      (mr = 0 → t.res[1] = 0 ∧ t.res[0] = 0) ∧ (mi = 0 → t.res[3] = 0 ∧ t.res[2] = 0) ∧
      t.res[4].toInt = e ∧ t.res[5].toInt = mr ∧ t.res[6].toInt = mi ∧ WritesResults 7 s t

/-- R136 to R138: UNPACK_CSI puts wire sample `(j + n/2) mod n` into COEF_BUF entry `j`, keeps the
entries from `n` up, clears FRAME_VALID, answers `n` in RES0, and writes nothing else. -/
def Obligations.UnpackCsiRotatesThePayload : Prop :=
  ∀ (s : State) (field code mhz n : Nat), (field, code, mhz, n) ∈ bandwidthRows →
    s.arg[0].toNat = code → 4 * n ≤ s.inLen.toNat → s.inLen.toNat ≤ 4096 →
    ∃ t, exec .unpackCsi s = .next t ∧
      (∀ j < n, Sparse.read? t.coefBuf j =
        some (unpackComplex (BitVec.ofNat 32
          ((inByte s (4 * ((j + n / 2) % n))).toNat +
            256 * (inByte s (4 * ((j + n / 2) % n) + 1)).toNat +
            256 ^ 2 * (inByte s (4 * ((j + n / 2) % n) + 2)).toNat +
            256 ^ 3 * (inByte s (4 * ((j + n / 2) % n) + 3)).toNat)))) ∧
      (∀ j, n ≤ j → Sparse.read? t.coefBuf j = Sparse.read? s.coefBuf j) ∧
      t.status.frameValid = false ∧ t.frm = s.frm ∧ t.res[0].toNat = n ∧
      CompletedWith .ok false false s t ∧ KeepsInputs s t ∧ KeepsResultsFrom 1 s t ∧
      KeepsGroup s t ∧ KeepsSnapshot s t ∧ KeepsAngles s t

/-- R138: a payload shorter than `4·n` bytes is NOT_ENOUGH_BYTES, and COEF_BUF, FRAME_VALID and
everything else keep their values. -/
def Obligations.UnpackCsiRefusesShortPayloads : Prop :=
  ∀ (s : State) (field code mhz n : Nat), (field, code, mhz, n) ∈ bandwidthRows →
    s.arg[0].toNat = code → s.inLen.toNat < 4 * n →
    ∃ t, exec .unpackCsi s = .next t ∧ OnlyCompletes .notEnoughBytes false s t

/-! ### The frame decoder -/

/-- R150 to R160: DECODE_FRAME of a frame that passes every check writes FRM_*, COEF_BUF, RES0 and
FRAME_VALID as R160 says, the config with its endianness fallback, and nothing else. -/
def Obligations.DecodeFrameWritesTheFrame : Prop :=
  ∀ (s : State) (field code mhz n cfg : Nat) (be : Bool), (field, code, mhz, n) ∈ bandwidthRows →
    headerAccepted s → s.inLen.toNat ≤ 4096 → 60 + 4 * n ≤ s.inLen.toNat →
    frameWord16 s 56 &&& 0x3800 = field →
    (frameWord16 s 56 &&& 0xC000 = 0xC000 ∨
      frameWord16 s 56 &&& 0xC000 = 0 ∧ (mhz = 20 ∨ mhz = 40)) →
    frameWord16 s 58 = 106 → be = decide (63 < frameWord16 s 54) →
    cfg = (if be then 256 * (inByte s 54).toNat + (inByte s 55).toNat else frameWord16 s 54) →
    ∃ t, exec .decodeFrame s = .next t ∧
      t.frm.rssi.toInt = (inByte s 44).toInt ∧ t.frm.fc = inByte s 45 ∧
      t.frm.macLo.toNat = frameWord16 s 46 + 65536 * frameWord16 s 48 ∧
      t.frm.macHi.toNat = frameWord16 s 50 ∧ t.frm.seq.toNat = frameWord16 s 52 ∧
      t.frm.config.toNat = cfg ∧ t.frm.cfgBe = be ∧ t.frm.core.toNat = cfg % 8 ∧
      t.frm.spatial.toNat = cfg / 8 % 8 ∧ t.frm.chanspec.toNat = frameWord16 s 56 ∧
      t.frm.chip.toNat = 106 ∧ t.frm.nsub.toNat = n ∧
      (∀ j < n, Sparse.read? t.coefBuf j =
        some (unpackComplex (BitVec.ofNat 32
          (frameWord16 s (60 + 4 * ((j + n / 2) % n)) +
            65536 * frameWord16 s (62 + 4 * ((j + n / 2) % n)))))) ∧
      (∀ j, n ≤ j → Sparse.read? t.coefBuf j = Sparse.read? s.coefBuf j) ∧
      t.status.frameValid = true ∧ t.res[0].toNat = n ∧
      CompletedWith .ok false false s t ∧ KeepsInputs s t ∧ KeepsResultsFrom 1 s t ∧
      KeepsGroup s t ∧ KeepsSnapshot s t ∧ KeepsAngles s t

/-- R152 to R154, R157 to R161: the errors of DECODE_FRAME in their order. BAD_OPERAND changes nothing
else; each of the others clears FRAME_VALID and writes nothing else. -/
def Obligations.DecodeFrameErrorsInOrder : Prop :=
  (∀ s : State, 4096 < s.inLen.toNat →
    ∃ t, exec .decodeFrame s = .next t ∧ OnlyCompletes .badOperand false s t) ∧
  ∀ s : State, s.inLen.toNat ≤ 4096 →
    (s.inLen.toNat < 60 →
      ∃ t, exec .decodeFrame s = .next t ∧ FrameRefused .notEnoughBytes s t) ∧
    (60 ≤ s.inLen.toNat → (∃ i : Fin 6, inByte s (6 + i.val) ≠ Config.magicString i) →
      ∃ t, exec .decodeFrame s = .next t ∧ FrameRefused .notANexmonPacket s t) ∧
    (60 ≤ s.inLen.toNat → (∀ i : Fin 6, inByte s (6 + i.val) = Config.magicString i) →
      (∃ i : Fin 2, inByte s (42 + i.val) ≠ Config.magicBytes i) →
      ∃ t, exec .decodeFrame s = .next t ∧ FrameRefused .missingMagicBytes s t) ∧
    (headerAccepted s → ∀ e, csDecode (BitVec.ofNat 16 (frameWord16 s 56)) = .error e →
      ∃ t, exec .decodeFrame s = .next t ∧ FrameRefused e s t) ∧
    (headerAccepted s → ∀ cs, csDecode (BitVec.ofNat 16 (frameWord16 s 56)) = .ok cs →
      (frameWord16 s 58 ≠ 106 →
        ∃ t, exec .decodeFrame s = .next t ∧ FrameRefused .unknownChip s t) ∧
      (frameWord16 s 58 = 106 → s.inLen.toNat < 60 + 4 * cs.bw.nsub →
        ∃ t, exec .decodeFrame s = .next t ∧ FrameRefused .notEnoughBytes s t))

/-- R163: bytes 0 to 5 and 12 to 41 of the frame have no meaning: another content of them gives the
same outcome. -/
def Obligations.UnreadFrameBytesDoNotMatter : Prop :=
  ∀ (s : State) (m : Memory),
    (∀ a, 6 ≤ a → (a < 12 ∨ 42 ≤ a) → Sparse.read? m a = Sparse.read? s.inBuf a) →
    ∃ t, exec .decodeFrame s = .next t ∧
      exec .decodeFrame { s with inBuf := m } = .next { t with inBuf := m }

/-! ### The frame grouper -/

/-- R173, R176: GROUP_ADD with no group to flush (none in progress, or one of another seq_cnt with
no populated slot) is ABSENT, starts a group with the frame in its slot, and leaves the rest
alone. -/
def Obligations.GroupAddStartsTheFirstGroup : Prop :=
  ∀ s : State, s.status.frameValid = true → frameHasSlot s → lengthsInRange s →
    (s.status.groupActive = false ∨ s.frm.seq ≠ s.grp.seq ∧ s.grp.mask = 0) →
    ∃ t, exec .groupAdd s = .next t ∧ CompletedWith .ok true false s t ∧
      GroupStartedByFrame s t ∧ SlotHoldsFrame s t ∧ KeepsSnapshot s t ∧ KeepsFrame s t ∧
      KeepsResultsFrom 0 s t ∧ KeepsAngles s t ∧ KeepsInputs s t

/-- R173, R175, R176: GROUP_ADD of a frame of the group's generation is ABSENT, writes its slot
(the last write wins), keeps the group's chanspec and rssi and the other slots, and leaves the rest
alone. -/
def Obligations.GroupAddKeepsTheGeneration : Prop :=
  ∀ s : State, s.status.frameValid = true → frameHasSlot s → lengthsInRange s →
    s.status.groupActive = true → s.frm.seq = s.grp.seq →
    ∃ t, exec .groupAdd s = .next t ∧ CompletedWith .ok true false s t ∧
      t.status.groupActive = true ∧ t.grp.seq = s.grp.seq ∧ t.grp.chanspec = s.grp.chanspec ∧
      t.grp.rssi = s.grp.rssi ∧
      (∀ k : Fin 16, t.grp.mask.getLsbD k.val =
        (s.grp.mask.getLsbD k.val ||
          decide (k.val = 4 * s.frm.core.toNat + s.frm.spatial.toNat))) ∧
      (∀ k : Fin 16, t.grp.len[k] =
        if k.val = 4 * s.frm.core.toNat + s.frm.spatial.toNat then s.frm.nsub
        else s.grp.len[k]) ∧
      SlotHoldsFrame s t ∧ KeepsSnapshot s t ∧ KeepsFrame s t ∧ KeepsResultsFrom 0 s t ∧
      KeepsAngles s t ∧ KeepsInputs s t

/-- R171 to R173, R176: GROUP_ADD of a frame of another generation emits the group in progress into
the snapshot, starts a fresh group with the frame in its slot, and leaves the rest alone. -/
def Obligations.GroupAddEmitsTheOldGeneration : Prop :=
  ∀ s : State, s.status.frameValid = true → frameHasSlot s → lengthsInRange s →
    s.status.groupActive = true → s.frm.seq ≠ s.grp.seq → s.grp.mask ≠ 0 →
    ∃ t, exec .groupAdd s = .next t ∧ CompletedWith .ok false true s t ∧ SnapshotIsGroup s t ∧
      GroupStartedByFrame s t ∧ SlotHoldsFrame s t ∧ KeepsFrame s t ∧ KeepsResultsFrom 0 s t ∧
      KeepsAngles s t ∧ KeepsInputs s t

/-- R173, R176: GROUP_ADD without a valid frame is NO_FRAME, and with a core or spatial index of 4
or more SLOT_RANGE; either changes nothing else. -/
def Obligations.GroupAddRefusesBadFrames : Prop :=
  ∀ s : State,
    (s.status.frameValid = false →
      ∃ t, exec .groupAdd s = .next t ∧ OnlyCompletes .noFrame false s t) ∧
    (s.status.frameValid = true → ¬ frameHasSlot s →
      ∃ t, exec .groupAdd s = .next t ∧ OnlyCompletes .slotRange false s t)

/-- R171, R172, R174, R176: GROUP_TAKE with a populated group emits it into the snapshot, leaves the
grouper empty (its registers stale), and changes nothing else. -/
def Obligations.GroupTakeEmitsTheGroup : Prop :=
  ∀ s : State, s.status.groupActive = true → s.grp.mask ≠ 0 → lengthsInRange s →
    ∃ t, exec .groupTake s = .next t ∧ CompletedWith .ok false true s t ∧ SnapshotIsGroup s t ∧
      t.status.groupActive = false ∧ t.grp = s.grp ∧ KeepsFrame s t ∧ KeepsResultsFrom 0 s t ∧
      KeepsAngles s t ∧ KeepsInputs s t

/-- R171, R174, R176: GROUP_TAKE with nothing to emit is ABSENT, leaves the grouper empty and the
snapshot as it was. -/
def Obligations.GroupTakeAbsentWhenEmpty : Prop :=
  ∀ s : State, (s.status.groupActive = false ∨ s.grp.mask = 0) →
    ∃ t, exec .groupTake s = .next t ∧ CompletedWith .ok true false s t ∧
      t.status.groupActive = false ∧ t.grp = s.grp ∧ KeepsSnapshot s t ∧ KeepsFrame s t ∧
      KeepsResultsFrom 0 s t ∧ KeepsAngles s t ∧ KeepsInputs s t

/-! ### The estimators -/

/-- R191, R192, R194 to R196: AOA on an accepted snapshot stores the angles of center over right in
AOA0 and of left over right in AOA1, operation by operation (a NaN's payload apart, U24), `n` in
RES0, and nothing else. -/
def Obligations.AoaStoresBothAngleSequences : Prop :=
  ∀ (s : State) (cs : Chanspec), AoaReady s cs →
    ∃ t, exec .aoa s = .next t ∧ CompletedWith .ok false false s t ∧
      t.res[0].toNat = cs.bw.nsub ∧
      (∀ i < cs.bw.nsub,
        (∃ v, Sparse.read? t.aoa0 i = some v ∧
          SameNumber v (expectedAngle (s.arg[1] ++ s.arg[0])
            (gridFrequency cs.center.toNat cs.bw.mhz cs.bw.nsub i)
            (snapEntry s 12 i) (snapEntry s 0 i))) ∧
        (∃ v, Sparse.read? t.aoa1 i = some v ∧
          SameNumber v (expectedAngle (s.arg[1] ++ s.arg[0])
            (gridFrequency cs.center.toNat cs.bw.mhz cs.bw.nsub i)
            (snapEntry s 4 i) (snapEntry s 0 i)))) ∧
      (∀ i, cs.bw.nsub ≤ i → Sparse.read? t.aoa0 i = Sparse.read? s.aoa0 i ∧
        Sparse.read? t.aoa1 i = Sparse.read? s.aoa1 i) ∧
      KeepsInputs s t ∧ KeepsResultsFrom 1 s t ∧ KeepsFrame s t ∧ KeepsGroup s t ∧
      KeepsSnapshot s t

/-- R190, R195, R233: without a snapshot AOA is NO_SNAPSHOT; with one of its three slots missing it
is ABSENT; with all three and a length other than `n` it is LENGTH_MISMATCH; none of these writes
RES0, AOA0 or AOA1. -/
def Obligations.AoaOutcomesInOrder : Prop :=
  ∀ s : State,
    (s.status.snapValid = false →
      ∃ t, exec .aoa s = .next t ∧ OnlyCompletes .noSnapshot false s t) ∧
    (∀ cs, s.status.snapValid = true → csDecode s.snap.chanspec = .ok cs →
      ((s.snap.mask.getLsbD 0 = false ∨ s.snap.mask.getLsbD 12 = false ∨
          s.snap.mask.getLsbD 4 = false) →
        ∃ t, exec .aoa s = .next t ∧ OnlyCompletes .ok true s t) ∧
      (s.snap.mask.getLsbD 0 = true → s.snap.mask.getLsbD 12 = true →
        s.snap.mask.getLsbD 4 = true →
        (s.snap.len[0].toNat ≠ cs.bw.nsub ∨ s.snap.len[12].toNat ≠ cs.bw.nsub ∨
          s.snap.len[4].toNat ≠ cs.bw.nsub) →
        ∃ t, exec .aoa s = .next t ∧ OnlyCompletes .lengthMismatch false s t))

/-- R194, R197: a right-antenna entry of (0, 0), whatever the signs of its zeros, gives NaN in both
angle sequences at that entry. -/
def Obligations.ZeroRightEntryGivesNaN : Prop :=
  ∀ (s : State) (cs : Chanspec) (i : Nat) (z : Cplx), AoaReady s cs → i < cs.bw.nsub →
    Sparse.read? s.snap.grid i = some z → fIsZero z.re = true → fIsZero z.im = true →
    ∃ t v0 v1, exec .aoa s = .next t ∧ Sparse.read? t.aoa0 i = some v0 ∧
      Sparse.read? t.aoa1 i = some v1 ∧ fIsNaN v0 = true ∧ fIsNaN v1 = true

/-- R193 items 1, 2 and 3: the range of ATAN2, its 1 ulp (up to `2 ^ -1250`, the model's resolution,
log 6), its values on the axes and its NaN rule. -/
def Obligations.Atan2KeepsItsConventions : Prop :=
  ∀ y x : F64,
    ((fIsNaN y = true ∨ fIsNaN x = true) → fIsNaN (fAtan2 y x) = true) ∧
    (fIsNaN y = false → fIsNaN x = false →
      fLe 0xC00921FB54442D18 (fAtan2 y x) = true ∧ fLe (fAtan2 y x) 0x400921FB54442D18 = true) ∧
    (fIsNaN x = false → fNeg x = false → fAtan2 0 x = 0 ∧
      fAtan2 0x8000000000000000 x = 0x8000000000000000) ∧
    (fIsNaN x = false → fNeg x = true → fAtan2 0 x = 0x400921FB54442D18 ∧
      fAtan2 0x8000000000000000 x = 0xC00921FB54442D18) ∧
    (fIsNaN y = false → fIsZero y = false → fIsZero x = true →
      fAtan2 y x = if fNeg y then 0xBFF921FB54442D18 else 0x3FF921FB54442D18) ∧
    (fIsFinite y = true → fIsFinite x = true → fIsZero y = false →
      WithinUlp (Complex.arg ⟨fValue x, fValue y⟩) (fAtan2 y x))

/-- R193 items 4 and 5: the range of ASIN, its 1 ulp (up to `2 ^ -1250`, the model's resolution,
log 6), its exact values and its NaN rule. -/
def Obligations.AsinKeepsItsConventions : Prop :=
  ∀ a : F64,
    ((fIsNaN a = true ∨ fGt a 0x3FF0000000000000 = true ∨ fGt 0xBFF0000000000000 a = true) →
      fIsNaN (fAsin a) = true) ∧
    (fLe 0xBFF0000000000000 a = true → fLe a 0x3FF0000000000000 = true →
      fLe 0xBFF921FB54442D18 (fAsin a) = true ∧ fLe (fAsin a) 0x3FF921FB54442D18 = true ∧
        WithinUlp (Real.arcsin (fValue a)) (fAsin a)) ∧
    (fIsZero a = true → fAsin a = a) ∧
    fAsin 0x3FF0000000000000 = 0x3FF921FB54442D18 ∧
    fAsin 0xBFF0000000000000 = 0xBFF921FB54442D18

/-- R200, R202: TOF on an accepted snapshot answers the valid-core mask, the peak of the inverse DFT
of each populated core over the first half (0 for the others), the bandwidth and `n`, and writes
nothing else; the indices are below `n/2`. On R200's example, the sequence `(-i)^m` of 64 entries in
slot 0, the index is 16, for every scale and every error of the inverse DFT. -/
def Obligations.TofAnswersThePeaks : Prop :=
  (∀ (s : State) (cs : Chanspec), TofReady s cs →
    ∃ t, exec .tof s = .next t ∧ WritesResults 7 s t ∧
      (∀ c : Fin 4, t.res[0].getLsbD c.val = s.snap.mask.getLsbD (4 * c.val)) ∧
      t.res[0].toNat < 16 ∧
      (∀ c : Fin 4, t.res[1 + c.val].toNat < cs.bw.nsub / 2 ∧
        t.res[1 + c.val].toNat =
          if s.snap.mask.getLsbD (4 * c.val) then
            peak (idft cs.bw.nsub ((List.range cs.bw.nsub).map (snapEntry s (4 * c.val))))
              (cs.bw.nsub / 2)
          else 0) ∧
      t.res[5].toNat = cs.bw.mhz ∧ t.res[6].toNat = cs.bw.nsub) ∧
  ∀ (s : State) (cs : Chanspec), TofReady s cs → cs.bw = .mhz20 → s.snap.mask = 0x0001 →
    (∀ m < 64, Sparse.read? s.snap.grid m = some (if m % 4 = 0 then ⟨0x3FF0000000000000, 0⟩
      else if m % 4 = 1 then ⟨0, 0xBFF0000000000000⟩
      else if m % 4 = 2 then ⟨0xBFF0000000000000, 0⟩ else ⟨0, 0x3FF0000000000000⟩)) →
    ∃ t, exec .tof s = .next t ∧ t.res[0].toNat = 1 ∧ t.res[1].toNat = 16 ∧
      t.res[5].toNat = 20 ∧ t.res[6].toNat = 64

/-- R190, R200: without a snapshot TOF is NO_SNAPSHOT; with a populated core of another length at
spatial stream 0 it is LENGTH_MISMATCH; neither writes anything else. -/
def Obligations.TofErrorsInOrder : Prop :=
  ∀ s : State,
    (s.status.snapValid = false →
      ∃ t, exec .tof s = .next t ∧ OnlyCompletes .noSnapshot false s t) ∧
    (∀ (cs : Chanspec) (c : Fin 4), s.status.snapValid = true →
      csDecode s.snap.chanspec = .ok cs → s.snap.mask.getLsbD (4 * c.val) = true →
      s.snap.len[4 * c.val].toNat ≠ cs.bw.nsub →
      ∃ t, exec .tof s = .next t ∧ OnlyCompletes .lengthMismatch false s t)

/-- R202: PEAK answers the first index of the greatest magnitude of the first half; a NaN is never
selected over index 0, and a NaN at index 0 answers 0. -/
def Obligations.PeakIsTheFirstMaximum : Prop :=
  ∀ (X : Nat → Cplx) (h : Nat), 0 < h →
    peak X h < h ∧
    (∀ k < h, fGt (mag2 (X k)) (mag2 (X (peak X h))) = false) ∧
    (fIsNaN (mag2 (X 0)) = true → peak X h = 0) ∧
    (fIsNaN (mag2 (X 0)) = false → fIsNaN (mag2 (X (peak X h))) = false ∧
      ∀ k < peak X h, fIsNaN (mag2 (X k)) = true ∨
        fGt (mag2 (X (peak X h))) (mag2 (X k)) = true)

/-- R200 to R202: a core whose sequence is zero except at entry 0 has all magnitudes equal, so TOF
answers index 0 for it, whatever the scale of the inverse DFT. -/
def Obligations.ImpulseHasPeakAtIndexZero : Prop :=
  ∀ (s : State) (cs : Chanspec) (c : Fin 4), TofReady s cs →
    s.snap.mask.getLsbD (4 * c.val) = true →
    fIsFinite (snapEntry s (4 * c.val) 0).re = true →
    fIsFinite (snapEntry s (4 * c.val) 0).im = true →
    (∀ j, 0 < j → j < cs.bw.nsub → fIsZero (snapEntry s (4 * c.val) j).re = true ∧
      fIsZero (snapEntry s (4 * c.val) j).im = true) →
    ∃ t, exec .tof s = .next t ∧ t.res[1 + c.val] = 0

/-- R13: a scaled integer, and the results of addition, subtraction, multiplication, division and
square root on finite operands, are the exact values rounded to nearest with ties to even; and the
results for infinities, NaNs and a zero divisor. What IEEE 754 says beyond R13's words (the overflow
threshold, the sign of a zero, NaN for an invalid operation) is general knowledge (item G1,
log 18). -/
def Obligations.ArithmeticRoundsToNearestEven : Prop :=
  (∀ (neg : Bool) (m : Nat) (e : Int),
    RoundedTo ((if neg then -1 else 1) * (m : ℝ) * (2 : ℝ) ^ e) (fPack neg m e)) ∧
  (∀ a b : F64, fIsFinite a = true → fIsFinite b = true → FiniteArithmetic a b) ∧
  ∀ a b : F64, SpecialArithmetic a b

/-! ### Rules over all commands, and the invariant -/

/-- R10, R26, R34: no command writes CTRL, IN_LEN, ARG or IN_BUF. -/
def Obligations.NoCommandWritesItsInputs : Prop :=
  ∀ (i : Instr) (s t : State), exec i s = .next t → KeepsInputs s t

/-- R27, R222: a command that ends in an error writes nothing but STATUS, where only DECODE_FRAME
clears FRAME_VALID; one that ends ABSENT writes no result, no frame and no angle. -/
def Obligations.FailedCommandsWriteNothing : Prop :=
  ∀ (i : Instr) (s t : State), exec i s = .next t →
    (t.status.err ≠ .ok → t.res = s.res ∧ t.frm = s.frm ∧ t.coefBuf = s.coefBuf ∧
      KeepsGroup s t ∧ KeepsSnapshot s t ∧ KeepsAngles s t ∧
      (t.status.frameValid = s.status.frameValid ∨
        i = .decodeFrame ∧ t.status.frameValid = false)) ∧
    (t.status.absent = true → t.res = s.res ∧ KeepsFrame s t ∧ KeepsAngles s t ∧
      t.status.err = .ok)

/-- R37: no command reads DONE, ABSENT, EMITTED, OVERRUN or ERR: with other values of them it ends
the same, OVERRUN being kept. -/
def Obligations.NoCommandReadsTheOutcomeFlags : Prop :=
  ∀ (i : Instr) (s t : State) (d a em o : Bool) (e : ErrCode), exec i s = .next t →
    exec i { s with status := { s.status with
        done := d, absent := a, emitted := em, overrun := o, err := e } } =
      .next { t with status := { t.status with overrun := o } }

/-- The reset state with any host script meets the invariant. -/
def Obligations.InvariantHoldsAtReset : Prop :=
  ∀ ops : List HostOp, Inv { State.reset with script := ops }

/-- Every step keeps the invariant: storage canonical, status legal, and what FRAME_VALID,
GROUP_ACTIVE and SNAP_VALID promise. -/
def Obligations.EveryStepKeepsTheInvariant : Prop :=
  ∀ s t : State, Inv s → step s = .next t → Inv t

/-- R65, R190, R230: from a sound state a host script of well-formed accesses never stops: every
step answers a next state, whose script is well formed again. -/
def Obligations.WellFormedScriptsNeverStop : Prop :=
  ∀ s : State, Inv s → scriptWellFormed s → ∃ t, step s = .next t ∧ scriptWellFormed t
end

