-- ==== Sys2Proof/Laws/Arctan.lean ====
section
/-! SUPPORT. The fixed-point arctangent and angle of Machine/Angle.lean are the real ones within a
bound that stays far below `angleError`. -/

namespace Sys2Proof.Machine

/-! ### The series -/

/-- A shifted product of two fixed-point numbers, each rounded down, is rounded down too. -/
theorem shifted_product {p pow t2 : Nat} {P Q : ℝ} (hP0 : 0 ≤ P) (hP : P ≤ 3 / 7) (hQ : Q ≤ 9 / 49)
    (a0 : 0 ≤ P * 2 ^ p - pow) (a1 : P * 2 ^ p - pow ≤ 2) (b0 : 0 ≤ Q * 2 ^ p - t2)
    (b1 : Q * 2 ^ p - t2 ≤ 1) :
    0 ≤ P * Q * 2 ^ p - ((pow * t2) >>> p : Nat) ∧
      P * Q * 2 ^ p - ((pow * t2) >>> p : Nat) ≤ 2 := by
  have hU : (0 : ℝ) < 2 ^ p := by positivity
  rw [Nat.shiftRight_eq_div_pow]
  have hd := Nat.div_add_mod (pow * t2) (2 ^ p)
  have hm := Nat.mod_lt (pow * t2) (Nat.two_pow_pos p)
  generalize pow * t2 / 2 ^ p = h at *
  generalize hr : pow * t2 % 2 ^ p = r at *
  have hd' : (2 : ℝ) ^ p * h + r = pow * t2 := by exact_mod_cast hd
  have hm' : (r : ℝ) < 2 ^ p := by exact_mod_cast hm
  have hr0 : (0 : ℝ) ≤ r := Nat.cast_nonneg _
  have ht : (0 : ℝ) ≤ t2 := Nat.cast_nonneg _
  have hpow : (0 : ℝ) ≤ pow := Nat.cast_nonneg _
  generalize (2 : ℝ) ^ p = U at *
  constructor
  · have : 0 ≤ (P * Q * U - h) * U := by
      have : (P * Q * U - h) * U = P * U * (Q * U - t2) + (P * U - pow) * t2 + r := by
        linear_combination -hd'
      rw [this]
      positivity
    exact nonneg_of_mul_nonneg_left this hU
  · have : (P * Q * U - h) * U ≤ 2 * U := by
      have e : (P * Q * U - h) * U =
          P * U * (Q * U - t2) + (P * U - pow) * (Q * U) - (P * U - pow) * (Q * U - t2) + r := by
        linear_combination -hd'
      have h1 : P * U * (Q * U - t2) ≤ 3 / 7 * U * 1 := by gcongr
      have h2 : (P * U - pow) * (Q * U) ≤ 2 * (9 / 49 * U) := by
        have : Q * U ≤ 9 / 49 * U := by gcongr
        have hQ0 : 0 ≤ Q * U := by linarith
        exact mul_le_mul a1 this hQ0 (by norm_num)
      have h3 : 0 ≤ (P * U - pow) * (Q * U - t2) := mul_nonneg a0 b0
      rw [e]
      linarith
    exact le_of_mul_le_mul_right this hU

/-- The sum of the series' terms errs by at most three units a term. -/
theorem atanTerms_error {p t2 : Nat} {z : ℝ} (hz0 : 0 ≤ z) (hz : z ≤ 3 / 7)
    (b0 : 0 ≤ z ^ 2 * 2 ^ p - t2) (b1 : z ^ 2 * 2 ^ p - t2 ≤ 1) (fuel : Nat) :
    ∀ (k pow : Nat), 0 ≤ z ^ (2 * k + 1) * 2 ^ p - pow → z ^ (2 * k + 1) * 2 ^ p - pow ≤ 2 →
      |(atanTerms p t2 fuel k pow : ℝ) - 2 ^ p * ∑ i ∈ Finset.range fuel,
        (-1) ^ (k + i) * z ^ (2 * (k + i) + 1) / ((2 * (k + i) + 1 : Nat) : ℝ)| ≤ 3 * fuel := by
  have hz2 : z ^ 2 ≤ 9 / 49 := by nlinarith
  induction fuel with
  | zero => intro k pow _ _; simp [atanTerms]
  | succ fuel ih =>
    intro k pow a0 a1
    have hP0 : 0 ≤ z ^ (2 * k + 1) := by positivity
    have hP : z ^ (2 * k + 1) ≤ 3 / 7 := by
      calc z ^ (2 * k + 1) ≤ z ^ 1 := pow_le_pow_of_le_one hz0 (by linarith) (by omega)
        _ ≤ 3 / 7 := by simpa using hz
    obtain ⟨c0, c1⟩ := shifted_product hP0 hP hz2 a0 a1 b0 b1
    have hpe : z ^ (2 * k + 1) * z ^ 2 = z ^ (2 * (k + 1) + 1) := by ring
    rw [hpe] at c0 c1
    have h := ih (k + 1) _ c0 c1
    rw [Finset.sum_range_succ']
    simp only [atanTerms]
    set n : Nat := 2 * k + 1 with hn
    have hn1 : (1 : ℝ) ≤ (n : ℝ) := by exact_mod_cast (show 1 ≤ n by omega)
    have hdm := Nat.div_add_mod pow n
    have hmod := Nat.mod_lt pow (show 0 < n by omega)
    have hdm' : (n : ℝ) * (pow / n : Nat) + (pow % n : Nat) = pow := by exact_mod_cast hdm
    have hmod' : ((pow % n : Nat) : ℝ) ≤ n := by exact_mod_cast hmod.le
    have hmod0 : (0 : ℝ) ≤ (pow % n : Nat) := Nat.cast_nonneg _
    have hterm : |((pow / n : Nat) : ℝ) - 2 ^ p * (z ^ n / n)| ≤ 3 := by
      have e : ((pow / n : Nat) : ℝ) - 2 ^ p * (z ^ n / n) =
          -((z ^ n * 2 ^ p - pow) + (pow % n : Nat)) / n := by
        field_simp
        linear_combination hdm'
      rw [e, abs_div, abs_neg, abs_of_nonneg (by positivity), abs_of_pos (by linarith),
        div_le_iff₀ (by linarith)]
      linarith
    generalize hq : (pow / n : Nat) = q at *
    have hsum : ∀ i, (-1 : ℝ) ^ (k + (i + 1)) * z ^ (2 * (k + (i + 1)) + 1) /
        ((2 * (k + (i + 1)) + 1 : Nat) : ℝ) = (-1) ^ (k + 1 + i) * z ^ (2 * (k + 1 + i) + 1) /
        ((2 * (k + 1 + i) + 1 : Nat) : ℝ) := fun i => by
      rw [show k + (i + 1) = k + 1 + i by omega]
    simp only [hsum]
    set S := ∑ i ∈ Finset.range fuel, (-1 : ℝ) ^ (k + 1 + i) * z ^ (2 * (k + 1 + i) + 1) /
        ((2 * (k + 1 + i) + 1 : Nat) : ℝ)
    set A := atanTerms p t2 fuel (k + 1) ((pow * t2) >>> p)
    have hhead : |((if k % 2 = 0 then (q : Int) else -(q : Int) : Int) : ℝ) -
        2 ^ p * ((-1) ^ (k + 0) * z ^ (2 * (k + 0) + 1) / ((2 * (k + 0) + 1 : Nat) : ℝ))| ≤ 3 := by
      rw [Nat.add_zero, ← hn]
      rcases Nat.even_or_odd k with he | ho
      · rw [if_pos (Nat.even_iff.1 he), he.neg_one_pow, one_mul]
        exact_mod_cast hterm
      · rw [if_neg (by have := Nat.odd_iff.1 ho; omega), ho.neg_one_pow]
        push_cast
        rw [← abs_neg]
        convert hterm using 2
        ring
    push_cast
    calc _ = |(((if k % 2 = 0 then (q : Int) else -(q : Int) : Int) : ℝ) -
        2 ^ p * ((-1) ^ (k + 0) * z ^ (2 * (k + 0) + 1) / ((2 * (k + 0) + 1 : Nat) : ℝ))) +
        ((A : ℝ) - 2 ^ p * S)| := by congr 1; push_cast; ring
      _ ≤ 3 + 3 * fuel := (abs_add_le _ _).trans (add_le_add hhead h)
      _ = 3 * ((fuel : ℝ) + 1) := by ring

/-- What the arctangent series leaves out after `n` terms. -/
theorem arctan_tail {z : ℝ} (hz0 : 0 ≤ z) (hz : z ≤ 3 / 7) (n : Nat) :
    |Real.arctan z - ∑ i ∈ Finset.range n, (-1) ^ i * z ^ (2 * i + 1) / ((2 * i + 1 : Nat) : ℝ)| ≤
      2 * (3 / 7 : ℝ) ^ (2 * n + 1) := by
  have h1 := Real.hasSum_arctan (x := z) (by rw [Real.norm_eq_abs, abs_of_nonneg hz0]; linarith)
  have h2 := (hasSum_nat_add_iff' n).2 h1
  have hq0 : (0 : ℝ) ≤ (3 / 7) ^ 2 := by positivity
  have h3 := (hasSum_geometric_of_lt_one hq0 (by norm_num)).mul_left ((3 / 7 : ℝ) ^ (2 * n + 1))
  have h4 := h2.norm_le_of_bounded h3 (fun i => by
    rw [Real.norm_eq_abs, abs_div, abs_mul, abs_pow, abs_neg, abs_one, one_pow, one_mul, abs_pow,
      abs_of_nonneg hz0, ← pow_mul, ← pow_add, Nat.abs_cast]
    have hd : (1 : ℝ) ≤ ((2 * (i + n) + 1 : Nat) : ℝ) := by exact_mod_cast (by omega)
    calc z ^ (2 * (i + n) + 1) / ((2 * (i + n) + 1 : Nat) : ℝ) ≤ z ^ (2 * (i + n) + 1) :=
          div_le_self (by positivity) hd
      _ ≤ (3 / 7) ^ (2 * (i + n) + 1) := by gcongr
      _ = _ := by congr 1; ring)
  rw [Real.norm_eq_abs] at h4
  refine h4.trans ?_
  rw [mul_comm]
  gcongr
  norm_num

/-- The fixed-point series is the arctangent within three units a term, and one for its tail. -/
theorem atanSeries_error {p fuel : Nat} (htiny : (2 : ℝ) ^ p * (2 * (3 / 7) ^ (2 * fuel + 1)) ≤ 1)
    {t : Nat} (h : 7 * t ≤ 3 * 2 ^ p) :
    |(atanSeries p fuel t : ℝ) - 2 ^ p * Real.arctan (t / 2 ^ p)| ≤
      3 * fuel + 1 := by
  have hU : (0 : ℝ) < 2 ^ p := by positivity
  set z : ℝ := t / 2 ^ p with hzd
  have hzU : z * 2 ^ p = t := by rw [hzd]; field_simp
  have hz0 : 0 ≤ z := by positivity
  have hz : z ≤ 3 / 7 := by
    rw [hzd, div_le_iff₀ hU]
    have : (7 : ℝ) * t ≤ 3 * 2 ^ p := by exact_mod_cast h
    linarith
  have hsq : z ^ 2 * 2 ^ p = (t : ℝ) * t / 2 ^ p := by
    rw [hzd]; field_simp
  have hdm := Nat.div_add_mod (t * t) (2 ^ p)
  have hmod := Nat.mod_lt (t * t) (Nat.two_pow_pos p)
  have hdm' : (2 : ℝ) ^ p * (t * t / 2 ^ p : Nat) + (t * t % 2 ^ p : Nat) =
    t * t := by exact_mod_cast hdm
  have hmod' : ((t * t % 2 ^ p : Nat) : ℝ) ≤ 2 ^ p := by exact_mod_cast hmod.le
  have hmod0 : (0 : ℝ) ≤ (t * t % 2 ^ p : Nat) := Nat.cast_nonneg _
  have hdiff : z ^ 2 * 2 ^ p - ((t * t) >>> p : Nat) =
      (t * t % 2 ^ p : Nat) / 2 ^ p := by
    rw [Nat.shiftRight_eq_div_pow, hsq]
    field_simp
    linear_combination -hdm'
  have b0 : 0 ≤ z ^ 2 * 2 ^ p - ((t * t) >>> p : Nat) := by
    rw [hdiff]; positivity
  have b1 : z ^ 2 * 2 ^ p - ((t * t) >>> p : Nat) ≤ 1 := by
    rw [hdiff, div_le_one hU]; exact hmod'
  have key := atanTerms_error hz0 hz b0 b1 fuel 0 t (by simp [hzU]) (by simp [hzU])
  simp only [Nat.zero_add] at key
  have tail := arctan_tail hz0 hz fuel
  have hA0 : 0 ≤ Real.arctan z := Real.arctan_nonneg.2 hz0
  set S := ∑ i ∈ Finset.range fuel, (-1 : ℝ) ^ i * z ^ (2 * i + 1) / ((2 * i + 1 : Nat) : ℝ)
  unfold atanSeries
  generalize atanTerms p ((t * t) >>> p) fuel 0 t = T at *
  have hT : |(T : ℝ) - 2 ^ p * Real.arctan z| ≤ 3 * fuel + 1 := by
    calc |(T : ℝ) - 2 ^ p * Real.arctan z| =
          |((T : ℝ) - 2 ^ p * S) + 2 ^ p * (S - Real.arctan z)| := by
            congr 1; ring
      _ ≤ |(T : ℝ) - 2 ^ p * S| + |2 ^ p * (S - Real.arctan z)| := abs_add_le _ _
      _ ≤ 3 * fuel + 1 := by
          refine add_le_add key ?_
          rw [abs_mul, abs_of_pos hU, abs_sub_comm]
          exact (mul_le_mul_of_nonneg_left tail hU.le).trans htiny
  rcases le_or_gt 0 T with h0 | h0
  · have : ((T.toNat : Nat) : ℝ) = (T : ℝ) := by exact_mod_cast Int.toNat_of_nonneg h0
    rwa [this]
  · have h1 : T.toNat = 0 := by omega
    have h2 : (T : ℝ) < 0 := by exact_mod_cast h0
    have h3 := mul_nonneg hU.le hA0
    have := (abs_le.1 hT).1
    rw [h1, Nat.cast_zero, zero_sub, abs_neg, abs_of_nonneg h3]
    linarith

set_option exponentiation.threshold 2200 in
/-- The tail of the series is below a unit at the model's sizes. -/
theorem angle_tail : (2 : ℝ) ^ angleBits * (2 * (3 / 7) ^ (2 * 540 + 1)) ≤ 1 := by
  unfold angleBits
  have h9 : (3 / 7 : ℝ) ^ 9 ≤ (1 / 2) ^ 11 := by norm_num
  have hone : (2 : ℝ) ^ 1320 * (1 / 2) ^ 1320 = 1 := by rw [← mul_pow]; norm_num
  calc 2 ^ 1280 * (2 * (3 / 7 : ℝ) ^ (2 * 540 + 1))
      ≤ 2 ^ 1280 * (2 * (3 / 7 : ℝ) ^ (9 * 120)) := by
        gcongr 2 ^ 1280 * (2 * ?_)
        exact pow_le_pow_of_le_one (by norm_num) (by norm_num) (by norm_num)
    _ = 2 ^ 1281 * ((3 / 7 : ℝ) ^ 9) ^ 120 := by
        rw [pow_mul, ← mul_assoc, ← pow_succ]
    _ ≤ 2 ^ 1320 * ((1 / 2) ^ 11) ^ 120 := by
        gcongr
        · norm_num
        · norm_num
    _ = 1 := by rw [← pow_mul]; exact hone

/-! ### Ratios and angles -/

/-- Arctangents lie no farther apart than their arguments. -/
theorem arctan_lipschitz (a b : ℝ) : |Real.arctan a - Real.arctan b| ≤ |a - b| := by
  have := Convex.norm_image_sub_le_of_norm_deriv_le (f := Real.arctan) (s := Set.univ) (x := b)
    (y := a) (C := 1) (fun x _ => Real.differentiableAt_arctan x) (fun x _ => by
      rw [Real.deriv_arctan, Real.norm_eq_abs, abs_of_pos (by positivity)]
      exact div_le_one_of_le₀ (by nlinarith [sq_nonneg x]) (by positivity)) convex_univ
      (Set.mem_univ _) (Set.mem_univ _)
  simpa [Real.norm_eq_abs] using this

/-- The fixed-point arctangent of a quotient rounded down. -/
theorem atanSeries_div {n d : Nat} (hd : 0 < d) (h : 7 * n ≤ 3 * d) :
    |(atanSeries angleBits 540 (n * 2 ^ angleBits / d) : ℝ) -
      2 ^ angleBits * Real.arctan (n / d)| ≤ 1622 := by
  have tail := angle_tail
  generalize angleBits = p at *
  have hU : (0 : ℝ) < 2 ^ p := by positivity
  have hdr : (0 : ℝ) < d := by exact_mod_cast hd
  have hdm := Nat.div_add_mod (n * 2 ^ p) d
  have hmod := Nat.mod_lt (n * 2 ^ p) hd
  have hle : 7 * (n * 2 ^ p / d) ≤ 3 * 2 ^ p := by
    have h1 : d * (7 * (n * 2 ^ p / d)) ≤ d * (3 * 2 ^ p) := by
      calc d * (7 * (n * 2 ^ p / d)) = 7 * (d * (n * 2 ^ p / d)) := by ring
        _ ≤ 7 * (n * 2 ^ p) := by omega
        _ = 7 * n * 2 ^ p := by ring
        _ ≤ 3 * d * 2 ^ p := Nat.mul_le_mul_right _ h
        _ = d * (3 * 2 ^ p) := by ring
    exact Nat.le_of_mul_le_mul_left h1 hd
  have h1 := atanSeries_error tail hle
  have hdm' : (d : ℝ) * (n * 2 ^ p / d : Nat) + (n * 2 ^ p % d : Nat) = n * 2 ^ p := by
    exact_mod_cast hdm
  have hmod' : ((n * 2 ^ p % d : Nat) : ℝ) ≤ d := by exact_mod_cast hmod.le
  have hmod0 : (0 : ℝ) ≤ (n * 2 ^ p % d : Nat) := Nat.cast_nonneg _
  have h2 : |(2 : ℝ) ^ p * Real.arctan ((n * 2 ^ p / d : Nat) / 2 ^ p) -
      2 ^ p * Real.arctan (n / d)| ≤ 1 := by
    rw [← mul_sub, abs_mul, abs_of_pos hU]
    calc 2 ^ p * |Real.arctan ((n * 2 ^ p / d : Nat) / 2 ^ p) - Real.arctan (n / d)|
        ≤ 2 ^ p * |((n * 2 ^ p / d : Nat) : ℝ) / 2 ^ p - n / d| :=
          mul_le_mul_of_nonneg_left (arctan_lipschitz _ _) hU.le
      _ = (n * 2 ^ p % d : Nat) / d := by
          have : ((n * 2 ^ p / d : Nat) : ℝ) / 2 ^ p - n / d =
              -((n * 2 ^ p % d : Nat) / d / 2 ^ p) := by
            field_simp; linear_combination hdm'
          rw [this, abs_neg, abs_of_nonneg (by positivity)]
          field_simp
      _ ≤ 1 := by rw [div_le_one hdr]; exact hmod'
  calc _ ≤ _ := abs_sub_le _ ((2 : ℝ) ^ p * Real.arctan ((n * 2 ^ p / d : Nat) / 2 ^ p)) _
    _ ≤ (3 * (540 : Nat) + 1) + 1 := add_le_add h1 h2
    _ = 1622 := by norm_num

/-- A difference of natural numbers near a difference that is not negative. -/
theorem natSub_error {m n : Nat} {a b d e : ℝ} (hm : |(m : ℝ) - a| ≤ d) (hn : |(n : ℝ) - b| ≤ e)
    (h : b ≤ a) : |((m - n : Nat) : ℝ) - (a - b)| ≤ d + e := by
  have hm' := abs_le.1 hm
  have hn' := abs_le.1 hn
  rcases Nat.le_total n m with hle | hle
  · rw [Nat.cast_sub hle, abs_le]
    constructor <;> linarith [hm'.1, hm'.2, hn'.1, hn'.2]
  · have : (m : ℝ) ≤ n := by exact_mod_cast hle
    rw [Nat.sub_eq_zero_of_le hle, Nat.cast_zero, abs_le]
    constructor <;> linarith [hm'.1, hm'.2, hn'.1, hn'.2]

/-- A multiple of a number near another. -/
theorem natMul_error {m : Nat} {a d : ℝ} (k : Nat) (hm : |(m : ℝ) - a| ≤ d) :
    |((k * m : Nat) : ℝ) - k * a| ≤ k * d := by
  push_cast
  rw [← mul_sub, abs_mul, Nat.abs_cast]
  gcongr

/-- Machin's formula in fixed point. -/
theorem quarterPi_error :
    |(quarterPi angleBits 540 : ℝ) - 2 ^ angleBits * (Real.pi / 4)| ≤ 8110 := by
  have h5 := natMul_error 4 (atanSeries_div (n := 1) (d := 5) (by decide) (by decide))
  have h239 := atanSeries_div (n := 1) (d := 239) (by decide) (by decide)
  rw [Nat.one_mul] at h5 h239
  have e : Real.pi / 4 = ((4 : Nat) : ℝ) * Real.arctan (((1 : Nat) : ℝ) / (5 : Nat)) -
      Real.arctan (((1 : Nat) : ℝ) / (239 : Nat)) := by
    rw [← Real.four_mul_arctan_inv_5_sub_arctan_inv_239]; norm_num
  rw [e, mul_sub, mul_left_comm]
  have hU : (0 : ℝ) ≤ 2 ^ angleBits := by positivity
  have hpos := e ▸ (by positivity : (0 : ℝ) ≤ Real.pi / 4)
  have := natSub_error h5 h239 (by
    rw [mul_left_comm]
    exact mul_le_mul_of_nonneg_left (sub_nonneg.1 hpos) hU)
  unfold quarterPi
  calc _ ≤ _ := this
    _ = 8110 := by norm_num

/-- The arctangents of a ratio and of its complement make π/4. -/
theorem arctan_complement {y x : ℝ} (hy : 0 ≤ y) (hx : 0 < x) (h : y ≤ x) :
    Real.arctan (y / x) = Real.pi / 4 - Real.arctan ((x - y) / (x + y)) := by
  have h1 : (x - y) / (x + y) ≤ 1 := by rw [div_le_one (by linarith)]; linarith
  have h2 : y / x ≤ 1 := by rw [div_le_one hx]; exact h
  have h3 : y / x * ((x - y) / (x + y)) < 1 := by
    rw [div_mul_div_comm, div_lt_one (by positivity)]
    nlinarith
  have := Real.arctan_add h3
  rw [eq_sub_iff_add_eq, this, ← Real.arctan_one]
  congr 1
  rw [div_eq_one_iff_eq (by linarith)]
  field_simp
  ring

/-- The angle of a ratio of at most 1. -/
theorem atanRatio_error {y x : Nat} (hx : 0 < x) (h : y ≤ x) :
    |(atanRatio y x : ℝ) - 2 ^ angleBits * Real.arctan (y / x)| ≤ 9732 := by
  unfold atanRatio
  split
  · rw [Nat.shiftLeft_eq]
    exact (atanSeries_div hx (by omega)).trans (by norm_num)
  · rename_i h5
    rw [Nat.shiftLeft_eq]
    have h1 := atanSeries_div (n := x - y) (d := x + y) (by omega) (by omega)
    have hy0 : (0 : ℝ) ≤ y := Nat.cast_nonneg _
    have hx0 : (0 : ℝ) < x := by exact_mod_cast hx
    have hyx : (y : ℝ) ≤ x := by exact_mod_cast h
    rw [Nat.cast_sub h, Nat.cast_add] at h1
    have e := arctan_complement hy0 hx0 hyx
    have hpos : 0 ≤ Real.arctan ((y : ℝ) / x) := Real.arctan_nonneg.2 (by positivity)
    have := natSub_error quarterPi_error h1 (by
      rw [e] at hpos
      exact mul_le_mul_of_nonneg_left (sub_nonneg.1 hpos) (by positivity))
    rw [← mul_sub, ← e] at this
    exact this.trans (by norm_num)

/-- The angle in the first quadrant. -/
theorem angleOf_error {y x : Nat} (hx : 0 < x) :
    |(angleOf y x false : ℝ) - 2 ^ angleBits * Real.arctan (y / x)| ≤ 25952 := by
  unfold angleOf
  simp only [Bool.false_eq_true, if_false]
  split
  · exact (atanRatio_error hx ‹_›).trans (by norm_num)
  · rename_i h
    have hx0 : (0 : ℝ) < x := by exact_mod_cast hx
    have hy0 : (0 : ℝ) < y := by exact_mod_cast (show 0 < y by omega)
    have h1 := atanRatio_error (y := x) (x := y) (by omega) (by omega)
    have h2 := natMul_error 2 quarterPi_error
    have e : Real.arctan ((y : ℝ) / x) = Real.pi / 2 - Real.arctan ((x : ℝ) / y) := by
      rw [← Real.arctan_inv_of_pos (by positivity), inv_div]
    have hpos : 0 ≤ Real.arctan ((y : ℝ) / x) := Real.arctan_nonneg.2 (by positivity)
    have hU : (0 : ℝ) ≤ 2 ^ angleBits := by positivity
    have h3 : 2 ^ angleBits * Real.arctan ((x : ℝ) / y) ≤
        ((2 : Nat) : ℝ) * (2 ^ angleBits * (Real.pi / 4)) := by
      rw [e] at hpos
      have := mul_le_mul_of_nonneg_left (sub_nonneg.1 hpos) hU
      push_cast; linarith
    have := natSub_error h2 h1 h3
    rw [e, mul_sub]
    calc _ = _ := by congr 2; push_cast; ring
      _ ≤ _ := this
      _ = 25952 := by norm_num

/-- The angle in the second quadrant. -/
theorem angleOf_error_neg {y x : Nat} (hx : 0 < x) :
    |(angleOf y x true : ℝ) - 2 ^ angleBits * (Real.pi - Real.arctan (y / x))| ≤ 58392 := by
  have h1 := angleOf_error (y := y) hx
  have h2 := natMul_error 4 quarterPi_error
  have hU : (0 : ℝ) ≤ 2 ^ angleBits := by positivity
  have h3 : 2 ^ angleBits * Real.arctan ((y : ℝ) / x) ≤
      ((4 : Nat) : ℝ) * (2 ^ angleBits * (Real.pi / 4)) := by
    have h := Real.arctan_lt_pi_div_two ((y : ℝ) / x)
    have hp := Real.pi_pos
    have := mul_le_mul_of_nonneg_left (show Real.arctan ((y : ℝ) / x) ≤ Real.pi by linarith) hU
    push_cast; linarith
  have e : angleOf y x true = 4 * quarterPi angleBits 540 - angleOf y x false := by
    unfold angleOf; simp
  have := natSub_error h2 h1 h3
  rw [e, mul_sub]
  calc _ = _ := by congr 2; push_cast; ring
    _ ≤ _ := this
    _ = 58392 := by norm_num

end Sys2Proof.Machine
end

