-- ==== Sys2Proof/Laws/Float.lean ====
section
/-! SUPPORT. What packing, multiplying and adding do to the size of a binary64 number, in powers of
two: the lemmas that carry a bound on a value to a bound on its encoding and back. -/

namespace Sys2Proof.Machine

theorem two_pow_le {a b : Nat} (h : a ≤ b) : 2 ^ a ≤ 2 ^ b := Nat.pow_le_pow_right (by decide) h

/-! ### The fields of an encoding -/

theorem fMag_lt (a : F64) : fMag a < 2 ^ 63 := Nat.mod_lt _ (by decide)

theorem fFrac_lt (a : F64) : fFrac a < 2 ^ 52 := Nat.mod_lt _ (by decide)

theorem fMag_eq (a : F64) : fMag a = fExp a * 2 ^ 52 + fFrac a := by
  unfold fMag fExp fFrac; omega

theorem fMag_withSign (neg : Bool) {mag : Nat} (h : mag < 2 ^ 63) :
    fMag (fWithSign neg mag) = mag := by
  unfold fMag fWithSign
  rw [BitVec.toNat_ofNat]
  split <;> omega

theorem fNeg_withSign (neg : Bool) {mag : Nat} (h : mag < 2 ^ 63) :
    fNeg (fWithSign neg mag) = neg := by
  unfold fNeg fWithSign
  rw [BitVec.msb_eq_decide, BitVec.toNat_ofNat]
  cases neg <;> simp <;> omega

theorem fFixAbs_of_exp_zero {a : F64} (h : fExp a = 0) : fFixAbs a = fFrac a := by
  simp [fFixAbs, fMant, fQuantum, h]

theorem fFixAbs_of_exp_pos {a : F64} (h : fExp a ≠ 0) :
    fFixAbs a = (2 ^ 52 + fFrac a) * 2 ^ (fExp a - 1) := by
  unfold fFixAbs fMant fQuantum
  rw [if_neg h, if_neg h, Nat.shiftLeft_eq]
  congr 2
  omega

/-- An encoding from `j` binades up is at least the least number of binade `j`. -/
theorem le_fFixAbs {a : F64} {j : Nat} (hj : 1 ≤ j) (h : j * 2 ^ 52 ≤ fMag a) :
    2 ^ (j + 51) ≤ fFixAbs a := by
  have h1 := fMag_eq a
  have h2 := fFrac_lt a
  have h3 : j ≤ fExp a := by omega
  rw [fFixAbs_of_exp_pos (by omega)]
  calc 2 ^ (j + 51) ≤ 2 ^ (52 + (fExp a - 1)) := Nat.pow_le_pow_right (by decide) (by omega)
    _ = 2 ^ 52 * 2 ^ (fExp a - 1) := Nat.pow_add ..
    _ ≤ _ := Nat.mul_le_mul_right _ (by omega)

/-- An encoding of at most `j` binades is at most the least number of binade `j`. -/
theorem fFixAbs_le {a : F64} {j : Nat} (hj : 1 ≤ j) (h : fMag a ≤ j * 2 ^ 52) :
    fFixAbs a ≤ 2 ^ (j + 51) := by
  have h1 := fMag_eq a
  have h2 := fFrac_lt a
  by_cases h0 : fExp a = 0
  · rw [fFixAbs_of_exp_zero h0]
    calc fFrac a ≤ 2 ^ 52 := by omega
      _ ≤ 2 ^ (j + 51) := Nat.pow_le_pow_right (by decide) (by omega)
  · rw [fFixAbs_of_exp_pos h0]
    rcases Nat.lt_or_ge (fExp a) j with hlt | hge
    · calc (2 ^ 52 + fFrac a) * 2 ^ (fExp a - 1) ≤ 2 ^ 53 * 2 ^ (fExp a - 1) :=
            Nat.mul_le_mul_right _ (by omega)
        _ = 2 ^ (53 + (fExp a - 1)) := (Nat.pow_add ..).symm
        _ ≤ 2 ^ (j + 51) := Nat.pow_le_pow_right (by decide) (by omega)
    · have he : fExp a = j := by omega
      have hf : fFrac a = 0 := by omega
      rw [hf, he, Nat.add_zero, ← Nat.pow_add]
      exact Nat.pow_le_pow_right (by decide) (by omega)

/-! ### Packing -/

/-- The exponent of the last bit that packing keeps (before a carry). -/
def packQuantum (m : Nat) (e : Int) : Int := max (e + (Nat.log2 m : Int) - 52) (-1074)

/-- The rounded significand that packing keeps. -/
def packMant (m : Nat) (e : Int) : Nat :=
  if packQuantum m e ≤ e then m <<< (e - packQuantum m e).toNat
  else roundShift m (packQuantum m e - e).toNat

theorem fPackMag_eq {m : Nat} (h : m ≠ 0) (e : Int) :
    fPackMag m e =
      min ((packQuantum m e + 1074).toNat * 2 ^ 52 + packMant m e) 0x7FF0000000000000 := by
  unfold fPackMag
  rw [if_neg h]
  rfl

theorem fPackMag_le (m : Nat) (e : Int) : fPackMag m e ≤ 0x7FF0000000000000 := by
  unfold fPackMag
  split
  · omega
  · exact Nat.min_le_right _ _

theorem fMag_fPack (neg : Bool) (m : Nat) (e : Int) : fMag (fPack neg m e) = fPackMag m e :=
  fMag_withSign _ (by have := fPackMag_le m e; omega)

theorem fNeg_fPack (neg : Bool) (m : Nat) (e : Int) : fNeg (fPack neg m e) = neg :=
  fNeg_withSign _ (by have := fPackMag_le m e; omega)

theorem fIsNaN_fPack (neg : Bool) (m : Nat) (e : Int) : fIsNaN (fPack neg m e) = false := by
  unfold fIsNaN
  rw [fMag_fPack]
  have := fPackMag_le m e
  simp; omega

/-- Rounding a shift leaves at most half a unit of error. -/
theorem roundShift_error (m : Nat) {k : Nat} (hk : 0 < k) :
    2 * roundShift m k * 2 ^ k ≤ 2 * m + 2 ^ k ∧ 2 * m ≤ 2 * roundShift m k * 2 ^ k + 2 ^ k := by
  obtain ⟨k, rfl⟩ : ∃ j, k = j + 1 := ⟨k - 1, by omega⟩
  have hr : m % 2 ^ (k + 1) < 2 ^ (k + 1) := Nat.mod_lt _ (Nat.pow_pos (by decide))
  have hd : 2 ^ (k + 1) * (m / 2 ^ (k + 1)) + m % 2 ^ (k + 1) = m := Nat.div_add_mod ..
  have hp : 2 ^ (k + 1) = 2 * 2 ^ k := by rw [Nat.pow_succ]; omega
  unfold roundShift
  rw [Nat.shiftRight_eq_div_pow, Nat.add_sub_cancel]
  simp only []
  generalize m / 2 ^ (k + 1) = h at *
  generalize m % 2 ^ (k + 1) = r at *
  rw [hp] at hr hd ⊢
  generalize 2 ^ k = p at *
  have e1 : 2 * h * (2 * p) = 2 * (2 * p * h) := by ring
  have e2 : 2 * (h + 1) * (2 * p) = 2 * (2 * p * h) + 4 * p := by ring
  split
  · rw [e2]; omega
  · rw [e1]; omega

/-- Rounding a shift of a number between two powers of two stays between them. -/
theorem roundShift_bounds {m k a b : Nat} (ha : 2 ^ (a + k) ≤ m) (hb : m < 2 ^ (b + k)) :
    2 ^ a ≤ roundShift m k ∧ roundShift m k ≤ 2 ^ b := by
  have h1 : 2 ^ a ≤ m >>> k := by
    rw [Nat.shiftRight_eq_div_pow, Nat.le_div_iff_mul_le (Nat.pow_pos (by decide)), ← Nat.pow_add]
    exact ha
  have h2 : m >>> k < 2 ^ b := by
    rw [Nat.shiftRight_eq_div_pow, Nat.div_lt_iff_lt_mul (Nat.pow_pos (by decide)), ← Nat.pow_add]
    exact hb
  unfold roundShift
  simp only []
  split <;> omega

/-- The kept significand has 53 bits, or 54 after a carry; below the normal range it has fewer. -/
theorem packMant_bounds {m : Nat} (h : m ≠ 0) (e : Int) :
    packMant m e ≤ 2 ^ 53 ∧ (-1022 ≤ e + (Nat.log2 m : Int) → 2 ^ 52 ≤ packMant m e) ∧
      (e + (Nat.log2 m : Int) < -1022 → packMant m e ≤ 2 ^ 52) := by
  have h1 : 2 ^ Nat.log2 m ≤ m := Nat.log2_self_le h
  have h2 : m < 2 ^ (Nat.log2 m + 1) := Nat.lt_log2_self
  unfold packMant
  by_cases hn : -1022 ≤ e + (Nat.log2 m : Int)
  · have hq : packQuantum m e = e + Nat.log2 m - 52 := by unfold packQuantum; omega
    rw [hq]
    split
    · have hs : (e - (e + (Nat.log2 m : Int) - 52)).toNat = 52 - Nat.log2 m := by omega
      rw [hs, Nat.shiftLeft_eq]
      have hl : 2 ^ Nat.log2 m * 2 ^ (52 - Nat.log2 m) = 2 ^ 52 := by
        rw [← Nat.pow_add]; congr 1; omega
      have hu : 2 ^ (Nat.log2 m + 1) * 2 ^ (52 - Nat.log2 m) = 2 ^ 53 := by
        rw [← Nat.pow_add]; congr 1; omega
      have := Nat.mul_le_mul_right (2 ^ (52 - Nat.log2 m)) h1
      have := Nat.mul_le_mul_right (2 ^ (52 - Nat.log2 m)) h2.le
      omega
    · have hs : (e + (Nat.log2 m : Int) - 52 - e).toNat = Nat.log2 m - 52 := by omega
      rw [hs]
      have := roundShift_bounds (m := m) (k := Nat.log2 m - 52) (a := 52) (b := 53)
        (by rw [show 52 + (Nat.log2 m - 52) = Nat.log2 m by omega]; exact h1)
        (by rw [show 53 + (Nat.log2 m - 52) = Nat.log2 m + 1 by omega]; exact h2)
      omega
  · have hq : packQuantum m e = -1074 := by unfold packQuantum; omega
    rw [hq]
    have key : ∀ x, x ≤ 2 ^ 52 → x ≤ 2 ^ 53 ∧ (-1022 ≤ e + (Nat.log2 m : Int) → 2 ^ 52 ≤ x) ∧
        (e + (Nat.log2 m : Int) < -1022 → x ≤ 2 ^ 52) := fun x hx => by omega
    apply key
    split
    · rw [Nat.shiftLeft_eq]
      calc m * 2 ^ (e - -1074).toNat ≤ 2 ^ (Nat.log2 m + 1) * 2 ^ (e - -1074).toNat :=
            Nat.mul_le_mul_right _ h2.le
        _ = 2 ^ (Nat.log2 m + 1 + (e - -1074).toNat) := (Nat.pow_add ..).symm
        _ ≤ 2 ^ 52 := Nat.pow_le_pow_right (by decide) (by omega)
    · have hlt : m < 2 ^ (52 + (-1074 - e).toNat) :=
        Nat.lt_of_lt_of_le h2 (Nat.pow_le_pow_right (by decide) (by omega))
      have : m >>> (-1074 - e).toNat < 2 ^ 52 := by
        rw [Nat.shiftRight_eq_div_pow, Nat.div_lt_iff_lt_mul (Nat.pow_pos (by decide)),
          ← Nat.pow_add]
        exact hlt
      unfold roundShift
      simp only []
      split <;> omega

/-- A number below binade `j + 1` packs to at most the least encoding of binade `j + 1`. -/
theorem fPackMag_le_of_log {m : Nat} (h : m ≠ 0) {e : Int} {j : Nat} (hj : 1 ≤ j)
    (hl : e + (Nat.log2 m : Int) + 1024 ≤ j) : fPackMag m e ≤ j * 2 ^ 52 := by
  obtain ⟨h1, -, h3⟩ := packMant_bounds h e
  rw [fPackMag_eq h]
  refine (Nat.min_le_left _ _).trans ?_
  by_cases hn : -1022 ≤ e + (Nat.log2 m : Int)
  · have hq : (packQuantum m e + 1074).toNat + 2 ≤ j := by unfold packQuantum; omega
    omega
  · have hq : (packQuantum m e + 1074).toNat = 0 := by unfold packQuantum; omega
    have := h3 (by omega)
    omega

/-- A number from binade `j` up packs to at least the least encoding of binade `j`. -/
theorem le_fPackMag_of_log {m : Nat} (h : m ≠ 0) {e : Int} {j : Nat} (hj : 1 ≤ j)
    (hj' : j ≤ 2047) (hl : (j : Int) ≤ e + (Nat.log2 m : Int) + 1023) :
    j * 2 ^ 52 ≤ fPackMag m e := by
  obtain ⟨-, h2, -⟩ := packMant_bounds h e
  rw [fPackMag_eq h]
  have hq : j ≤ (packQuantum m e + 1074).toNat + 1 := by unfold packQuantum; omega
  have := h2 (by omega)
  exact Nat.le_min.2 ⟨by omega, by omega⟩

/-- A packed finite number is its significand in its quantum. -/
theorem fFixAbs_fPack {neg : Bool} {m : Nat} {e : Int} (h : m ≠ 0)
    (hf : fIsFinite (fPack neg m e) = true) :
    fFixAbs (fPack neg m e) = packMant m e * 2 ^ (packQuantum m e + 1074).toNat := by
  obtain ⟨h1, h2, h3⟩ := packMant_bounds h e
  unfold fIsFinite at hf
  have hm := fMag_eq (fPack neg m e)
  have hl := fFrac_lt (fPack neg m e)
  rw [fMag_fPack] at hf hm
  rw [fPackMag_eq h] at hf hm
  have hf := of_decide_eq_true hf
  have hr : (packQuantum m e + 1074).toNat = 0 ∨ 2 ^ 52 ≤ packMant m e := by
    by_cases hn : -1022 ≤ e + (Nat.log2 m : Int)
    · exact .inr (h2 hn)
    · left; unfold packQuantum; omega
  generalize (packQuantum m e + 1074).toNat = r at *
  generalize packMant m e = x at *
  have hm : r * 2 ^ 52 + x = fExp (fPack neg m e) * 2 ^ 52 + fFrac (fPack neg m e) := by omega
  by_cases h0 : fExp (fPack neg m e) = 0
  · rw [fFixAbs_of_exp_zero h0]
    have : r = 0 := by omega
    subst this
    omega
  · rw [fFixAbs_of_exp_pos h0]
    by_cases hc : x = 2 ^ 53
    · have hE : fExp (fPack neg m e) - 1 = r + 1 := by omega
      have hF : fFrac (fPack neg m e) = 0 := by omega
      rw [hE, hF, hc, Nat.pow_succ 2 r]
      omega
    · have hE : fExp (fPack neg m e) - 1 = r := by omega
      have hF : 2 ^ 52 + fFrac (fPack neg m e) = x := by omega
      rw [hE, hF]

/-- Packing `m · 2 ^ (-1074 - d)` errs by at most half of `2 ^ -1074`, or by one part in
`2 ^ 53`. -/
theorem fFixAbs_fPack_error {neg : Bool} {m d : Nat} (hd : 0 < d)
    (hf : fIsFinite (fPack neg m (-1074 - (d : Int))) = true) :
    let err := ((fFixAbs (fPack neg m (-1074 - (d : Int))) : Int) * 2 ^ d - m).natAbs
    2 * err ≤ 2 ^ d ∨ err * 2 ^ 53 ≤ m := by
  intro err
  by_cases h : m = 0
  · subst h
    right
    simp only [err]
    rw [show fPack neg 0 (-1074 - (d : Int)) = fWithSign neg 0 by simp [fPack, fPackMag],
      show fFixAbs (fWithSign neg 0) = 0 by cases neg <;> decide]
    simp
  · have hx := fFixAbs_fPack h hf
    simp only [err]
    rw [hx]
    set q := packQuantum m (-1074 - (d : Int)) with hq
    have hq0 : -1074 ≤ q := by rw [hq]; unfold packQuantum; omega
    have hk : (q - (-1074 - (d : Int))).toNat = (q + 1074).toNat + d := by omega
    have hmant : packMant m (-1074 - (d : Int)) = roundShift m ((q + 1074).toNat + d) := by
      unfold packMant
      rw [← hq, if_neg (by omega), hk]
    rw [hmant]
    obtain ⟨e1, e2⟩ := roundShift_error m (k := (q + 1074).toNat + d) (by omega)
    set r := (q + 1074).toNat with hr
    have e3 : roundShift m (r + d) * 2 ^ r * 2 ^ d = roundShift m (r + d) * 2 ^ (r + d) := by
      rw [Nat.pow_add, Nat.mul_assoc]
    have e4 : (((roundShift m (r + d) * 2 ^ r : Nat) : Int) * 2 ^ d - m).natAbs * 2 ≤
        2 ^ (r + d) := by
      have : ((roundShift m (r + d) * 2 ^ r : Nat) : Int) * 2 ^ d =
          ((roundShift m (r + d) * 2 ^ (r + d) : Nat) : Int) := by
        rw [← e3]; push_cast; ring
      rw [this]
      have e1' : 2 * (roundShift m (r + d) * 2 ^ (r + d)) ≤ 2 * m + 2 ^ (r + d) := by
        rw [← Nat.mul_assoc]; exact e1
      have e2' : 2 * m ≤ 2 * (roundShift m (r + d) * 2 ^ (r + d)) + 2 ^ (r + d) := by
        rw [← Nat.mul_assoc]; exact e2
      generalize roundShift m (r + d) * 2 ^ (r + d) = y at *
      generalize 2 ^ (r + d) = p at *
      omega
    by_cases hz : r = 0
    · left
      rw [hz, Nat.zero_add] at e4 ⊢
      rw [Nat.mul_comm]
      exact e4
    · right
      have hl : r + d + 52 = Nat.log2 m := by
        rw [hr] at hz ⊢
        rw [hq] at hz ⊢
        unfold packQuantum at *
        omega
      have h1 : 2 ^ Nat.log2 m ≤ m := Nat.log2_self_le h
      rw [← hl, Nat.pow_add] at h1
      have h2 := Nat.mul_le_mul_right (2 ^ 52) e4
      calc _ = (((roundShift m (r + d) * 2 ^ r : Nat) : Int) * 2 ^ d - m).natAbs * 2 * 2 ^ 52 := by
              rw [Nat.mul_assoc, ← Nat.pow_succ']
        _ ≤ 2 ^ (r + d) * 2 ^ 52 := h2
        _ ≤ m := h1

end Sys2Proof.Machine
end

