-- ==== Sys2Proof/Laws/Round.lean ====
section
/-! SUPPORT. The operations of 00_scope.md R13 round to the nearest binary64 number, ties to even:
packing does, also for a real number that the packed integer only stands for, a quotient or a root
whose last bit is sticky. Sizes are in units of `2 ^ -1074`. -/

namespace Sys2Proof.Machine

/-- The integer `m` compares with every multiple of `2 ^ d` as the real number `y` does. -/
def Follows (d m : Nat) (y : ℝ) : Prop :=
  ∀ b : Nat, (2 ^ d * b ≤ m ↔ ((2 ^ d * b : Nat) : ℝ) ≤ y) ∧
    (m ≤ 2 ^ d * b ↔ y ≤ ((2 ^ d * b : Nat) : ℝ))

theorem follows_self (m : Nat) : Follows 0 m m := fun b => by simp

theorem Follows.le {d m : Nat} {y : ℝ} (h : Follows d m y) {b : Nat} (hd : 2 ^ d ∣ b) (hb : b ≤ m) :
    (b : ℝ) ≤ y := by
  obtain ⟨c, rfl⟩ := hd
  exact (h c).1.1 hb

theorem Follows.ge {d m : Nat} {y : ℝ} (h : Follows d m y) {b : Nat} (hd : 2 ^ d ∣ b) (hb : m ≤ b) :
    y ≤ (b : ℝ) := by
  obtain ⟨c, rfl⟩ := hd
  exact (h c).2.1 hb

theorem Follows.eq {d m : Nat} {y : ℝ} (h : Follows d m y) {b : Nat} (hd : 2 ^ d ∣ b)
    (hb : y = b) : m = b := by
  obtain ⟨c, rfl⟩ := hd
  exact Nat.le_antisymm ((h c).2.2 hb.le) ((h c).1.2 hb.ge)

/-- Rounding a shift answers the integer nearest to the exact quotient, the even one of two. -/
theorem roundShift_half (m k : Nat) :
    2 ^ k * (2 * roundShift m (k + 1)) ≤ m + 2 ^ k ∧ m ≤ 2 ^ k * (2 * roundShift m (k + 1) + 1) ∧
      (2 ^ k * (2 * roundShift m (k + 1)) = m + 2 ^ k ∨
        m = 2 ^ k * (2 * roundShift m (k + 1) + 1) → roundShift m (k + 1) % 2 = 0) := by
  have hr : m % 2 ^ (k + 1) < 2 ^ (k + 1) := Nat.mod_lt _ (Nat.pow_pos (by decide))
  have hd : 2 ^ (k + 1) * (m / 2 ^ (k + 1)) + m % 2 ^ (k + 1) = m := Nat.div_add_mod ..
  have hp : 2 ^ (k + 1) = 2 * 2 ^ k := by rw [Nat.pow_succ]; omega
  have hpos : 0 < 2 ^ k := Nat.pow_pos (by decide)
  unfold roundShift
  rw [Nat.shiftRight_eq_div_pow, Nat.add_sub_cancel]
  simp only []
  generalize m / 2 ^ (k + 1) = h at *
  generalize m % 2 ^ (k + 1) = r at *
  rw [hp] at hr hd
  generalize 2 ^ k = p at *
  have e0 : p * (2 * h) = 2 * p * h := by ring
  have e1 : p * (2 * h + 1) = 2 * p * h + p := by ring
  have e2 : p * (2 * (h + 1)) = 2 * p * h + 2 * p := by ring
  have e3 : p * (2 * (h + 1) + 1) = 2 * p * h + 3 * p := by ring
  split
  · rw [e2, e3]; omega
  · rw [e0, e1]; omega

/-- The finite numbers below the binade of a quantum are small, the others multiples of it. -/
theorem fFixAbs_multiple (c : F64) (r : Nat) :
    2 ^ r ∣ fFixAbs c ∨ 0 < r ∧ fFixAbs c < 2 ^ 52 * 2 ^ r := by
  have hf := fFrac_lt c
  by_cases h0 : r = 0
  · subst h0; left; simp
  by_cases he : fExp c = 0
  · right
    rw [fFixAbs_of_exp_zero he]
    exact ⟨by omega, lt_of_lt_of_le hf (Nat.le_mul_of_pos_right _ (Nat.two_pow_pos r))⟩
  · rw [fFixAbs_of_exp_pos he]
    rcases Nat.lt_or_ge (fExp c - 1) r with h | h
    · right
      refine ⟨by omega, ?_⟩
      calc (2 ^ 52 + fFrac c) * 2 ^ (fExp c - 1) < 2 ^ 53 * 2 ^ (fExp c - 1) :=
            Nat.mul_lt_mul_of_pos_right (by omega) (Nat.two_pow_pos _)
        _ = 2 ^ 52 * 2 ^ (fExp c - 1 + 1) := by rw [Nat.pow_succ 2 (fExp c - 1)]; ring
        _ ≤ 2 ^ 52 * 2 ^ r := Nat.mul_le_mul_left _ (two_pow_le (by omega))
    · left
      exact Dvd.dvd.mul_left (Nat.pow_dvd_pow 2 h) _

/-- The number `M · 2 ^ r` is nearest to `X` among the finite numbers, if it lies within half its
quantum `2 ^ r`, and in its binade. -/
theorem nearest_of_half {v : F64} {M r : Nat} {X : ℝ} (hv : fFixAbs v = M * 2 ^ r)
    (hM : r = 0 ∨ 2 ^ 52 ≤ M) (hp : fFrac v % 2 = M % 2) (hX : 0 ≤ X)
    (h1 : |(M : ℝ) * 2 ^ r - X| ≤ 2 ^ r / 2)
    (h2 : |(M : ℝ) * 2 ^ r - X| = 2 ^ r / 2 → M % 2 = 0) (h3 : r = 0 ∨ (2 : ℝ) ^ 52 * 2 ^ r ≤ X)
    (c : F64) : |(fFixAbs v : ℝ) - X| ≤ |(fFix c : ℝ) - X| ∧
      (|(fFixAbs v : ℝ) - X| = |(fFix c : ℝ) - X| → (fFix c : ℝ) ≠ fFixAbs v → fFrac v % 2 = 0) := by
  have hvr : (fFixAbs v : ℝ) = (M : ℝ) * 2 ^ r := by rw [hv]; push_cast; rfl
  rw [hvr, hp]
  have hq : (0 : ℝ) < 2 ^ r := by positivity
  -- the numbers that are not negative
  have key : ∀ C : Nat, (2 ^ r ∣ C ∨ 0 < r ∧ C < 2 ^ 52 * 2 ^ r) →
      |(M : ℝ) * 2 ^ r - X| ≤ |(C : ℝ) - X| ∧
      (|(M : ℝ) * 2 ^ r - X| = |(C : ℝ) - X| → (C : ℝ) ≠ M * 2 ^ r → M % 2 = 0) := by
    intro C hC
    by_cases he : (C : ℝ) = M * 2 ^ r
    · rw [he]; exact ⟨le_refl _, fun _ h => absurd rfl h⟩
    rcases hC with ⟨j, rfl⟩ | ⟨hr, hlt⟩
    · have hne : (j : ℤ) ≠ M := by
        rintro h
        apply he
        have : (j : ℝ) = M := by exact_mod_cast h
        push_cast; rw [this]; ring
      have hge : (2 : ℝ) ^ r ≤ |((2 ^ r * j : Nat) : ℝ) - M * 2 ^ r| := by
        have h1 : (1 : ℝ) ≤ |(j : ℝ) - M| := by
          have : (1 : ℤ) ≤ |(j : ℤ) - M| := Int.one_le_abs (sub_ne_zero.2 hne)
          exact_mod_cast this
        have : ((2 ^ r * j : Nat) : ℝ) - M * 2 ^ r = ((j : ℝ) - M) * 2 ^ r := by push_cast; ring
        rw [this, abs_mul, abs_of_pos hq]
        nlinarith
      have htri : |((2 ^ r * j : Nat) : ℝ) - M * 2 ^ r| ≤
          |((2 ^ r * j : Nat) : ℝ) - X| + |(M : ℝ) * 2 ^ r - X| := by
        rw [abs_sub_comm ((M : ℝ) * 2 ^ r) X]
        exact abs_sub_le _ _ _
      refine ⟨by linarith, fun h _ => h2 (by linarith)⟩
    · have hM' : 2 ^ 52 ≤ M := by rcases hM with h | h <;> omega
      have hX' : (2 : ℝ) ^ 52 * 2 ^ r ≤ X := by
        rcases h3 with h | h
        · omega
        · exact h
      have hltR : (C : ℝ) < 2 ^ 52 * 2 ^ r := by exact_mod_cast hlt
      have hs : |(M : ℝ) * 2 ^ r - X| < |(C : ℝ) - X| := by
        rw [abs_sub_comm (C : ℝ) X, abs_of_pos (show (0 : ℝ) < X - C by linarith)]
        rcases Nat.eq_or_lt_of_le hM' with hM52 | hM52
        · have : (M : ℝ) = 2 ^ 52 := by rw [← hM52]; norm_num
          rw [this, abs_sub_comm, abs_of_nonneg (by linarith)]
          linarith
        · have : (2 : ℝ) ^ 52 + 1 ≤ M := by exact_mod_cast hM52
          have h4 := abs_le.1 h1
          nlinarith [h4.1, h4.2]
      exact ⟨hs.le, fun h _ => absurd h hs.ne⟩
  have hc := fFixAbs_multiple c r
  unfold fFix
  split
  · -- a negative number is farther away than 0
    obtain ⟨k1, k2⟩ := key 0 (.inl (dvd_zero _))
    have hn : |((-(fFixAbs c : Int) : Int) : ℝ) - X| = fFixAbs c + X := by
      push_cast
      rw [show -(fFixAbs c : ℝ) - X = -(fFixAbs c + X) by ring, abs_neg,
        abs_of_nonneg (by positivity)]
    have h0 : |((0 : Nat) : ℝ) - X| = X := by simp [abs_of_nonneg hX]
    rw [h0] at k1 k2
    rw [hn]
    have hC : (0 : ℝ) ≤ fFixAbs c := Nat.cast_nonneg _
    refine ⟨by linarith, fun h hne => ?_⟩
    have hz : (fFixAbs c : ℝ) = 0 := by linarith
    refine k2 (by linarith) ?_
    intro h'
    apply hne
    push_cast
    rw [hz, ← h']; simp
  · have := key (fFixAbs c) hc
    simpa using this

/-! ### Packing rounds what its integer stands for -/

/-- How far the integer that a packing rounds may stand for another number: not at all, or a sticky
last bit, two bits below the last kept one. -/
def Stands (d m : Nat) (e : Int) (y : ℝ) : Prop :=
  Follows d m y ∧ (d = 0 ∨ d = 1 ∧ e + 2 ≤ packQuantum m e)

/-- What the kept significand of a packing is to the number it stands for. -/
theorem packMant_near {d m : Nat} {e : Int} {y : ℝ} (h : m ≠ 0) (hs : Stands d m e y) :
    let r := (packQuantum m e + 1074).toNat
    let X := y * (2 : ℝ) ^ (e + 1074)
    |(packMant m e : ℝ) * 2 ^ r - X| ≤ 2 ^ r / 2 ∧
      (|(packMant m e : ℝ) * 2 ^ r - X| = 2 ^ r / 2 → packMant m e % 2 = 0) ∧
      (r = 0 ∨ (2 : ℝ) ^ 52 * 2 ^ r ≤ X) ∧ (r = 0 ∨ 2 ^ 52 ≤ packMant m e) := by
  intro r X
  obtain ⟨hf, hd⟩ := hs
  obtain ⟨-, hn, -⟩ := packMant_bounds h e
  have hM : r = 0 ∨ 2 ^ 52 ≤ packMant m e := by
    by_cases hc : -1022 ≤ e + (Nat.log2 m : Int)
    · exact .inr (hn hc)
    · left; simp only [r]; unfold packQuantum; omega
  have hq0 : -1074 ≤ packQuantum m e := by unfold packQuantum; omega
  have hrz : ((2 : ℝ) ^ r) = (2 : ℝ) ^ (packQuantum m e + 1074) := by
    rw [← zpow_natCast]; congr 1; simp only [r]; omega
  by_cases hle : packQuantum m e ≤ e
  · -- nothing is rounded off
    have hd0 : d = 0 := by omega
    subst hd0
    have hy : y = m := by
      have := hf m
      simp only [pow_zero, one_mul, le_refl, true_iff] at this
      exact le_antisymm this.2 this.1
    have hm : packMant m e = m * 2 ^ (e - packQuantum m e).toNat := by
      unfold packMant; rw [if_pos hle, Nat.shiftLeft_eq]
    have hX : (packMant m e : ℝ) * 2 ^ r = X := by
      simp only [X]
      rw [hm, hy, hrz]
      push_cast
      rw [← zpow_natCast, mul_assoc, ← zpow_add₀ (by norm_num)]
      congr 2; omega
    rw [hX, sub_self, abs_zero]
    refine ⟨by positivity, fun h0 => absurd h0 (by positivity), ?_, hM⟩
    rcases hM with h0 | h0
    · exact .inl h0
    · right; rw [← hX]
      exact mul_le_mul_of_nonneg_right (by exact_mod_cast h0) (by positivity)
  · obtain ⟨k, hk⟩ : ∃ k : Nat, packQuantum m e - e = (k : Int) + 1 :=
      ⟨(packQuantum m e - e - 1).toNat, by omega⟩
    have hm : packMant m e = roundShift m (k + 1) := by
      unfold packMant; rw [if_neg hle]; congr 1; omega
    obtain ⟨b1, b2, b3⟩ := roundShift_half m k
    rw [← hm] at b1 b2 b3
    have hdk : d ≤ k := by omega
    have hdvd : ∀ b, 2 ^ d ∣ 2 ^ k * b := fun b => Dvd.dvd.mul_right (Nat.pow_dvd_pow 2 hdk) b
    have hXy : X = y * 2 ^ r / (2 * 2 ^ k) := by
      simp only [X]
      rw [hrz, mul_div_assoc]
      congr 1
      rw [eq_div_iff (by positivity), ← pow_succ', ← zpow_natCast, ← zpow_add₀ (by norm_num)]
      congr 1; push_cast; omega
    have hy0 : 0 ≤ y := by
      have := hf.le (b := 0) (dvd_zero _) (Nat.zero_le _); simpa using this
    have hu : y ≤ 2 ^ k * (2 * (packMant m e : ℝ) + 1) := by
      have := hf.ge (hdvd _) b2; push_cast at this; exact this
    have hl : 2 ^ k * (2 * (packMant m e : ℝ) - 1) ≤ y := by
      rcases Nat.eq_zero_or_pos (packMant m e) with h0 | h0
      · rw [h0]; have : (0 : ℝ) < 2 ^ k := by positivity
        push_cast; linarith
      · have : 2 ^ k * (2 * packMant m e - 1) ≤ m := by
          have : 2 ^ k * (2 * packMant m e) = 2 ^ k * (2 * packMant m e - 1) + 2 ^ k := by
            rw [← Nat.mul_succ]; congr 1; omega
          omega
        have := hf.le (hdvd _) this
        rw [Nat.cast_mul, Nat.cast_sub (by omega)] at this
        push_cast at this; exact this
    have hp : (0 : ℝ) < 2 ^ k := by positivity
    have hq : (0 : ℝ) < 2 ^ r := by positivity
    have hdiff : (packMant m e : ℝ) * 2 ^ r - X =
        (2 ^ k * (2 * (packMant m e : ℝ)) - y) / (2 * 2 ^ k) * 2 ^ r := by
      rw [hXy]; field_simp
    have habs : |2 ^ k * (2 * (packMant m e : ℝ)) - y| ≤ 2 ^ k := by
      rw [abs_le]; constructor <;> linarith
    have hval : |(packMant m e : ℝ) * 2 ^ r - X| =
        |2 ^ k * (2 * (packMant m e : ℝ)) - y| / (2 * 2 ^ k) * 2 ^ r := by
      rw [hdiff, abs_mul, abs_div, abs_of_pos hq,
        abs_of_pos (show (0 : ℝ) < 2 * 2 ^ k by positivity)]
    refine ⟨?_, ?_, ?_, hM⟩
    · rw [hval, show (2 : ℝ) ^ r / 2 = 2 ^ k / (2 * 2 ^ k) * 2 ^ r by field_simp]
      gcongr
    · intro he
      have he' : |2 ^ k * (2 * (packMant m e : ℝ)) - y| = 2 ^ k := by
        rw [hval] at he
        field_simp at he
        rwa [mul_assoc] at he
      rcases Nat.eq_zero_or_pos (packMant m e) with h0 | h0
      · rw [h0]
      apply b3
      rcases abs_choice (2 ^ k * (2 * (packMant m e : ℝ)) - y) with hc | hc
      · left
        have : m = 2 ^ k * (2 * packMant m e - 1) := by
          apply hf.eq (hdvd _)
          rw [Nat.cast_mul, Nat.cast_sub (by omega)]
          push_cast; linarith
        have : 2 ^ k * (2 * packMant m e) = 2 ^ k * (2 * packMant m e - 1) + 2 ^ k := by
          rw [← Nat.mul_succ]; congr 1; omega
        omega
      · right
        apply hf.eq (hdvd _)
        push_cast; linarith
    · by_cases h0 : r = 0
      · exact .inl h0
      right
      have hlog : Nat.log2 m = 53 + k := by
        simp only [r] at h0; unfold packQuantum at h0 hk; omega
      have h1 : 2 ^ (53 + k) ≤ m := by rw [← hlog]; exact Nat.log2_self_le h
      have h2 := hf.le (Dvd.dvd.trans (Nat.pow_dvd_pow 2 (by omega)) (dvd_refl _)) h1
      push_cast at h2
      rw [hXy, le_div_iff₀ (by positivity)]
      calc (2 : ℝ) ^ 52 * 2 ^ r * (2 * 2 ^ k) = 2 ^ (53 + k) * 2 ^ r := by rw [pow_add]; ring
        _ ≤ y * 2 ^ r := by gcongr

theorem stands_nonneg {d m : Nat} {e : Int} {y : ℝ} (hs : Stands d m e y) : 0 ≤ y := by
  simpa using hs.1.le (b := 0) (dvd_zero _) (Nat.zero_le _)

/-- The opposite of a finite number. -/
theorem fFix_fOpp (c : F64) (h : fIsFinite c = true) : fIsFinite (fOpp c) = true ∧
    fFix (fOpp c) = -fFix c := by
  have hm : fMag c < 2 ^ 63 := fMag_lt c
  have h1 : fMag (fOpp c) = fMag c := fMag_withSign _ hm
  have h2 : fNeg (fOpp c) = !fNeg c := fNeg_withSign _ hm
  have h3 : fExp (fOpp c) = fExp c ∧ fFrac (fOpp c) = fFrac c := by
    have := fMag_eq c
    have := fMag_eq (fOpp c)
    have := fFrac_lt c
    have := fFrac_lt (fOpp c)
    omega
  refine ⟨by unfold fIsFinite at *; rw [h1]; exact h, ?_⟩
  have h4 : fFixAbs (fOpp c) = fFixAbs c := by
    unfold fFixAbs fMant fQuantum; rw [h3.1, h3.2]
  unfold fFix
  rw [h2, h4]
  cases fNeg c <;> simp

/-- A distance in units of `2 ^ -1074`. -/
theorem abs_fValue_sub (c : F64) (x : ℝ) (n : ℝ) (hx : x = n / 2 ^ 1074) :
    |(fValue c : ℝ) - x| = |(fFix c : ℝ) - n| / 2 ^ 1074 := by
  have hp : (0 : ℝ) < 2 ^ 1074 := by positivity
  unfold fValue
  rw [hx]
  push_cast
  rw [← sub_div, abs_div, abs_of_pos hp]

set_option exponentiation.threshold 2200 in
/-- Packing rounds the number that its integer stands for. -/
theorem roundedTo_fPack (neg : Bool) {d m : Nat} {e : Int} {y : ℝ} (h : m ≠ 0)
    (hs : Stands d m e y) :
    RoundedTo ((if neg then -1 else 1) * (y * (2 : ℝ) ^ e)) (fPack neg m e) := by
  have hy := stands_nonneg hs
  obtain ⟨n1, n2, n3, n4⟩ := packMant_near h hs
  obtain ⟨hM, -, -⟩ := packMant_bounds h e
  have hmag := fMag_fPack neg m e
  rw [fPackMag_eq h] at hmag
  set r := (packQuantum m e + 1074).toNat with hr
  set M := packMant m e
  have hX0 : 0 ≤ y * (2 : ℝ) ^ (e + 1074) := by positivity
  have hXe : y * (2 : ℝ) ^ (e + 1074) = y * 2 ^ e * 2 ^ 1074 := by
    rw [zpow_add₀ (by norm_num), ← mul_assoc]; norm_cast
  have habs : |(if neg then -1 else 1) * (y * (2 : ℝ) ^ e)| = y * 2 ^ e := by
    rw [abs_mul]
    have : |(if neg then -1 else 1 : ℝ)| = 1 := by cases neg <;> simp
    rw [this, one_mul, abs_of_nonneg (by positivity)]
  have hT : ((2 : ℝ) ^ 1024 - 2 ^ 970) * 2 ^ 1074 = (2 ^ 54 - 1) * 2 ^ 2044 := by
    rw [sub_mul, sub_mul, ← pow_add, ← pow_add, ← pow_add, one_mul]
  have hp : (0 : ℝ) < 2 ^ 1074 := by positivity
  set X := y * (2 : ℝ) ^ (e + 1074)
  obtain ⟨a1, a2⟩ := abs_le.1 n1
  have hq : (0 : ℝ) < 2 ^ r := by positivity
  have hfin : X < (2 ^ 54 - 1) * 2 ^ 2044 ↔ r * 2 ^ 52 + M < 0x7FF0000000000000 := by
    have hq44 : (0 : ℝ) < 2 ^ 2044 := by positivity
    have hp53 : (2 : ℝ) ^ 53 = 9007199254740992 := by norm_num
    have hp52 : (2 : ℝ) ^ 52 = 4503599627370496 := by norm_num
    have hp54 : (2 : ℝ) ^ 54 = 18014398509481984 := by norm_num
    have hMr : (M : ℝ) ≤ 9007199254740992 := by rw [← hp53]; exact_mod_cast hM
    rcases Nat.lt_trichotomy r 2045 with hc | hc | hc
    · have h1 : (2 : ℝ) ^ r ≤ 2 ^ 2044 := pow_le_pow_right₀ (by norm_num) (by omega)
      constructor
      · intro; omega
      · intro
        rw [hp54]
        have h2 := mul_le_mul_of_nonneg_right hMr hq.le
        generalize (2 : ℝ) ^ 2044 = Q at *
        linarith
    · rw [hc] at a1 a2 n1 n2 ⊢
      have h1 : (2 : ℝ) ^ 2045 = 2 * 2 ^ 2044 := by rw [← pow_succ']
      rw [h1] at a1 a2 n1 n2
      rw [hp54]
      generalize (2 : ℝ) ^ 2044 = Q at *
      constructor
      · intro hlt
        have : M ≠ 2 ^ 53 := by
          intro h53
          have : (M : ℝ) = 9007199254740992 := by rw [← hp53]; exact_mod_cast h53
          rw [this] at a2
          linarith
        omega
      · intro hlt
        have hM1 : (M : ℝ) ≤ 9007199254740991 := by
          have : M ≤ 9007199254740991 := by omega
          exact_mod_cast this
        by_contra hge
        rw [not_lt] at hge
        have hmul : (M : ℝ) * Q ≤ 9007199254740991 * Q := by gcongr
        have hM2 : (M : ℝ) * Q = 9007199254740991 * Q := by nlinarith
        have hM3 : (M : ℝ) = 9007199254740991 := mul_right_cancel₀ hq44.ne' hM2
        have hM4 : M = 9007199254740991 := by exact_mod_cast hM3
        have := n2 (by
          rw [hM3, abs_sub_comm, abs_of_nonneg (by nlinarith)]
          rw [hM3] at a1
          linarith)
        rw [hM4] at this
        omega
    · have hM2 := n4.resolve_left (by omega)
      constructor
      · intro hlt
        exfalso
        have h2 := n3.resolve_left (by omega)
        have h1 : (2 : ℝ) ^ 2046 ≤ 2 ^ r := pow_le_pow_right₀ (by norm_num) (by omega)
        have h3 : (2 : ℝ) ^ 2046 = 4 * 2 ^ 2044 := by
          rw [show 2046 = 2 + 2044 from rfl, pow_add]; norm_num
        rw [hp54] at hlt
        rw [hp52] at h2
        rw [h3] at h1
        clear h3
        generalize (2 : ℝ) ^ 2044 = Q at *
        linarith
      · intro; omega
  have hlt : y * 2 ^ e < 2 ^ 1024 - 2 ^ 970 ↔ X < (2 ^ 54 - 1) * 2 ^ 2044 := by
    rw [hXe, ← hT]
    exact (mul_lt_mul_iff_left₀ hp).symm
  refine ⟨?_, ?_, ?_, ?_⟩
  · rw [habs, hlt, hfin]
    intro hf
    have hmag' : fMag (fPack neg m e) = r * 2 ^ 52 + M := by rw [hmag]; omega
    have hfin' : fIsFinite (fPack neg m e) = true := by
      unfold fIsFinite; rw [hmag']; exact decide_eq_true hf
    refine ⟨hfin', fun c hc => ?_⟩
    have hv := fFixAbs_fPack h hfin'
    have hpar : fFrac (fPack neg m e) % 2 = M % 2 := by
      have := fMag_eq (fPack neg m e)
      omega
    have key := nearest_of_half hv n4 hpar hX0 n1 n2 n3
    cases neg with
    | false =>
      have hx : (if false = true then -1 else 1) * (y * (2 : ℝ) ^ e) = X / 2 ^ 1074 := by
        rw [hXe]; field_simp; simp
      have hF : fFix (fPack false m e) = fFixAbs (fPack false m e) := by
        unfold fFix; rw [fNeg_fPack]; simp
      rw [abs_fValue_sub _ _ _ hx, abs_fValue_sub _ _ _ hx, hF]
      obtain ⟨k1, k2⟩ := key c
      push_cast
      refine ⟨by gcongr, fun he hne => k2 ?_ ?_⟩
      · field_simp at he; exact he
      · intro hcc
        apply hne
        unfold fValue
        rw [hF]
        have : fFix c = (fFixAbs (fPack false m e) : Int) := by exact_mod_cast hcc
        rw [this]
    | true =>
      have hx : (if true = true then -1 else 1) * (y * (2 : ℝ) ^ e) = (-X) / 2 ^ 1074 := by
        rw [hXe]; field_simp; simp
      have hF : fFix (fPack true m e) = -(fFixAbs (fPack true m e) : Int) := by
        unfold fFix; rw [fNeg_fPack]; simp
      obtain ⟨o1, o2⟩ := fFix_fOpp c hc
      rw [abs_fValue_sub _ _ _ hx, abs_fValue_sub _ _ _ hx, hF]
      obtain ⟨k1, k2⟩ := key (fOpp c)
      rw [o2] at k1 k2
      push_cast at k1 k2 ⊢
      have e1 : ∀ z : ℝ, |-z - -X| = |z - X| := fun z => by
        rw [← neg_sub', abs_neg]
      have e2 : |(fFix c : ℝ) - -X| = |-(fFix c : ℝ) - X| := by
        rw [← e1, neg_neg]
      rw [e1, e2]
      refine ⟨by gcongr, fun he hne => k2 ?_ ?_⟩
      · field_simp at he; exact he
      · intro hcc
        apply hne
        unfold fValue
        rw [hF]
        have : -fFix c = (fFixAbs (fPack true m e) : Int) := by exact_mod_cast hcc
        rw [← this, neg_neg]
  · rw [habs]
    intro hge
    have : ¬ (r * 2 ^ 52 + M < 0x7FF0000000000000) := fun hc => by
      have := hlt.2 (hfin.2 hc); linarith
    unfold fIsInf
    rw [hmag]
    simp only [decide_eq_true_eq]; omega
  · intro hneg
    rw [fNeg_fPack]
    cases neg
    · have : (0 : ℝ) ≤ y * 2 ^ e := by positivity
      simp only [Bool.false_eq_true, if_false] at hneg; linarith only [this, hneg]
    · rfl
  · intro hpos
    rw [fNeg_fPack]
    cases neg
    · rfl
    · have : (0 : ℝ) ≤ y * 2 ^ e := by positivity
      simp only [if_true] at hpos; linarith only [this, hpos]

/-! ### The operations of 00_scope.md R13 on finite numbers -/

theorem stands_self (m : Nat) (e : Int) : Stands 0 m e m := ⟨follows_self m, .inl rfl⟩

theorem fValue_of_mag_zero {v : F64} (h : fMag v = 0) : fValue v = 0 := by
  have h1 : fExp v = 0 ∧ fFrac v = 0 := by
    have := fMag_eq v
    omega
  unfold fValue fFix
  rw [fFixAbs_of_exp_zero h1.1, h1.2]
  simp

/-- A zero is 0 rounded. -/
theorem roundedTo_zero {v : F64} (h : fMag v = 0) : RoundedTo 0 v where
  finite _ := ⟨by unfold fIsFinite; rw [h]; rfl, fun c _ => by
    rw [fValue_of_mag_zero h]
    simp only [Rat.cast_zero, sub_zero, abs_zero]
    refine ⟨abs_nonneg _, fun he hne => absurd ?_ hne⟩
    have := abs_eq_zero.1 he.symm
    exact_mod_cast this⟩
  overflow ho := by
    exfalso
    rw [abs_zero] at ho
    have : (2 : ℝ) ^ 970 < 2 ^ 1024 := pow_lt_pow_right₀ (by norm_num) (by norm_num)
    exact absurd (sub_pos.2 this) (not_lt.2 ho)
  negative h := absurd h (lt_irrefl _)
  positive h := absurd h (lt_irrefl _)

theorem fPack_zero (neg : Bool) (e : Int) : fMag (fPack neg 0 e) = 0 := by
  rw [fMag_fPack]; rfl

/-- Packing an integer rounds it. -/
theorem roundedTo_fPack_self (neg : Bool) (m : Nat) (e : Int) :
    RoundedTo ((if neg then -1 else 1) * ((m : ℝ) * (2 : ℝ) ^ e)) (fPack neg m e) := by
  by_cases h : m = 0
  · subst h
    simpa using roundedTo_zero (fPack_zero neg e)
  · exact roundedTo_fPack neg h (stands_self m e)

/-- A scaled integer is rounded. -/
theorem roundedTo_fOfScaled (z : Int) (e : Int) :
    RoundedTo ((z : ℝ) * (2 : ℝ) ^ e) (fOfScaled z e) := by
  have := roundedTo_fPack_self (decide (z < 0)) z.natAbs e
  unfold fOfScaled
  convert this using 1
  rw [← mul_assoc]
  congr 1
  by_cases hz : z < 0
  · simp only [hz, decide_true, if_true]
    rw [Nat.cast_natAbs, abs_of_neg hz]; push_cast; ring
  · simp only [hz, decide_false, Bool.false_eq_true, if_false]
    rw [Nat.cast_natAbs, abs_of_nonneg (by omega)]; ring

/-- The value of a number by its significand and quantum. -/
theorem fValue_eq (a : F64) :
    (fValue a : ℝ) = (if fNeg a then -1 else 1) * ((fMant a : ℝ) * (2 : ℝ) ^ fQuantum a) := by
  have hq : 0 ≤ fQuantum a + 1074 := by unfold fQuantum; split <;> omega
  have hA : (fFixAbs a : ℝ) = fMant a * (2 : ℝ) ^ fQuantum a * 2 ^ 1074 := by
    unfold fFixAbs
    rw [Nat.shiftLeft_eq]
    push_cast
    rw [mul_assoc, ← zpow_natCast, ← zpow_natCast, ← zpow_add₀ (by norm_num)]
    congr 2
    push_cast; omega
  have hp : (2 : ℝ) ^ 1074 ≠ 0 := by positivity
  unfold fValue fFix
  split <;> · push_cast; rw [hA]; field_simp

theorem fValue_eq_fix (a : F64) : (fValue a : ℝ) = fFix a * (2 : ℝ) ^ (-1074 : Int) := by
  unfold fValue
  push_cast
  rw [zpow_neg, div_eq_mul_inv]; norm_cast

/-- A finite number is no NaN and no infinity. -/
theorem finite_special {c : F64} (h : fIsFinite c = true) :
    fIsNaN c = false ∧ fIsInf c = false := by
  unfold fIsFinite fIsNaN fIsInf at *
  simp at *; omega

/-- A sum of finite numbers is rounded. -/
theorem roundedTo_fAdd {a b : F64} (ha : fIsFinite a = true) (hb : fIsFinite b = true) :
    RoundedTo ((fValue a : ℝ) + fValue b) (fAdd a b) := by
  unfold fAdd
  simp only [finite_special ha, finite_special hb, Bool.false_eq_true, or_self, if_false]
  have hv : (fValue a : ℝ) + fValue b = ((fFix a + fFix b : Int) : ℝ) * (2 : ℝ) ^ (-1074 : Int) := by
    rw [fValue_eq_fix, fValue_eq_fix]; push_cast; ring
  rw [hv]
  split
  · rename_i h0
    rw [h0]
    simpa using roundedTo_zero (fMag_withSign (fNeg a && fNeg b) (mag := 0) (by decide))
  · exact roundedTo_fOfScaled _ _

/-- A product of finite numbers is rounded. -/
theorem roundedTo_fMul {a b : F64} (ha : fIsFinite a = true) (hb : fIsFinite b = true) :
    RoundedTo ((fValue a : ℝ) * fValue b) (fMul a b) := by
  unfold fMul
  simp only [finite_special ha, finite_special hb, Bool.false_eq_true, or_self, if_false]
  have := roundedTo_fPack_self (fNeg a != fNeg b) (fMant a * fMant b) (fQuantum a + fQuantum b)
  convert this using 1
  rw [fValue_eq, fValue_eq, zpow_add₀ (by norm_num)]
  push_cast
  cases fNeg a <;> cases fNeg b <;> simp <;> ring

theorem fMant_pos {a : F64} (h : fIsZero a = false) : 0 < fMant a := by
  have := fMag_eq a
  unfold fIsZero at h
  unfold fMant
  simp at h
  split <;> omega

theorem fMant_lt (a : F64) : fMant a < 2 ^ 53 := by
  have := fFrac_lt a
  unfold fMant
  split <;> omega

theorem le_packQuantum {m k : Nat} (h : 2 ^ k ≤ m) (e : Int) : e + k - 52 ≤ packQuantum m e := by
  have : k ≤ Nat.log2 m := (Nat.le_log2 (by have := Nat.two_pow_pos k; omega)).2 h
  unfold packQuantum; omega

/-- A quotient of finite numbers is rounded. -/
theorem roundedTo_fDiv {a b : F64} (ha : fIsFinite a = true) (hb : fIsFinite b = true)
    (hz : fIsZero b = false) : RoundedTo ((fValue a : ℝ) / fValue b) (fDiv a b) := by
  unfold fDiv
  simp only [finite_special ha, finite_special hb, hz, Bool.false_eq_true, or_self, if_false]
  have hB := fMant_pos hz
  have hB' := fMant_lt b
  have hv : (fValue a : ℝ) / fValue b = (if fNeg a != fNeg b then -1 else 1) *
      ((2 * ((fMant a * 2 ^ 120 : Nat) : ℝ) / fMant b) *
        (2 : ℝ) ^ (fQuantum a - fQuantum b - 121)) := by
    have hB0 : (fMant b : ℝ) ≠ 0 := by exact_mod_cast hB.ne'
    rw [fValue_eq, fValue_eq, zpow_sub₀ (by norm_num), zpow_sub₀ (by norm_num)]
    have h121 : (2 : ℝ) ^ (121 : Int) = 2 * 2 ^ 120 := by norm_num
    rw [h121]
    push_cast
    cases fNeg a <;> cases fNeg b <;> simp <;> field_simp <;> norm_num
  rw [hv, Nat.shiftLeft_eq]
  by_cases hA : fMant a = 0
  · rw [hA]
    simpa using roundedTo_zero (fPack_zero (fNeg a != fNeg b) (fQuantum a - fQuantum b - 121))
  have hA := Nat.pos_of_ne_zero hA
  have hbig : 2 ^ 66 ≤ fMant a * 2 ^ 120 / fMant b := by
    rw [Nat.le_div_iff_mul_le hB]
    calc 2 ^ 66 * fMant b ≤ 2 ^ 66 * 2 ^ 53 := Nat.mul_le_mul_left _ hB'.le
      _ ≤ 1 * 2 ^ 120 := by norm_num
      _ ≤ fMant a * 2 ^ 120 := Nat.mul_le_mul_right _ hA
  generalize fMant a * 2 ^ 120 = n at *
  generalize fMant b = B at *
  have hBr : (0 : ℝ) < B := by exact_mod_cast hB
  set m := 2 * (n / B) + (if n % B = 0 then 0 else 1) with hm
  have hm67 : 2 ^ 67 ≤ m := by omega
  apply roundedTo_fPack _ (by omega)
  refine ⟨fun c => ?_, .inr ⟨rfl, ?_⟩⟩
  · have hdm := Nat.div_add_mod n B
    have hmod := Nat.mod_lt n hB
    have f1 : 2 ^ 1 * c ≤ m ↔ c * B ≤ n := by
      rw [← Nat.le_div_iff_mul_le hB, hm]
      split <;> omega
    have f2 : m ≤ 2 ^ 1 * c ↔ n ≤ c * B := by
      have : n ≤ c * B ↔ (if n % B = 0 then n / B ≤ c else n / B < c) := by
        split
        · rename_i h0
          constructor
          · intro hle
            have := Nat.div_le_div_right (c := B) hle
            rwa [Nat.mul_div_cancel _ hB] at this
          · intro hle
            have := Nat.mul_le_mul_left B hle
            rw [Nat.mul_comm c]; omega
        · rename_i h0
          constructor
          · intro hle
            have h1 := Nat.div_le_div_right (c := B) hle
            rw [Nat.mul_div_cancel _ hB] at h1
            rcases Nat.eq_or_lt_of_le h1 with he | he
            · rw [← he, Nat.mul_comm] at hle; omega
            · exact he
          · intro hlt
            have h1 := Nat.mul_le_mul_left B (Nat.succ_le_of_lt hlt)
            rw [Nat.mul_succ] at h1
            rw [Nat.mul_comm c]; omega
      rw [this, hm]
      split <;> omega
    rw [f1, f2, le_div_iff₀ hBr, div_le_iff₀ hBr]
    constructor
    · rw [← Nat.cast_le (α := ℝ)]; push_cast
      constructor <;> intro <;> linarith
    · rw [← Nat.cast_le (α := ℝ)]; push_cast
      constructor <;> intro <;> linarith
  · have := le_packQuantum hm67 (fQuantum a - fQuantum b - 121)
    push_cast at this; omega

/-! ### Square roots -/

theorem isqrtFrom_spec (n : Nat) : ∀ (i acc : Nat), acc * acc ≤ n →
    n < (acc + 2 ^ (i + 1)) * (acc + 2 ^ (i + 1)) →
    isqrtFrom n i acc * isqrtFrom n i acc ≤ n ∧
      n < (isqrtFrom n i acc + 1) * (isqrtFrom n i acc + 1) := by
  intro i
  induction i with
  | zero =>
    intro acc h1 h2
    simp only [isqrtFrom]
    split
    · exact ⟨‹_›, h2⟩
    · exact ⟨h1, by omega⟩
  | succ i ih =>
    intro acc h1 h2
    simp only [isqrtFrom]
    apply ih
    · split <;> assumption
    · split
      · rwa [Nat.add_assoc, ← Nat.two_mul, ← Nat.pow_succ']
      · omega

/-- The integer square root is the floor of the square root. -/
theorem isqrt_spec (n : Nat) : isqrt n * isqrt n ≤ n ∧ n < (isqrt n + 1) * (isqrt n + 1) := by
  unfold isqrt
  apply isqrtFrom_spec
  · omega
  · have h : n < 2 ^ (Nat.log2 n + 1) := Nat.lt_log2_self
    calc n < 2 ^ (Nat.log2 n + 1) := h
      _ ≤ 2 ^ (Nat.log2 n / 2 + 1 + 1 + (Nat.log2 n / 2 + 1 + 1)) := two_pow_le (by omega)
      _ = _ := by rw [Nat.pow_add, Nat.zero_add]

/-- A square root is rounded. -/
theorem roundedTo_fSqrt {a : F64} (ha : fIsFinite a = true)
    (hz : fIsZero a = true ∨ fNeg a = false) :
    RoundedTo (Real.sqrt (fValue a)) (fSqrt a) := by
  unfold fSqrt
  simp only [finite_special ha, Bool.false_eq_true, if_false]
  split
  · rename_i h0
    have h0 : fMag a = 0 := by unfold fIsZero at h0; simpa using h0
    rw [fValue_of_mag_zero h0]
    simpa using roundedTo_zero h0
  · rename_i h0
    have hneg : fNeg a = false := hz.resolve_left h0
    simp only [hneg, Bool.false_eq_true, if_false]
    have hA := fMant_pos (a := a) (by simpa using h0)
    obtain ⟨j, hj⟩ : ∃ j : Int, fQuantum a - (fQuantum a % 2).toNat - 120 = 2 * j := by
      refine ⟨(fQuantum a - (fQuantum a % 2).toNat - 120) / 2, ?_⟩
      have := Int.emod_nonneg (fQuantum a) (b := 2) (by decide)
      have := Int.emod_lt_of_pos (fQuantum a) (b := 2) (by decide)
      omega
    generalize hodd : (fQuantum a % 2).toNat = odd at *
    rw [hj, Int.mul_ediv_cancel_left _ (by decide), Nat.shiftLeft_eq]
    set n := fMant a * 2 ^ (120 + odd) with hn
    have hv : (fValue a : ℝ) = n * (2 : ℝ) ^ j * 2 ^ j := by
      rw [fValue_eq, hneg, mul_assoc, ← zpow_add₀ (by norm_num), hn]
      push_cast
      rw [mul_assoc (fMant a : ℝ), ← zpow_natCast, ← zpow_add₀ (by norm_num)]
      simp only [one_mul]
      congr 2
      push_cast; omega
    have hsq : Real.sqrt (fValue a) = (if false then -1 else 1) *
        (2 * Real.sqrt n * (2 : ℝ) ^ (j - 1)) := by
      rw [hv, mul_assoc, Real.sqrt_mul (by positivity), Real.sqrt_mul_self (by positivity),
        zpow_sub₀ (by norm_num)]
      simp
      ring
    rw [hsq]
    obtain ⟨s1, s2⟩ := isqrt_spec n
    have hn120 : 2 ^ 120 ≤ n := by
      rw [hn, Nat.pow_add, ← Nat.mul_assoc, Nat.mul_right_comm]
      have := Nat.mul_pos hA (Nat.two_pow_pos odd)
      exact Nat.le_mul_of_pos_left _ this
    generalize isqrt n = r at *
    have hr : 2 ^ 59 ≤ r := by
      by_contra hlt
      have : r + 1 ≤ 2 ^ 59 := by omega
      have := Nat.mul_le_mul this this
      have : (2 : Nat) ^ 59 * 2 ^ 59 ≤ 2 ^ 120 := by norm_num
      omega
    set m := 2 * r + (if r * r = n then 0 else 1) with hm
    have hm60 : 2 ^ 60 ≤ m := by omega
    apply roundedTo_fPack _ (by omega)
    refine ⟨fun c => ?_, .inr ⟨rfl, ?_⟩⟩
    · have f1 : 2 ^ 1 * c ≤ m ↔ c * c ≤ n := by
        constructor
        · intro h
          have : c ≤ r := by rw [hm] at h; split at h <;> omega
          exact (Nat.mul_le_mul this this).trans s1
        · intro h
          have : c < r + 1 := by
            by_contra hge
            have := Nat.mul_le_mul (not_lt.1 hge) (not_lt.1 hge)
            omega
          omega
      have f2 : m ≤ 2 ^ 1 * c ↔ n ≤ c * c := by
        constructor
        · intro h
          rw [hm] at h
          split at h
          · rename_i he
            have : r ≤ c := by omega
            rw [← he]; exact Nat.mul_le_mul this this
          · have : r + 1 ≤ c := by omega
            exact s2.le.trans (Nat.mul_le_mul this this)
        · intro h
          have hrc : r ≤ c := by
            by_contra hlt
            have h1 : c + 1 ≤ r := by omega
            have := Nat.mul_le_mul h1 h1
            have e : (c + 1) * (c + 1) = c * c + 2 * c + 1 := by ring
            omega
          rw [hm]
          split
          · omega
          · rename_i hne
            rcases Nat.eq_or_lt_of_le hrc with he | he
            · rw [← he] at h; omega
            · omega
      have g1 : c * c ≤ n ↔ (c : ℝ) ≤ Real.sqrt n := by
        rw [Real.le_sqrt (Nat.cast_nonneg _) (Nat.cast_nonneg _), ← Nat.cast_le (α := ℝ)]
        push_cast
        rw [sq]
      have g2 : n ≤ c * c ↔ Real.sqrt n ≤ c := by
        rw [Real.sqrt_le_left (by positivity), ← Nat.cast_le (α := ℝ)]; push_cast; rw [sq]
      rw [f1, f2, g1, g2]
      push_cast
      constructor <;> constructor <;> intro <;> linarith
    · have := le_packQuantum hm60 (j - 1)
      push_cast at this; omega

end Sys2Proof.Machine
end

