-- ==== Sys2Proof/Laws/Angle.lean ====
section
/-! SUPPORT. ATAN2 and ASIN are within 1 ulp of the true angle, whatever the free values are
(44_estimator.md R193 items 1 and 4). -/

namespace Sys2Proof.Machine

/-! ### Magnitudes as fixed-point angles -/

theorem fFixAbs_withSign (neg : Bool) {mag : Nat} (h : mag < 2 ^ 63) :
    fFixAbs (fWithSign neg mag) = fFixAbs (fWithSign false mag) := by
  have h1 : ∀ n, fExp (fWithSign n mag) = mag / 2 ^ 52 ∧ fFrac (fWithSign n mag) = mag % 2 ^ 52 := by
    intro n
    have e := fMag_withSign n h
    have := fMag_eq (fWithSign n mag)
    have := fFrac_lt (fWithSign n mag)
    omega
  unfold fFixAbs fMant fQuantum
  rw [(h1 neg).1, (h1 neg).2, (h1 false).1, (h1 false).2]

/-- A magnitude as an angle is its value in finer units. -/
theorem fixOfMag_eq (mag : Nat) :
    fixOfMag mag = fFixAbs (fWithSign false mag) * 2 ^ (angleBits - 1074) := by
  have : (fQuantum (fWithSign false mag) + angleBits).toNat =
      (fQuantum (fWithSign false mag) + 1074).toNat + (angleBits - 1074) := by
    unfold fQuantum angleBits; split <;> omega
  unfold fixOfMag fFixAbs
  simp only [Nat.shiftLeft_eq]
  rw [this, Nat.pow_add, Nat.mul_assoc]

/-- A greater encoding is a greater number. -/
theorem fFixAbs_mono {a b : F64} (h : fMag a ≤ fMag b) : fFixAbs a ≤ fFixAbs b := by
  have ha := fMag_eq a
  have hb := fMag_eq b
  have la := fFrac_lt a
  have lb := fFrac_lt b
  rcases Nat.lt_or_ge (fExp a) (fExp b) with hlt | hge
  · exact (fFixAbs_le (j := fExp b) (by omega) (by omega)).trans
      (le_fFixAbs (by omega) (by omega))
  · have he : fExp a = fExp b := by omega
    have hf : fFrac a ≤ fFrac b := by omega
    by_cases h0 : fExp a = 0
    · rw [fFixAbs_of_exp_zero h0, fFixAbs_of_exp_zero (he ▸ h0)]; exact hf
    · rw [fFixAbs_of_exp_pos h0, fFixAbs_of_exp_pos (he ▸ h0), he]
      exact Nat.mul_le_mul_right _ (by omega)

/-- The magnitude nearest to a fixed-point angle is within half an ulp of it. -/
theorem near_error {t : Nat} (h : fPackMag t (-(angleBits : Int)) < 0x7FF0000000000000) :
    fixOfMag (fPackMag t (-(angleBits : Int))) ≤ t + ulpOf t ∧
      t ≤ fixOfMag (fPackMag t (-(angleBits : Int))) + ulpOf t := by
  by_cases h0 : t = 0
  · subst h0
    have : fixOfMag (fPackMag 0 (-(angleBits : Int))) = 0 := by
      rw [show fPackMag 0 (-(angleBits : Int)) = 0 from rfl]; decide
    omega
  have hfin : fIsFinite (fPack false t (-(angleBits : Int))) = true := by
    unfold fIsFinite; rw [fMag_fPack]; exact decide_eq_true h
  obtain ⟨n1, -, -, -⟩ := packMant_near h0 (stands_self t (-(angleBits : Int)))
  have hv := fFixAbs_fPack h0 hfin
  have hr : (packQuantum t (-(angleBits : Int)) + 1074).toNat + (angleBits - 1074) =
      max (Nat.log2 t - 52) (angleBits - 1074) := by
    unfold packQuantum angleBits; omega
  rw [fixOfMag_eq, show fWithSign false (fPackMag t (-(angleBits : Int))) =
    fPack false t (-(angleBits : Int)) from rfl, hv]
  unfold ulpOf
  rw [← hr]
  generalize packMant t (-(angleBits : Int)) = M at *
  generalize (packQuantum t (-(angleBits : Int)) + 1074).toNat = r at *
  have hX : (t : ℝ) * 2 ^ (-(angleBits : Int) + 1074) * 2 ^ (angleBits - 1074) = t := by
    rw [mul_assoc, ← zpow_natCast, ← zpow_add₀ (by norm_num),
      show -(angleBits : Int) + 1074 + ((angleBits - 1074 : Nat) : Int) = 0 by
        unfold angleBits; norm_num]
    simp
  generalize (t : ℝ) * 2 ^ (-(angleBits : Int) + 1074) = X at *
  obtain ⟨a1, a2⟩ := abs_le.1 n1
  have hq : (0 : ℝ) < 2 ^ r := by positivity
  have hp : (0 : ℝ) < 2 ^ (angleBits - 1074) := by positivity
  constructor
  · rw [← Nat.cast_le (α := ℝ)]
    push_cast
    rw [← hX, pow_add, ← add_mul]
    exact mul_le_mul_of_nonneg_right (by linarith) hp.le
  · rw [← Nat.cast_le (α := ℝ)]
    push_cast
    rw [← hX, pow_add, ← add_mul]
    exact mul_le_mul_of_nonneg_right (by linarith) hp.le

/-- Whatever the free value, the chosen magnitude is within 1 ulp and the model's slack. -/
theorem pickWithinUlp_error {t : Nat} {cap : F64} (pick : Nat) (hc : fMag cap < 0x7FF0000000000000)
    (ht : t < 2 ^ 1300) (hle : t ≤ fixOfMag (fMag cap) + (ulpOf t + angleError)) :
    pickWithinUlp t cap pick ≤ fMag cap ∧
      fixOfMag (pickWithinUlp t cap pick) ≤ t + (ulpOf t + angleError) ∧
      t ≤ fixOfMag (pickWithinUlp t cap pick) + (ulpOf t + angleError) := by
  have hnear : fPackMag t (-(angleBits : Int)) < 0x7FF0000000000000 := by
    by_cases h0 : t = 0
    · subst h0; decide
    · have := (Nat.log2_lt h0).2 ht
      have := fPackMag_le_of_log h0 (e := -(angleBits : Int)) (j := 2000) (by decide)
        (by unfold angleBits; omega)
      omega
  obtain ⟨e1, e2⟩ := near_error hnear
  have hmem : ∀ c ∈ withinUlp t cap, c ≤ fMag cap ∧ fixOfMag c ≤ t + (ulpOf t + angleError) ∧
      t ≤ fixOfMag c + (ulpOf t + angleError) := by
    intro c h
    unfold withinUlp at h
    have h2 := (List.mem_filter.1 h).2
    simp only [Bool.and_eq_true, decide_eq_true_eq] at h2
    exact ⟨h2.2, h2.1.2, h2.1.1⟩
  unfold pickWithinUlp
  simp only []
  rcases Nat.eq_zero_or_pos (withinUlp t cap).length with h0 | h0
  · have hcap : fMag cap < fPackMag t (-(angleBits : Int)) := by
      by_contra hge
      have hin : fPackMag t (-(angleBits : Int)) ∈ withinUlp t cap := by
        unfold withinUlp
        rw [List.mem_filter]
        refine ⟨by simp, ?_⟩
        simp only [Bool.and_eq_true, decide_eq_true_eq]
        omega
      rw [List.length_eq_zero_iff.1 h0] at hin
      cases hin
    rw [List.length_eq_zero_iff.1 h0]
    simp only [List.getD_nil]
    rw [Nat.min_eq_right hcap.le]
    have hmono : fixOfMag (fMag cap) ≤ fixOfMag (fPackMag t (-(angleBits : Int))) := by
      rw [fixOfMag_eq, fixOfMag_eq]
      refine Nat.mul_le_mul_right _ (fFixAbs_mono ?_)
      rw [fMag_withSign _ (by omega), fMag_withSign _ (by omega)]
      exact hcap.le
    omega
  · rw [List.getD_eq_getElem _ _ (Nat.mod_lt _ h0)]
    exact hmem _ (List.getElem_mem _)

/-- The choice is one of the listed magnitudes, where there is one. -/
theorem pickWithinUlp_mem {t : Nat} {cap : F64} (pick : Nat) (h : withinUlp t cap ≠ []) :
    pickWithinUlp t cap pick ∈ withinUlp t cap := by
  have h0 : 0 < (withinUlp t cap).length := List.length_pos_iff.2 h
  unfold pickWithinUlp
  simp only []
  rw [List.getD_eq_getElem _ _ (Nat.mod_lt _ h0)]
  exact List.getElem_mem _

set_option exponentiation.threshold 1300 in
/-- A magnitude that stands within an ulp of a fixed-point angle gives a number within an ulp of the
angle itself. -/
theorem withinUlp_of_fixed (neg : Bool) {t c : Nat} {θ : ℝ} (hθ : 0 ≤ θ)
    (he : |(t : ℝ) - 2 ^ angleBits * θ| ≤ 2 ^ 17) (hc : c < 0x7FF0000000000000)
    (h1 : fixOfMag c ≤ t + (ulpOf t + angleError)) (h2 : t ≤ fixOfMag c + (ulpOf t + angleError)) :
    WithinUlp (if neg then -θ else θ) (fWithSign neg c) := by
  have hU : (2 : ℝ) ^ angleBits = 2 ^ (1280 : Int) := by
    rw [show (1280 : Int) = ((angleBits : Nat) : Int) from rfl, zpow_natCast]
  have hU0 : (0 : ℝ) < 2 ^ (1280 : Int) := by positivity
  rw [hU] at he
  have habs : |if neg then -θ else θ| = θ := by cases neg <;> simp [abs_of_nonneg hθ]
  have hval : |(fValue (fWithSign neg c) : ℝ) - if neg then -θ else θ| =
      |(fixOfMag c : ℝ) / 2 ^ (1280 : Int) - θ| := by
    have e : ((fFixAbs (fWithSign neg c) : Nat) : ℝ) / 2 ^ 1074 =
        (fixOfMag c : ℝ) / 2 ^ (1280 : Int) := by
      rw [fFixAbs_withSign neg (by omega), fixOfMag_eq]
      push_cast
      rw [div_eq_div_iff (by positivity) (by positivity), mul_assoc]
      refine congrArg (_ * ·) ?_
      rw [← hU, ← pow_add, show angleBits - 1074 + 1074 = angleBits from rfl]
    rw [← e]
    unfold fValue fFix
    rw [fNeg_withSign neg (by omega)]
    cases neg
    · simp
    · push_cast
      simp only [if_true]
      rw [← abs_neg]
      congr 1
      push_cast
      ring
  refine ⟨by unfold fIsFinite; rw [fMag_withSign _ (by omega)]; exact decide_eq_true hc, ?_⟩
  rw [habs]
  simp only [hval]
  have hdist : |(fixOfMag c : ℝ) / 2 ^ (1280 : Int) - θ| ≤
      (ulpOf t : ℝ) / 2 ^ (1280 : Int) + 2 ^ (-1250 : Int) := by
    have h1' : (fixOfMag c : ℝ) ≤ t + (ulpOf t + 2 ^ 20) := by exact_mod_cast h1
    have h2' : (t : ℝ) ≤ fixOfMag c + (ulpOf t + 2 ^ 20) := by exact_mod_cast h2
    obtain ⟨a1, a2⟩ := abs_le.1 he
    have hsmall : (2 : ℝ) ^ (-1250 : Int) * 2 ^ (1280 : Int) = 2 ^ 30 := by
      rw [← zpow_add₀ (by norm_num)]; norm_num
    have : |(fixOfMag c : ℝ) / 2 ^ (1280 : Int) - θ| * 2 ^ (1280 : Int) ≤
        ((ulpOf t : ℝ) / 2 ^ (1280 : Int) + 2 ^ (-1250 : Int)) * 2 ^ (1280 : Int) := by
      rw [← abs_of_pos hU0, ← abs_mul, abs_of_pos hU0, sub_mul, add_mul,
        div_mul_cancel₀ _ hU0.ne', div_mul_cancel₀ _ hU0.ne', hsmall, abs_le]
      norm_num at a1 a2 h1' h2' ⊢
      constructor <;> linarith
    exact le_of_mul_le_mul_right this hU0
  by_cases h0 : t = 0
  · refine ⟨-1300, ?_, hdist.trans ?_⟩
    · have : (2 : ℝ) ^ (-1300 : Int) ≤ 2 ^ (-1250 : Int) :=
        zpow_le_zpow_right₀ (by norm_num) (by norm_num)
      linarith
    · subst h0
      have : (ulpOf 0 : ℝ) / 2 ^ (1280 : Int) = 2 ^ (-1074 : Int) := by
        rw [show ulpOf 0 = 2 ^ (angleBits - 1074) from rfl, Nat.cast_pow, ← zpow_natCast,
          Nat.cast_ofNat, ← zpow_sub₀ (by norm_num)]
        congr 1
      rw [this]
      gcongr
      exact le_max_right _ _
  · refine ⟨(Nat.log2 t : Int) - 1280, ?_, hdist.trans ?_⟩
    · have hl : (2 : ℝ) ^ (Nat.log2 t) ≤ t := by exact_mod_cast Nat.log2_self_le h0
      rw [zpow_sub₀ (by norm_num), div_le_iff₀ hU0, zpow_natCast]
      obtain ⟨a1, a2⟩ := abs_le.1 he
      have hsmall : (2 : ℝ) ^ (-1250 : Int) * 2 ^ (1280 : Int) = 2 ^ 30 := by
        rw [← zpow_add₀ (by norm_num)]; norm_num
      rw [add_mul, hsmall]
      norm_num at a2 ⊢
      linarith
    · have : (ulpOf t : ℝ) / 2 ^ (1280 : Int) ≤
          max (2 ^ ((Nat.log2 t : Int) - 1280 - 52)) (2 ^ (-1074 : Int)) := by
        rw [div_le_iff₀ hU0]
        unfold ulpOf angleBits
        push_cast
        rcases Nat.le_total (Nat.log2 t - 52) (1280 - 1074) with hm | hm
        · rw [max_eq_right hm]
          calc (2 : ℝ) ^ (1280 - 1074) = 2 ^ (-1074 : Int) * 2 ^ (1280 : Int) := by
                rw [← zpow_add₀ (by norm_num)]; norm_num
            _ ≤ _ := by gcongr; exact le_max_right _ _
        · rw [max_eq_left hm]
          calc (2 : ℝ) ^ (Nat.log2 t - 52) =
                2 ^ ((Nat.log2 t : Int) - 1280 - 52) * 2 ^ (1280 : Int) := by
                rw [← zpow_add₀ (by norm_num), ← zpow_natCast]; congr 1; omega
            _ ≤ _ := by gcongr; exact le_max_left _ _
      linarith

/-! ### The caps PI64 and PI64 / 2 -/

theorem le_cap {t C e : Nat} (hC : 2 ^ (e + 52) ≤ C) (h : (t : ℝ) ≤ C + 2 ^ e) :
    t ≤ C + ulpOf t := by
  have h' : t ≤ C + 2 ^ e := by exact_mod_cast h
  rcases Nat.le_total t C with hle | hle
  · omega
  · have hp := Nat.two_pow_pos (e + 52)
    have hl : e + 52 ≤ Nat.log2 t := (Nat.le_log2 (by omega)).2 (hC.trans hle)
    have : 2 ^ e ≤ ulpOf t := two_pow_le (by omega)
    omega

set_option exponentiation.threshold 1300 in
theorem fixOfMag_pi : fixOfMag (fMag fPi) = 0x1921FB54442D18 * 2 ^ 1229 := by decide +kernel

theorem fixOfMag_halfPi : fixOfMag (fMag fHalfPi) = 0x1921FB54442D18 * 2 ^ 1228 := by
  decide +kernel

set_option exponentiation.threshold 1300 in
/-- An angle `2 ^ (n + 1) · π / 4` in fixed point, against the binary64 number next to it. -/
theorem pi_cap {t n : Nat} (hn : n ≤ 1) {θ : ℝ} (hθ : θ ≤ Real.pi / 2 * 2 ^ n)
    (he : |(t : ℝ) - 2 ^ angleBits * θ| ≤ 2 ^ 17) :
    (t : ℝ) ≤ ((0x1921FB54442D18 * 2 ^ (1228 + n) : Nat) : ℝ) + 2 ^ (1228 + n) := by
  have h2 := (abs_le.1 he).2
  have hpi := Real.pi_lt_d20
  have hU : (2 : ℝ) ^ angleBits * (Real.pi / 2 * 2 ^ n) = Real.pi * 2 ^ 51 * 2 ^ (1228 + n) := by
    rw [show angleBits = 52 + 1228 from rfl, pow_add, pow_add]; ring
  have h3 : 2 ^ angleBits * θ ≤ Real.pi * 2 ^ 51 * 2 ^ (1228 + n) := by
    rw [← hU]; exact mul_le_mul_of_nonneg_left hθ (by positivity)
  have hE : (2 : ℝ) ^ 18 ≤ 2 ^ (1228 + n) := pow_le_pow_right₀ (by norm_num) (by omega)
  have hm : Real.pi * 2 ^ 51 ≤ 0x1921FB54442D18 + 1 / 2 := by norm_num at hpi ⊢; linarith
  rw [Nat.cast_mul, Nat.cast_pow, Nat.cast_ofNat, Nat.cast_ofNat]
  generalize (2 : ℝ) ^ (1228 + n) = E at *
  have hE0 : 0 ≤ E := le_trans (by positivity) hE
  have := mul_le_mul_of_nonneg_right hm hE0
  norm_num at h2 hE this ⊢
  linarith

/-- What the choice below PI64 or PI64 / 2 answers for an angle up to π or π / 2. -/
theorem pick_below_pi {t : Nat} {θ : ℝ} (pick : Nat) (h0 : 0 ≤ θ) (hθ : θ ≤ Real.pi)
    (he : |(t : ℝ) - 2 ^ angleBits * θ| ≤ 2 ^ 17) (neg : Bool) :
    WithinUlp (if neg then -θ else θ) (fWithSign neg (pickWithinUlp t fPi pick)) := by
  have hb := pi_cap (n := 1) (by decide) (by rw [pow_one]; linarith) he
  have hc := le_cap (by decide +kernel) hb
  have ht : t < 2 ^ 1300 := by
    have h1 : t ≤ 0x1921FB54442D18 * 2 ^ (1228 + 1) + 2 ^ (1228 + 1) := by exact_mod_cast hb
    refine lt_of_le_of_lt h1 ?_
    decide +kernel
  have hf : fMag fPi < 0x7FF0000000000000 := by decide
  obtain ⟨k1, k2, k3⟩ := pickWithinUlp_error pick hf ht (by rw [fixOfMag_pi]; omega)
  exact withinUlp_of_fixed neg h0 he (by omega) k2 k3

theorem pick_below_halfPi {t : Nat} {θ : ℝ} (pick : Nat) (h0 : 0 ≤ θ) (hθ : θ ≤ Real.pi / 2)
    (he : |(t : ℝ) - 2 ^ angleBits * θ| ≤ 2 ^ 17) (neg : Bool) :
    WithinUlp (if neg then -θ else θ) (fWithSign neg (pickWithinUlp t fHalfPi pick)) := by
  have hb := pi_cap (n := 0) (by decide) (by rw [pow_zero, mul_one]; exact hθ) he
  have hc := le_cap (by decide +kernel) hb
  have ht : t < 2 ^ 1300 := by
    have h1 : t ≤ 0x1921FB54442D18 * 2 ^ (1228 + 0) + 2 ^ (1228 + 0) := by exact_mod_cast hb
    refine lt_of_le_of_lt h1 ?_
    decide +kernel
  have hf : fMag fHalfPi < 0x7FF0000000000000 := by decide
  obtain ⟨k1, k2, k3⟩ := pickWithinUlp_error pick hf ht (by rw [fixOfMag_halfPi]; omega)
  exact withinUlp_of_fixed neg h0 he (by omega) k2 k3

/-- PI64 / 2 is within an ulp of π / 2. -/
theorem halfPi_withinUlp (neg : Bool) :
    WithinUlp (if neg then -(Real.pi / 2) else Real.pi / 2) (fWithSign neg (fMag fHalfPi)) := by
  have hfin : ∀ n, fIsFinite (fWithSign n (fMag fHalfPi)) = true := by decide
  have hv : (fValue (fWithSign neg (fMag fHalfPi)) : ℝ) =
      (if neg then -1 else 1) * (0x1921FB54442D18 / 2 ^ 52) := by
    rw [fValue_eq]
    have : ∀ n, fMant (fWithSign n (fMag fHalfPi)) = 0x1921FB54442D18 ∧
      fQuantum (fWithSign n (fMag fHalfPi)) = -52 ∧
      fNeg (fWithSign n (fMag fHalfPi)) = n := by decide
    rw [(this neg).1, (this neg).2.1, (this neg).2.2]
    norm_num
  have h1 := Real.pi_gt_d20
  have h2 := Real.pi_lt_d20
  refine ⟨hfin neg, 0, ?_, ?_⟩
  · have : |if neg then -(Real.pi / 2) else Real.pi / 2| = Real.pi / 2 := by
      cases neg <;> simp [abs_of_nonneg (show 0 ≤ Real.pi / 2 by positivity)]
    rw [this, zpow_zero]
    have : (0 : ℝ) < 2 ^ (-1250 : Int) := by positivity
    linarith
  · rw [hv]
    have key : |(0x1921FB54442D18 / 2 ^ 52 : ℝ) - Real.pi / 2| ≤ 2 ^ (-52 : Int) := by
      rw [abs_le]; constructor <;> norm_num at h1 h2 ⊢ <;> linarith
    have hle : |(if neg then -1 else 1) * (0x1921FB54442D18 / 2 ^ 52 : ℝ) -
        if neg then -(Real.pi / 2) else Real.pi / 2| ≤ 2 ^ (-52 : Int) := by
      cases neg
      · simpa using key
      · rw [← abs_neg]
        convert key using 2
        simp; ring
    have : (0 : ℝ) < 2 ^ (-1250 : Int) := by positivity
    calc _ ≤ _ := hle
      _ ≤ max (2 ^ ((0 : Int) - 52)) (2 ^ (-1074 : Int)) := le_max_left _ _
      _ ≤ _ := by linarith

/-! ### ATAN2 -/

/-- The angle of a point of the first quadrant. -/
theorem arg_first {x y : ℝ} (hx : 0 < x) : Complex.arg ⟨x, y⟩ = Real.arctan (y / x) := by
  have h := Complex.abs_arg_lt_pi_div_two_iff.2 (Or.inl hx : 0 < (⟨x, y⟩ : ℂ).re ∨ _)
  obtain ⟨a, b⟩ := abs_lt.1 h
  rw [← Real.arctan_tan a b, Complex.tan_arg]

theorem arg_second {x y : ℝ} (hx : 0 < x) (hy : 0 < y) :
    Complex.arg ⟨-x, y⟩ = Real.pi - Real.arctan (y / x) := by
  have h := Complex.arg_neg_eq_arg_sub_pi_of_im_pos (x := ⟨-x, y⟩) hy
  have e : -(⟨-x, y⟩ : ℂ) = ⟨x, -y⟩ := by apply Complex.ext <;> simp
  rw [e, arg_first hx, neg_div, Real.arctan_neg] at h
  linarith

theorem arg_below {x y : ℝ} (hy : 0 < y) : Complex.arg ⟨x, -y⟩ = -Complex.arg ⟨x, y⟩ := by
  have e : (⟨x, -y⟩ : ℂ) = (starRingEnd ℂ) ⟨x, y⟩ := by apply Complex.ext <;> simp
  rw [e, Complex.arg_conj, if_neg]
  intro h
  have := (Complex.arg_eq_pi_iff.1 h).2
  simp at this
  linarith

theorem arg_up {y : ℝ} (hy : 0 < y) : Complex.arg ⟨0, y⟩ = Real.pi / 2 :=
  Complex.arg_eq_pi_div_two_iff.2 ⟨rfl, hy⟩

theorem fFixAbs_pos {a : F64} (h : fIsZero a = false) : 0 < fFixAbs a := by
  unfold fFixAbs
  rw [Nat.shiftLeft_eq]
  exact Nat.mul_pos (fMant_pos h) (Nat.two_pow_pos _)

set_option exponentiation.threshold 1300 in
theorem fValue_sign (a : F64) : (fValue a : ℝ) =
    if fNeg a then -((fFixAbs a : ℝ) / 2 ^ 1074) else (fFixAbs a : ℝ) / 2 ^ 1074 := by
  unfold fValue fFix
  split <;> push_cast
  · rw [neg_div]
  · trivial

/-- ATAN2 off the axes. -/
theorem fAtan2_eq {y x : F64} (hy : fIsFinite y = true) (hx : fIsFinite x = true)
    (hz : fIsZero y = false) (hx0 : fIsZero x = false) :
    fAtan2 y x = fWithSign (fNeg y)
      (pickWithinUlp (angleOf (fFixAbs y) (fFixAbs x) (fNeg x)) fPi (Config.atan2Pick y x)) := by
  unfold fAtan2
  simp only [finite_special hy, finite_special hx, hz, hx0, Bool.false_eq_true, or_self, if_false]

set_option exponentiation.threshold 1300 in
/-- ATAN2 is within an ulp of the angle of its point (44_estimator.md R193 item 1). -/
theorem fAtan2_withinUlp {y x : F64} (hy : fIsFinite y = true) (hx : fIsFinite x = true)
    (hz : fIsZero y = false) : WithinUlp (Complex.arg ⟨fValue x, fValue y⟩) (fAtan2 y x) := by
  have hY : (0 : ℝ) < fFixAbs y := by exact_mod_cast fFixAbs_pos hz
  have hp : (0 : ℝ) < 2 ^ 1074 := by positivity
  have hY' : (0 : ℝ) < fFixAbs y / 2 ^ 1074 := by positivity
  -- the sign is the sign of y
  have hsign : Complex.arg ⟨fValue x, fValue y⟩ =
      if fNeg y then -Complex.arg ⟨fValue x, ((fFixAbs y : ℝ) / 2 ^ 1074 : ℝ)⟩
      else Complex.arg ⟨fValue x, ((fFixAbs y : ℝ) / 2 ^ 1074 : ℝ)⟩ := by
    rw [fValue_sign y]
    cases fNeg y
    · simp
    · simp only [if_true]; exact arg_below hY'
  rw [hsign]
  by_cases hx0 : fIsZero x = true
  · have : fMag x = 0 := by unfold fIsZero at hx0; simpa using hx0
    unfold fAtan2
    simp only [finite_special hy, finite_special hx, hz, hx0, Bool.false_eq_true, or_self,
      if_false, if_true]
    rw [fValue_of_mag_zero this, Rat.cast_zero, arg_up hY']
    exact halfPi_withinUlp _
  · have hx0 : fIsZero x = false := by simpa using hx0
    rw [fAtan2_eq hy hx hz hx0]
    have hXn := fFixAbs_pos hx0
    have hX : (0 : ℝ) < fFixAbs x := by exact_mod_cast hXn
    have hX' : (0 : ℝ) < fFixAbs x / 2 ^ 1074 := by positivity
    have hdiv : (fFixAbs y : ℝ) / 2 ^ 1074 / (fFixAbs x / 2 ^ 1074) = fFixAbs y / fFixAbs x := by
      field_simp
    have hat0 : 0 ≤ Real.arctan ((fFixAbs y : ℝ) / fFixAbs x) :=
      Real.arctan_nonneg.2 (by positivity)
    have hat1 := Real.arctan_lt_pi_div_two ((fFixAbs y : ℝ) / fFixAbs x)
    have hpi := Real.pi_pos
    have hx := fValue_sign x
    cases hn : fNeg x
    · rw [hn] at hx
      simp only [Bool.false_eq_true, if_false] at hx
      rw [hx, arg_first hX', hdiv]
      exact pick_below_pi _ hat0 (by linarith)
        ((angleOf_error hXn).trans (by norm_num)) _
    · rw [hn] at hx
      simp only [if_true] at hx
      rw [hx, arg_second hX' hY', hdiv]
      exact pick_below_pi _ (by linarith) (by linarith)
        ((angleOf_error_neg hXn).trans (by norm_num)) _

/-! ### ASIN -/

/-- Rounding the root down by less than a unit moves the angle by two units at most. -/
theorem root_moves {U a s w : ℝ} (hU8 : 8 ≤ U) (ha0 : 0 < a) (hs0 : 0 < s) (hsw : s ≤ w)
    (hws : w ≤ s + 1) (hww : w * w = U * U - a * a) :
    |U * Real.arctan (a / s) - U * Real.arctan (a / w)| ≤ 2 := by
  have hU : 0 < U := by linarith
  have hwp : 0 < w := by linarith
  have hw0 := hwp.le
  rw [← mul_sub, abs_mul, abs_of_pos hU]
  rcases le_or_gt (2 * a) U with hc | hc
  · have hn34 : 3 / 4 * (U * U) ≤ w * w := by
      rw [hww]; nlinarith
    have hsw2 : U * U ≤ 2 * (s * w) := by
      have hwU : w ≤ U := by
        nlinarith [mul_pos ha0 ha0]
      have h2 := mul_le_mul_of_nonneg_right (show w - 1 ≤ s by linarith) hw0
      have h3 := mul_le_mul_of_nonneg_right hU8 hU.le
      linarith
    calc U * |Real.arctan (a / s) - Real.arctan (a / w)|
        ≤ U * |a / s - a / w| :=
          mul_le_mul_of_nonneg_left (arctan_lipschitz _ _) hU.le
      _ = U * (a * (w - s) / (s * w)) := by
          rw [show a / s - a / w = a * (w - s) / (s * w) by field_simp,
            abs_of_nonneg (div_nonneg (mul_nonneg ha0.le (by linarith)) (by positivity))]
      _ ≤ 2 := by
          have h2 := mul_le_mul_of_nonneg_left (show w - s ≤ 1 by linarith) ha0.le
          have h3 := mul_le_mul_of_nonneg_left
            (show a * (w - s) ≤ U / 2 by linarith) hU.le
          have h4 := mul_pos hU hU
          rw [mul_div_assoc', div_le_iff₀ (by positivity)]
          linarith
  · have e : ∀ v : ℝ, 0 < v → Real.arctan (a / v) = Real.pi / 2 - Real.arctan (v / a) := by
      intro v hv
      rw [← Real.arctan_inv_of_pos (by positivity), inv_div]
    rw [e s hs0, e w hwp]
    calc U * |Real.pi / 2 - Real.arctan (s / a) - (Real.pi / 2 - Real.arctan (w / a))|
        = U * |Real.arctan (w / a) - Real.arctan (s / a)| := by congr 2; ring
      _ ≤ U * |w / a - s / a| :=
          mul_le_mul_of_nonneg_left (arctan_lipschitz _ _) hU.le
      _ = U * ((w - s) / a) := by
          rw [← sub_div, abs_of_nonneg (div_nonneg (by linarith) ha0.le)]
      _ ≤ 2 := by
          rw [mul_div_assoc', div_le_iff₀ ha0]
          nlinarith

set_option exponentiation.threshold 1300 in
/-- The fixed-point arcsine of a number between 0 and 1. -/
theorem asinAngle_error {a : Nat} (h0 : 0 < a) (h1 : a < 2 ^ angleBits) :
    |(angleOf a (isqrt (2 ^ (2 * angleBits) - a * a)) false : ℝ) -
      2 ^ angleBits * Real.arcsin (a / 2 ^ angleBits)| ≤ 2 ^ 17 := by
  have hU : (0 : ℝ) < 2 ^ angleBits := by positivity
  have hUn : 2 ^ (2 * angleBits) = 2 ^ angleBits * 2 ^ angleBits := by
    rw [Nat.two_mul, Nat.pow_add]
  have hU8 : (8 : ℝ) ≤ 2 ^ angleBits := by
    calc (8 : ℝ) = 2 ^ 3 := by norm_num
      _ ≤ 2 ^ angleBits := pow_le_pow_right₀ (by norm_num) (by decide)
  have hlt : a * a < 2 ^ angleBits * 2 ^ angleBits := Nat.mul_lt_mul'' h1 h1
  obtain ⟨s1, s2⟩ := isqrt_spec (2 ^ (2 * angleBits) - a * a)
  rw [hUn] at *
  set n := 2 ^ angleBits * 2 ^ angleBits - a * a with hn
  have hnr : (n : ℝ) = 2 ^ angleBits * 2 ^ angleBits - a * a := by
    rw [hn, Nat.cast_sub hlt.le]; push_cast; rfl
  generalize isqrt n = s at *
  have hs0 : 0 < s := by
    rcases Nat.eq_zero_or_pos s with h | h
    · subst h
      omega
    · exact h
  have ha0 : (0 : ℝ) < a := by exact_mod_cast h0
  have hsr : (0 : ℝ) < s := by exact_mod_cast hs0
  set w := Real.sqrt n with hw
  have hw0 : 0 ≤ w := Real.sqrt_nonneg _
  have hww : w * w = n := Real.mul_self_sqrt (Nat.cast_nonneg _)
  have hsw : (s : ℝ) ≤ w := by
    rw [hw, Real.le_sqrt hsr.le (Nat.cast_nonneg _), sq]; exact_mod_cast s1
  have hws : w ≤ s + 1 := by
    rw [hw, Real.sqrt_le_left (by positivity), sq]; exact_mod_cast s2.le
  have hwp : 0 < w := lt_of_lt_of_le hsr hsw
  -- the arcsine is the arctangent of `a / w`
  have hasin : Real.arcsin ((a : ℝ) / 2 ^ angleBits) = Real.arctan (a / w) := by
    have h1' : (a : ℝ) < 2 ^ angleBits := by exact_mod_cast h1
    rw [Real.arcsin_eq_arctan ⟨by have : (0 : ℝ) < a / 2 ^ angleBits := by positivity
                                  linarith, by rw [div_lt_one hU]; exact h1'⟩]
    congr 1
    have : (1 : ℝ) - (a / 2 ^ angleBits) ^ 2 = n / (2 ^ angleBits * 2 ^ angleBits) := by
      rw [hnr]; field_simp
    rw [this, Real.sqrt_div (Nat.cast_nonneg _), Real.sqrt_mul_self hU.le, ← hw]
    field_simp
  have hmove := root_moves hU8 ha0 hsr hsw hws (hww.trans hnr)
  rw [hasin]
  calc _ ≤ _ := abs_sub_le _ ((2 : ℝ) ^ angleBits * Real.arctan (a / s)) _
    _ ≤ 25952 + 2 := add_le_add (angleOf_error hs0) hmove
    _ ≤ 2 ^ 17 := by norm_num

/-- ASIN between its exact values. -/
theorem fAsin_eq {a : F64} (hm : fMag a < fMag fOne) (hz : fIsZero a = false) :
    fAsin a = fWithSign (fNeg a)
      (pickWithinUlp (asinAngle (fMag a)) fHalfPi (Config.asinPick a)) := by
  have hone : fMag fOne = 0x3FF0000000000000 := by decide
  have hn : fIsNaN a = false := by unfold fIsNaN; simp; omega
  unfold fAsin
  simp only [hn, hz, Bool.false_eq_true, if_false, if_neg (Nat.not_lt.2 hm.le), if_neg hm.ne]

set_option exponentiation.threshold 1300 in
/-- ASIN is within an ulp of the arcsine (R193 item 4). -/
theorem fAsin_withinUlp {a : F64} (hm : fMag a ≤ fMag fOne) (hz : fIsZero a = false) :
    WithinUlp (Real.arcsin (fValue a)) (fAsin a) := by
  have hone : fMag fOne = 0x3FF0000000000000 := by decide
  have hfin : fIsFinite a = true := by unfold fIsFinite; simp; omega
  have hsign : Real.arcsin (fValue a) = if fNeg a then -Real.arcsin ((fFixAbs a : ℝ) / 2 ^ 1074)
      else Real.arcsin ((fFixAbs a : ℝ) / 2 ^ 1074) := by
    rw [fValue_sign]
    split
    · exact Real.arcsin_neg _
    · rfl
  rw [hsign]
  by_cases h1 : fMag a = fMag fOne
  · have hA : (fFixAbs a : ℝ) / 2 ^ 1074 = 1 := by
      have e : a = fWithSign (fNeg a) (fMag fOne) := by
        rw [← h1]
        apply BitVec.eq_of_toNat_eq
        unfold fWithSign fNeg fMag
        rw [BitVec.toNat_ofNat, BitVec.msb_eq_decide]
        have := a.isLt
        split
        · rename_i h
          have := of_decide_eq_true h
          omega
        · rename_i h
          have h' := mt (fun hc => decide_eq_true hc) h
          omega
      have : fFixAbs a = 2 ^ 1074 := by
        rw [e, fFixAbs_withSign _ (by omega)]; decide +kernel
      rw [this, Nat.cast_pow, Nat.cast_ofNat, div_self (by positivity)]
    have he : fAsin a = fWithSign (fNeg a) (fMag fHalfPi) := by
      unfold fAsin
      simp only [finite_special hfin, hz, Bool.false_eq_true, if_false, if_neg (Nat.not_lt.2 hm),
        if_pos h1]
    rw [hA, Real.arcsin_one, he]
    exact halfPi_withinUlp _
  · rw [fAsin_eq (by omega) hz]
    have hmag : fMag a < 2 ^ 63 := fMag_lt a
    have hfa : fFixAbs (fWithSign false (fMag a)) = fFixAbs a := by
      unfold fFixAbs fMant fQuantum
      have e1 := fMag_withSign false hmag
      have e2 := fMag_eq a
      have e3 := fMag_eq (fWithSign false (fMag a))
      have e4 := fFrac_lt a
      have e5 := fFrac_lt (fWithSign false (fMag a))
      have : fExp (fWithSign false (fMag a)) = fExp a ∧
        fFrac (fWithSign false (fMag a)) = fFrac a := by omega
      rw [this.1, this.2]
    have hfix := fixOfMag_eq (fMag a)
    rw [hfa] at hfix
    have hpos : 0 < fixOfMag (fMag a) := by
      rw [hfix]; exact Nat.mul_pos (fFixAbs_pos hz) (Nat.two_pow_pos _)
    have hlt : fixOfMag (fMag a) < 2 ^ angleBits := by
      have hl : fFixAbs a < 2 ^ 1074 := by
        have e2 := fMag_eq a
        have e4 := fFrac_lt a
        by_cases h0 : fExp a = 0
        · rw [fFixAbs_of_exp_zero h0]
          exact lt_of_lt_of_le e4 (two_pow_le (by norm_num))
        · rw [fFixAbs_of_exp_pos h0]
          calc (2 ^ 52 + fFrac a) * 2 ^ (fExp a - 1) < 2 ^ 53 * 2 ^ (fExp a - 1) :=
                Nat.mul_lt_mul_of_pos_right (by omega) (Nat.two_pow_pos _)
            _ = 2 ^ (53 + (fExp a - 1)) := (Nat.pow_add ..).symm
            _ ≤ 2 ^ 1074 := two_pow_le (by omega)
      rw [hfix]
      calc _ < 2 ^ 1074 * 2 ^ (angleBits - 1074) :=
            Nat.mul_lt_mul_of_pos_right hl (Nat.two_pow_pos _)
        _ = 2 ^ (1074 + (angleBits - 1074)) := (Nat.pow_add ..).symm
        _ = 2 ^ angleBits := by rw [show 1074 + (angleBits - 1074) = angleBits from rfl]
    have hval : (fixOfMag (fMag a) : ℝ) / 2 ^ angleBits = fFixAbs a / 2 ^ 1074 := by
      rw [hfix, Nat.cast_mul, Nat.cast_pow, Nat.cast_ofNat,
        div_eq_div_iff (by positivity) (by positivity), mul_assoc, ← pow_add,
        show angleBits - 1074 + 1074 = angleBits from rfl]
    have herr := asinAngle_error hpos hlt
    rw [hval] at herr
    exact pick_below_halfPi _ (Real.arcsin_nonneg.2 (by positivity)) (Real.arcsin_le_pi_div_two _)
      herr _

end Sys2Proof.Machine
end

