-- ==== Sys2Proof/Laws/Sparse.lean ====
section
/-! SUPPORT. The laws of sparse storage: what a read gives after a write, and that a write keeps the
canonical form. -/

namespace Sys2Proof.Machine.Sparse

variable {α : Type}

@[simp] theorem read?_nil (a : Nat) : read? ([] : Sparse α) a = none := rfl

theorem read?_cons (k : Nat) (v : α) (m : Sparse α) (a : Nat) :
    read? ((k, v) :: m) a = if a = k then some v else read? m a := rfl

theorem read?_append (m n : Sparse α) (a : Nat) :
    read? (m ++ n) a = (read? m a).or (read? n a) := by
  induction m with
  | nil => simp
  | cons c m ih =>
    obtain ⟨k, v⟩ := c
    simp only [List.cons_append, read?_cons, ih]
    split <;> simp

/-- A key that no entry has reads as nothing. -/
theorem read?_eq_none {m : Sparse α} {a : Nat} (h : ∀ c ∈ m, c.1 ≠ a) : read? m a = none := by
  induction m with
  | nil => rfl
  | cons c m ih =>
    obtain ⟨k, v⟩ := c
    rw [read?_cons, if_neg (fun e => h (k, v) (by simp) e.symm)]
    exact ih fun c hc => h c (by simp [hc])

/-- What reads as a value is listed. -/
theorem mem_of_read? {m : Sparse α} {a : Nat} {v : α} (h : read? m a = some v) : (a, v) ∈ m := by
  induction m with
  | nil => simp at h
  | cons c m ih =>
    obtain ⟨k, w⟩ := c
    rw [read?_cons] at h
    split at h
    · simp_all
    · exact List.mem_cons_of_mem _ (ih h)

/-- In canonical storage, what is listed is what is read. -/
theorem read?_of_mem {m : Sparse α} (hm : m.Pairwise (fun a b => a.1 < b.1)) {a : Nat} {v : α}
    (h : (a, v) ∈ m) : read? m a = some v := by
  induction m with
  | nil => simp at h
  | cons c m ih =>
    obtain ⟨k, w⟩ := c
    rw [read?_cons]
    rcases List.mem_cons.1 h with h | h
    · simp_all
    · have := (List.pairwise_cons.1 hm).1 _ h
      rw [if_neg (by simp at this; omega), ih (List.pairwise_cons.1 hm).2 h]

/-- A filter on keys keeps the reads at the keys it keeps and drops the others. -/
theorem read?_filter (p : Nat → Bool) (m : Sparse α) (a : Nat) :
    read? (m.filter fun c => p c.1) a = if p a then read? m a else none := by
  induction m with
  | nil => simp
  | cons c m ih =>
    obtain ⟨k, v⟩ := c
    by_cases hk : p k = true
    · rw [List.filter_cons_of_pos (by simpa using hk), read?_cons, read?_cons, ih]
      by_cases ha : a = k
      · subst ha; simp [hk]
      · simp [ha]
    · rw [List.filter_cons_of_neg (by simpa using hk), read?_cons, ih]
      by_cases ha : a = k
      · subst ha; simp [hk]
      · simp [ha]

theorem mem_block {a : Nat} {vs : List α} {c : Nat × α} (h : c ∈ block a vs) :
    a ≤ c.1 ∧ c.1 < a + vs.length := by
  induction vs generalizing a with
  | nil => simp [block] at h
  | cons v vs ih =>
    rcases List.mem_cons.1 h with h | h
    · subst h; simp
    · have := ih h; simp only [List.length_cons]; omega

theorem block_sorted (a : Nat) (vs : List α) :
    (block a vs).Pairwise (fun x y => x.1 < y.1) := by
  induction vs generalizing a with
  | nil => simp [block]
  | cons v vs ih =>
    refine List.pairwise_cons.2 ⟨fun c hc => ?_, ih _⟩
    have := mem_block hc
    simp only; omega

theorem read?_block (a : Nat) (vs : List α) (b : Nat) :
    read? (block a vs) b = if a ≤ b then vs[b - a]? else none := by
  induction vs generalizing a with
  | nil => simp [block]
  | cons v vs ih =>
    simp only [block, read?_cons, ih]
    rcases Nat.lt_trichotomy b a with h | h | h
    · simp [Nat.ne_of_lt h, Nat.not_le.2 h, Nat.not_le.2 (Nat.lt_succ_of_lt h)]
    · subst h; simp
    · have e : b - a = (b - (a + 1)) + 1 := by omega
      rw [if_neg (by omega), if_pos (by omega), if_pos (by omega), e, List.getElem?_cons_succ]

/-- Read after write: the written keys give the written values, every other key what it gave. -/
theorem read?_writeFrom (m : Sparse α) (a : Nat) (vs : List α) (b : Nat) :
    read? (writeFrom m a vs) b =
      if a ≤ b ∧ b < a + vs.length then vs[b - a]? else read? m b := by
  unfold writeFrom
  rw [read?_append, read?_append, read?_filter (fun k => decide (k < a)),
    read?_filter (fun k => decide (a + vs.length ≤ k)), read?_block]
  rcases Nat.lt_or_ge b a with h | h
  · have h' : ¬ a ≤ b := by omega
    have h'' : ¬ a + vs.length ≤ b := by omega
    simp [h, h', h'']
  · have h' : ¬ b < a := by omega
    by_cases hb : b < a + vs.length
    · have h'' : ¬ a + vs.length ≤ b := by omega
      have hlt : b - a < vs.length := by omega
      simp [h, h', hb, h'', List.getElem?_eq_getElem hlt]
    · have h'' : a + vs.length ≤ b := by omega
      have hge : vs.length ≤ b - a := by omega
      simp [h, h', hb, h'', List.getElem?_eq_none hge]

/-- A write at a written key. -/
theorem read?_writeFrom_inside (m : Sparse α) (a : Nat) (vs : List α) (i : Nat)
    (h : i < vs.length) : read? (writeFrom m a vs) (a + i) = some vs[i] := by
  rw [read?_writeFrom, if_pos (by omega), Nat.add_sub_cancel_left, List.getElem?_eq_getElem h]

/-- A write leaves every other key alone. -/
theorem read?_writeFrom_outside (m : Sparse α) (a : Nat) (vs : List α) (b : Nat)
    (h : b < a ∨ a + vs.length ≤ b) : read? (writeFrom m a vs) b = read? m b := by
  rw [read?_writeFrom, if_neg (by omega)]

/-- A write inside the bound keeps the canonical form. -/
theorem wf_writeFrom {bound : Nat} {m : Sparse α} (hm : wf bound m) (a : Nat) (vs : List α)
    (h : a + vs.length ≤ bound) : wf bound (writeFrom m a vs) := by
  obtain ⟨hs, hb⟩ := hm
  constructor
  · unfold writeFrom
    rw [List.pairwise_append, List.pairwise_append]
    refine ⟨⟨hs.filter _, block_sorted _ _, fun x hx y hy => ?_⟩, hs.filter _, fun x hx y hy => ?_⟩
    · have := mem_block hy
      simp only [List.mem_filter, decide_eq_true_eq] at hx
      omega
    · simp only [List.mem_filter, decide_eq_true_eq] at hy
      rcases List.mem_append.1 hx with hx | hx
      · simp only [List.mem_filter, decide_eq_true_eq] at hx
        omega
      · have := mem_block hx
        omega
  · intro c hc
    unfold writeFrom at hc
    simp only [List.mem_append, List.mem_filter] at hc
    rcases hc with (hc | hc) | hc
    · exact hb _ hc.1
    · have := mem_block hc
      omega
    · exact hb _ hc.1

theorem wf_nil (bound : Nat) : wf bound ([] : Sparse α) := by simp [wf]

theorem wf_block {bound a : Nat} {vs : List α} (h : a + vs.length ≤ bound) :
    wf bound (block a vs) :=
  ⟨block_sorted _ _, fun c hc => by have := mem_block hc; omega⟩

end Sys2Proof.Machine.Sparse
end

