-- ==== Sys2Proof/Laws/State.lean ====
section
/-! SUPPORT. What each update of State does to each field, true by definition: later proofs rewrite
with these and never unfold a record update. -/

namespace Sys2Proof.Machine

/-! ### setResults -/

@[simp] theorem setResults_irqEn (vs : List Word) (s : State) :
    (setResults vs s).irqEn = s.irqEn := rfl
@[simp] theorem setResults_status (vs : List Word) (s : State) :
    (setResults vs s).status = s.status := rfl
@[simp] theorem setResults_inLen (vs : List Word) (s : State) :
    (setResults vs s).inLen = s.inLen := rfl
@[simp] theorem setResults_arg (vs : List Word) (s : State) : (setResults vs s).arg = s.arg := rfl
@[simp] theorem setResults_res (vs : List Word) (s : State) :
    (setResults vs s).res = Vector.ofFn fun k => vs.getD k.val s.res[k] := rfl
@[simp] theorem setResults_frm (vs : List Word) (s : State) : (setResults vs s).frm = s.frm := rfl
@[simp] theorem setResults_coefBuf (vs : List Word) (s : State) :
    (setResults vs s).coefBuf = s.coefBuf := rfl
@[simp] theorem setResults_grp (vs : List Word) (s : State) : (setResults vs s).grp = s.grp := rfl
@[simp] theorem setResults_snap (vs : List Word) (s : State) :
    (setResults vs s).snap = s.snap := rfl
@[simp] theorem setResults_aoa0 (vs : List Word) (s : State) :
    (setResults vs s).aoa0 = s.aoa0 := rfl
@[simp] theorem setResults_aoa1 (vs : List Word) (s : State) :
    (setResults vs s).aoa1 = s.aoa1 := rfl
@[simp] theorem setResults_inBuf (vs : List Word) (s : State) :
    (setResults vs s).inBuf = s.inBuf := rfl
@[simp] theorem setResults_seqr (vs : List Word) (s : State) :
    (setResults vs s).seqr = s.seqr := rfl
@[simp] theorem setResults_draws (vs : List Word) (s : State) :
    (setResults vs s).draws = s.draws := rfl
@[simp] theorem setResults_script (vs : List Word) (s : State) :
    (setResults vs s).script = s.script := rfl
@[simp] theorem setResults_log (vs : List Word) (s : State) : (setResults vs s).log = s.log := rfl

/-! ### setFrameValid -/

@[simp] theorem setFrameValid_irqEn (v : Bool) (s : State) :
    (setFrameValid v s).irqEn = s.irqEn := rfl
@[simp] theorem setFrameValid_status (v : Bool) (s : State) :
    (setFrameValid v s).status = { s.status with frameValid := v } := rfl
@[simp] theorem setFrameValid_inLen (v : Bool) (s : State) :
    (setFrameValid v s).inLen = s.inLen := rfl
@[simp] theorem setFrameValid_arg (v : Bool) (s : State) : (setFrameValid v s).arg = s.arg := rfl
@[simp] theorem setFrameValid_res (v : Bool) (s : State) : (setFrameValid v s).res = s.res := rfl
@[simp] theorem setFrameValid_frm (v : Bool) (s : State) : (setFrameValid v s).frm = s.frm := rfl
@[simp] theorem setFrameValid_coefBuf (v : Bool) (s : State) :
    (setFrameValid v s).coefBuf = s.coefBuf := rfl
@[simp] theorem setFrameValid_grp (v : Bool) (s : State) : (setFrameValid v s).grp = s.grp := rfl
@[simp] theorem setFrameValid_snap (v : Bool) (s : State) : (setFrameValid v s).snap = s.snap := rfl
@[simp] theorem setFrameValid_aoa0 (v : Bool) (s : State) : (setFrameValid v s).aoa0 = s.aoa0 := rfl
@[simp] theorem setFrameValid_aoa1 (v : Bool) (s : State) : (setFrameValid v s).aoa1 = s.aoa1 := rfl
@[simp] theorem setFrameValid_inBuf (v : Bool) (s : State) :
    (setFrameValid v s).inBuf = s.inBuf := rfl
@[simp] theorem setFrameValid_seqr (v : Bool) (s : State) : (setFrameValid v s).seqr = s.seqr := rfl
@[simp] theorem setFrameValid_draws (v : Bool) (s : State) :
    (setFrameValid v s).draws = s.draws := rfl
@[simp] theorem setFrameValid_script (v : Bool) (s : State) :
    (setFrameValid v s).script = s.script := rfl
@[simp] theorem setFrameValid_log (v : Bool) (s : State) : (setFrameValid v s).log = s.log := rfl

/-! ### setGroupActive -/

@[simp] theorem setGroupActive_irqEn (v : Bool) (s : State) :
    (setGroupActive v s).irqEn = s.irqEn := rfl
@[simp] theorem setGroupActive_status (v : Bool) (s : State) :
    (setGroupActive v s).status = { s.status with groupActive := v } := rfl
@[simp] theorem setGroupActive_inLen (v : Bool) (s : State) :
    (setGroupActive v s).inLen = s.inLen := rfl
@[simp] theorem setGroupActive_arg (v : Bool) (s : State) : (setGroupActive v s).arg = s.arg := rfl
@[simp] theorem setGroupActive_res (v : Bool) (s : State) : (setGroupActive v s).res = s.res := rfl
@[simp] theorem setGroupActive_frm (v : Bool) (s : State) : (setGroupActive v s).frm = s.frm := rfl
@[simp] theorem setGroupActive_coefBuf (v : Bool) (s : State) :
    (setGroupActive v s).coefBuf = s.coefBuf := rfl
@[simp] theorem setGroupActive_grp (v : Bool) (s : State) : (setGroupActive v s).grp = s.grp := rfl
@[simp] theorem setGroupActive_snap (v : Bool) (s : State) :
    (setGroupActive v s).snap = s.snap := rfl
@[simp] theorem setGroupActive_aoa0 (v : Bool) (s : State) :
    (setGroupActive v s).aoa0 = s.aoa0 := rfl
@[simp] theorem setGroupActive_aoa1 (v : Bool) (s : State) :
    (setGroupActive v s).aoa1 = s.aoa1 := rfl
@[simp] theorem setGroupActive_inBuf (v : Bool) (s : State) :
    (setGroupActive v s).inBuf = s.inBuf := rfl
@[simp] theorem setGroupActive_seqr (v : Bool) (s : State) :
    (setGroupActive v s).seqr = s.seqr := rfl
@[simp] theorem setGroupActive_draws (v : Bool) (s : State) :
    (setGroupActive v s).draws = s.draws := rfl
@[simp] theorem setGroupActive_script (v : Bool) (s : State) :
    (setGroupActive v s).script = s.script := rfl
@[simp] theorem setGroupActive_log (v : Bool) (s : State) : (setGroupActive v s).log = s.log := rfl

/-! ### setOverrun -/

@[simp] theorem setOverrun_irqEn (s : State) : (setOverrun s).irqEn = s.irqEn := rfl
@[simp] theorem setOverrun_status (s : State) :
    (setOverrun s).status = { s.status with overrun := true } := rfl
@[simp] theorem setOverrun_inLen (s : State) : (setOverrun s).inLen = s.inLen := rfl
@[simp] theorem setOverrun_arg (s : State) : (setOverrun s).arg = s.arg := rfl
@[simp] theorem setOverrun_res (s : State) : (setOverrun s).res = s.res := rfl
@[simp] theorem setOverrun_frm (s : State) : (setOverrun s).frm = s.frm := rfl
@[simp] theorem setOverrun_coefBuf (s : State) : (setOverrun s).coefBuf = s.coefBuf := rfl
@[simp] theorem setOverrun_grp (s : State) : (setOverrun s).grp = s.grp := rfl
@[simp] theorem setOverrun_snap (s : State) : (setOverrun s).snap = s.snap := rfl
@[simp] theorem setOverrun_aoa0 (s : State) : (setOverrun s).aoa0 = s.aoa0 := rfl
@[simp] theorem setOverrun_aoa1 (s : State) : (setOverrun s).aoa1 = s.aoa1 := rfl
@[simp] theorem setOverrun_inBuf (s : State) : (setOverrun s).inBuf = s.inBuf := rfl
@[simp] theorem setOverrun_seqr (s : State) : (setOverrun s).seqr = s.seqr := rfl
@[simp] theorem setOverrun_draws (s : State) : (setOverrun s).draws = s.draws := rfl
@[simp] theorem setOverrun_script (s : State) : (setOverrun s).script = s.script := rfl
@[simp] theorem setOverrun_log (s : State) : (setOverrun s).log = s.log := rfl

/-! ### nextDraw -/

@[simp] theorem nextDraw_irqEn (s : State) : (nextDraw s).irqEn = s.irqEn := rfl
@[simp] theorem nextDraw_status (s : State) : (nextDraw s).status = s.status := rfl
@[simp] theorem nextDraw_inLen (s : State) : (nextDraw s).inLen = s.inLen := rfl
@[simp] theorem nextDraw_arg (s : State) : (nextDraw s).arg = s.arg := rfl
@[simp] theorem nextDraw_res (s : State) : (nextDraw s).res = s.res := rfl
@[simp] theorem nextDraw_frm (s : State) : (nextDraw s).frm = s.frm := rfl
@[simp] theorem nextDraw_coefBuf (s : State) : (nextDraw s).coefBuf = s.coefBuf := rfl
@[simp] theorem nextDraw_grp (s : State) : (nextDraw s).grp = s.grp := rfl
@[simp] theorem nextDraw_snap (s : State) : (nextDraw s).snap = s.snap := rfl
@[simp] theorem nextDraw_aoa0 (s : State) : (nextDraw s).aoa0 = s.aoa0 := rfl
@[simp] theorem nextDraw_aoa1 (s : State) : (nextDraw s).aoa1 = s.aoa1 := rfl
@[simp] theorem nextDraw_inBuf (s : State) : (nextDraw s).inBuf = s.inBuf := rfl
@[simp] theorem nextDraw_seqr (s : State) : (nextDraw s).seqr = s.seqr := rfl
@[simp] theorem nextDraw_draws (s : State) : (nextDraw s).draws = s.draws + 1 := rfl
@[simp] theorem nextDraw_script (s : State) : (nextDraw s).script = s.script := rfl
@[simp] theorem nextDraw_log (s : State) : (nextDraw s).log = s.log := rfl

/-! ### finish -/

@[simp] theorem finish_irqEn (e : Ending) (s : State) : (finish e s).irqEn = s.irqEn := rfl
@[simp] theorem finish_status (e : Ending) (s : State) :
    (finish e s).status = completionStatus e s.status := rfl
@[simp] theorem finish_inLen (e : Ending) (s : State) : (finish e s).inLen = s.inLen := rfl
@[simp] theorem finish_arg (e : Ending) (s : State) : (finish e s).arg = s.arg := rfl
@[simp] theorem finish_res (e : Ending) (s : State) : (finish e s).res = s.res := rfl
@[simp] theorem finish_frm (e : Ending) (s : State) : (finish e s).frm = s.frm := rfl
@[simp] theorem finish_coefBuf (e : Ending) (s : State) : (finish e s).coefBuf = s.coefBuf := rfl
@[simp] theorem finish_grp (e : Ending) (s : State) : (finish e s).grp = s.grp := rfl
@[simp] theorem finish_snap (e : Ending) (s : State) : (finish e s).snap = s.snap := rfl
@[simp] theorem finish_aoa0 (e : Ending) (s : State) : (finish e s).aoa0 = s.aoa0 := rfl
@[simp] theorem finish_aoa1 (e : Ending) (s : State) : (finish e s).aoa1 = s.aoa1 := rfl
@[simp] theorem finish_inBuf (e : Ending) (s : State) : (finish e s).inBuf = s.inBuf := rfl
@[simp] theorem finish_seqr (e : Ending) (s : State) : (finish e s).seqr = .idle := rfl
@[simp] theorem finish_draws (e : Ending) (s : State) : (finish e s).draws = s.draws + 1 := rfl
@[simp] theorem finish_script (e : Ending) (s : State) : (finish e s).script = s.script := rfl
@[simp] theorem finish_log (e : Ending) (s : State) : (finish e s).log = s.log := rfl

/-! ### startCommand -/

@[simp] theorem startCommand_irqEn (w : Word) (s : State) :
    (startCommand w s).irqEn = s.irqEn := rfl
@[simp] theorem startCommand_status (w : Word) (s : State) :
    (startCommand w s).status = startStatus s.status := rfl
@[simp] theorem startCommand_inLen (w : Word) (s : State) :
    (startCommand w s).inLen = s.inLen := rfl
@[simp] theorem startCommand_arg (w : Word) (s : State) : (startCommand w s).arg = s.arg := rfl
@[simp] theorem startCommand_res (w : Word) (s : State) : (startCommand w s).res = s.res := rfl
@[simp] theorem startCommand_frm (w : Word) (s : State) : (startCommand w s).frm = s.frm := rfl
@[simp] theorem startCommand_coefBuf (w : Word) (s : State) :
    (startCommand w s).coefBuf = s.coefBuf := rfl
@[simp] theorem startCommand_grp (w : Word) (s : State) : (startCommand w s).grp = s.grp := rfl
@[simp] theorem startCommand_snap (w : Word) (s : State) : (startCommand w s).snap = s.snap := rfl
@[simp] theorem startCommand_aoa0 (w : Word) (s : State) : (startCommand w s).aoa0 = s.aoa0 := rfl
@[simp] theorem startCommand_aoa1 (w : Word) (s : State) : (startCommand w s).aoa1 = s.aoa1 := rfl
@[simp] theorem startCommand_inBuf (w : Word) (s : State) :
    (startCommand w s).inBuf = s.inBuf := rfl
@[simp] theorem startCommand_seqr (w : Word) (s : State) :
    (startCommand w s).seqr = .busy w (latency s.draws) := rfl
@[simp] theorem startCommand_draws (w : Word) (s : State) :
    (startCommand w s).draws = s.draws := rfl
@[simp] theorem startCommand_script (w : Word) (s : State) :
    (startCommand w s).script = s.script := rfl
@[simp] theorem startCommand_log (w : Word) (s : State) : (startCommand w s).log = s.log := rfl

/-! ### resetBlock -/

@[simp] theorem resetBlock_irqEn (s : State) : (resetBlock s).irqEn = State.reset.irqEn := rfl
@[simp] theorem resetBlock_status (s : State) : (resetBlock s).status = State.reset.status := rfl
@[simp] theorem resetBlock_inLen (s : State) : (resetBlock s).inLen = State.reset.inLen := rfl
@[simp] theorem resetBlock_arg (s : State) : (resetBlock s).arg = State.reset.arg := rfl
@[simp] theorem resetBlock_res (s : State) : (resetBlock s).res = State.reset.res := rfl
@[simp] theorem resetBlock_frm (s : State) : (resetBlock s).frm = State.reset.frm := rfl
@[simp] theorem resetBlock_coefBuf (s : State) : (resetBlock s).coefBuf = State.reset.coefBuf := rfl
@[simp] theorem resetBlock_grp (s : State) : (resetBlock s).grp = State.reset.grp := rfl
@[simp] theorem resetBlock_snap (s : State) : (resetBlock s).snap = State.reset.snap := rfl
@[simp] theorem resetBlock_aoa0 (s : State) : (resetBlock s).aoa0 = State.reset.aoa0 := rfl
@[simp] theorem resetBlock_aoa1 (s : State) : (resetBlock s).aoa1 = State.reset.aoa1 := rfl
@[simp] theorem resetBlock_inBuf (s : State) : (resetBlock s).inBuf = State.reset.inBuf := rfl
@[simp] theorem resetBlock_seqr (s : State) : (resetBlock s).seqr = State.reset.seqr := rfl
@[simp] theorem resetBlock_draws (s : State) : (resetBlock s).draws = s.draws := rfl
@[simp] theorem resetBlock_script (s : State) : (resetBlock s).script = s.script := rfl
@[simp] theorem resetBlock_log (s : State) : (resetBlock s).log = s.log := rfl

/-! ### writeArg -/

@[simp] theorem writeArg_irqEn (k : Nat) (v : Word) (s : State) :
    (writeArg k v s).irqEn = s.irqEn := rfl
@[simp] theorem writeArg_status (k : Nat) (v : Word) (s : State) :
    (writeArg k v s).status = s.status := rfl
@[simp] theorem writeArg_inLen (k : Nat) (v : Word) (s : State) :
    (writeArg k v s).inLen = s.inLen := rfl
@[simp] theorem writeArg_arg (k : Nat) (v : Word) (s : State) :
    (writeArg k v s).arg = Vector.ofFn fun i => if i.val = k then v else s.arg[i] := rfl
@[simp] theorem writeArg_res (k : Nat) (v : Word) (s : State) : (writeArg k v s).res = s.res := rfl
@[simp] theorem writeArg_frm (k : Nat) (v : Word) (s : State) : (writeArg k v s).frm = s.frm := rfl
@[simp] theorem writeArg_coefBuf (k : Nat) (v : Word) (s : State) :
    (writeArg k v s).coefBuf = s.coefBuf := rfl
@[simp] theorem writeArg_grp (k : Nat) (v : Word) (s : State) : (writeArg k v s).grp = s.grp := rfl
@[simp] theorem writeArg_snap (k : Nat) (v : Word) (s : State) :
    (writeArg k v s).snap = s.snap := rfl
@[simp] theorem writeArg_aoa0 (k : Nat) (v : Word) (s : State) :
    (writeArg k v s).aoa0 = s.aoa0 := rfl
@[simp] theorem writeArg_aoa1 (k : Nat) (v : Word) (s : State) :
    (writeArg k v s).aoa1 = s.aoa1 := rfl
@[simp] theorem writeArg_inBuf (k : Nat) (v : Word) (s : State) :
    (writeArg k v s).inBuf = s.inBuf := rfl
@[simp] theorem writeArg_seqr (k : Nat) (v : Word) (s : State) :
    (writeArg k v s).seqr = s.seqr := rfl
@[simp] theorem writeArg_draws (k : Nat) (v : Word) (s : State) :
    (writeArg k v s).draws = s.draws := rfl
@[simp] theorem writeArg_script (k : Nat) (v : Word) (s : State) :
    (writeArg k v s).script = s.script := rfl
@[simp] theorem writeArg_log (k : Nat) (v : Word) (s : State) : (writeArg k v s).log = s.log := rfl

/-! ### emit -/

@[simp] theorem emit_irqEn (s : State) : (emit s).irqEn = s.irqEn := rfl
@[simp] theorem emit_status (s : State) :
    (emit s).status = { s.status with snapValid := true } := rfl
@[simp] theorem emit_inLen (s : State) : (emit s).inLen = s.inLen := rfl
@[simp] theorem emit_arg (s : State) : (emit s).arg = s.arg := rfl
@[simp] theorem emit_res (s : State) : (emit s).res = s.res := rfl
@[simp] theorem emit_frm (s : State) : (emit s).frm = s.frm := rfl
@[simp] theorem emit_coefBuf (s : State) : (emit s).coefBuf = s.coefBuf := rfl
@[simp] theorem emit_grp (s : State) : (emit s).grp = s.grp := rfl
@[simp] theorem emit_snap (s : State) : (emit s).snap = emitted s := rfl
@[simp] theorem emit_aoa0 (s : State) : (emit s).aoa0 = s.aoa0 := rfl
@[simp] theorem emit_aoa1 (s : State) : (emit s).aoa1 = s.aoa1 := rfl
@[simp] theorem emit_inBuf (s : State) : (emit s).inBuf = s.inBuf := rfl
@[simp] theorem emit_seqr (s : State) : (emit s).seqr = s.seqr := rfl
@[simp] theorem emit_draws (s : State) : (emit s).draws = s.draws := rfl
@[simp] theorem emit_script (s : State) : (emit s).script = s.script := rfl
@[simp] theorem emit_log (s : State) : (emit s).log = s.log := rfl

/-! ### startGroup -/

@[simp] theorem startGroup_irqEn (s : State) : (startGroup s).irqEn = s.irqEn := rfl
@[simp] theorem startGroup_status (s : State) :
    (startGroup s).status = { s.status with groupActive := true } := rfl
@[simp] theorem startGroup_inLen (s : State) : (startGroup s).inLen = s.inLen := rfl
@[simp] theorem startGroup_arg (s : State) : (startGroup s).arg = s.arg := rfl
@[simp] theorem startGroup_res (s : State) : (startGroup s).res = s.res := rfl
@[simp] theorem startGroup_frm (s : State) : (startGroup s).frm = s.frm := rfl
@[simp] theorem startGroup_coefBuf (s : State) : (startGroup s).coefBuf = s.coefBuf := rfl
@[simp] theorem startGroup_grp (s : State) :
    (startGroup s).grp = { s.grp with seq := s.frm.seq, chanspec := s.frm.chanspec, rssi := s.frm.rssi, mask := 0, len := Vector.replicate 16 0 } := rfl
@[simp] theorem startGroup_snap (s : State) : (startGroup s).snap = s.snap := rfl
@[simp] theorem startGroup_aoa0 (s : State) : (startGroup s).aoa0 = s.aoa0 := rfl
@[simp] theorem startGroup_aoa1 (s : State) : (startGroup s).aoa1 = s.aoa1 := rfl
@[simp] theorem startGroup_inBuf (s : State) : (startGroup s).inBuf = s.inBuf := rfl
@[simp] theorem startGroup_seqr (s : State) : (startGroup s).seqr = s.seqr := rfl
@[simp] theorem startGroup_draws (s : State) : (startGroup s).draws = s.draws := rfl
@[simp] theorem startGroup_script (s : State) : (startGroup s).script = s.script := rfl
@[simp] theorem startGroup_log (s : State) : (startGroup s).log = s.log := rfl

/-! ### addSlot -/

@[simp] theorem addSlot_irqEn (s : State) : (addSlot s).irqEn = s.irqEn := rfl
@[simp] theorem addSlot_status (s : State) : (addSlot s).status = s.status := rfl
@[simp] theorem addSlot_inLen (s : State) : (addSlot s).inLen = s.inLen := rfl
@[simp] theorem addSlot_arg (s : State) : (addSlot s).arg = s.arg := rfl
@[simp] theorem addSlot_res (s : State) : (addSlot s).res = s.res := rfl
@[simp] theorem addSlot_frm (s : State) : (addSlot s).frm = s.frm := rfl
@[simp] theorem addSlot_coefBuf (s : State) : (addSlot s).coefBuf = s.coefBuf := rfl
@[simp] theorem addSlot_snap (s : State) : (addSlot s).snap = s.snap := rfl
@[simp] theorem addSlot_aoa0 (s : State) : (addSlot s).aoa0 = s.aoa0 := rfl
@[simp] theorem addSlot_aoa1 (s : State) : (addSlot s).aoa1 = s.aoa1 := rfl
@[simp] theorem addSlot_inBuf (s : State) : (addSlot s).inBuf = s.inBuf := rfl
@[simp] theorem addSlot_seqr (s : State) : (addSlot s).seqr = s.seqr := rfl
@[simp] theorem addSlot_draws (s : State) : (addSlot s).draws = s.draws := rfl
@[simp] theorem addSlot_script (s : State) : (addSlot s).script = s.script := rfl
@[simp] theorem addSlot_log (s : State) : (addSlot s).log = s.log := rfl

/-! ### unpackCsiWrites -/

@[simp] theorem unpackCsiWrites_irqEn (bw : Bw) (s : State) :
    (unpackCsiWrites bw s).irqEn = s.irqEn := rfl
@[simp] theorem unpackCsiWrites_status (bw : Bw) (s : State) :
    (unpackCsiWrites bw s).status = { s.status with frameValid := false } := rfl
@[simp] theorem unpackCsiWrites_inLen (bw : Bw) (s : State) :
    (unpackCsiWrites bw s).inLen = s.inLen := rfl
@[simp] theorem unpackCsiWrites_arg (bw : Bw) (s : State) :
    (unpackCsiWrites bw s).arg = s.arg := rfl
@[simp] theorem unpackCsiWrites_frm (bw : Bw) (s : State) :
    (unpackCsiWrites bw s).frm = s.frm := rfl
@[simp] theorem unpackCsiWrites_coefBuf (bw : Bw) (s : State) :
    (unpackCsiWrites bw s).coefBuf = Sparse.writeFrom s.coefBuf 0 (unpackCsi s bw 0) := rfl
@[simp] theorem unpackCsiWrites_grp (bw : Bw) (s : State) :
    (unpackCsiWrites bw s).grp = s.grp := rfl
@[simp] theorem unpackCsiWrites_snap (bw : Bw) (s : State) :
    (unpackCsiWrites bw s).snap = s.snap := rfl
@[simp] theorem unpackCsiWrites_aoa0 (bw : Bw) (s : State) :
    (unpackCsiWrites bw s).aoa0 = s.aoa0 := rfl
@[simp] theorem unpackCsiWrites_aoa1 (bw : Bw) (s : State) :
    (unpackCsiWrites bw s).aoa1 = s.aoa1 := rfl
@[simp] theorem unpackCsiWrites_inBuf (bw : Bw) (s : State) :
    (unpackCsiWrites bw s).inBuf = s.inBuf := rfl
@[simp] theorem unpackCsiWrites_seqr (bw : Bw) (s : State) :
    (unpackCsiWrites bw s).seqr = s.seqr := rfl
@[simp] theorem unpackCsiWrites_draws (bw : Bw) (s : State) :
    (unpackCsiWrites bw s).draws = s.draws := rfl
@[simp] theorem unpackCsiWrites_script (bw : Bw) (s : State) :
    (unpackCsiWrites bw s).script = s.script := rfl
@[simp] theorem unpackCsiWrites_log (bw : Bw) (s : State) :
    (unpackCsiWrites bw s).log = s.log := rfl

/-! ### frameWrites -/

@[simp] theorem frameWrites_irqEn (bw : Bw) (s : State) : (frameWrites bw s).irqEn = s.irqEn := rfl
@[simp] theorem frameWrites_status (bw : Bw) (s : State) :
    (frameWrites bw s).status = { s.status with frameValid := true } := rfl
@[simp] theorem frameWrites_inLen (bw : Bw) (s : State) : (frameWrites bw s).inLen = s.inLen := rfl
@[simp] theorem frameWrites_arg (bw : Bw) (s : State) : (frameWrites bw s).arg = s.arg := rfl
@[simp] theorem frameWrites_frm (bw : Bw) (s : State) :
    (frameWrites bw s).frm = frameFields s bw := rfl
@[simp] theorem frameWrites_coefBuf (bw : Bw) (s : State) :
    (frameWrites bw s).coefBuf = Sparse.writeFrom s.coefBuf 0 (unpackCsi s bw Config.hdrLen) := rfl
@[simp] theorem frameWrites_grp (bw : Bw) (s : State) : (frameWrites bw s).grp = s.grp := rfl
@[simp] theorem frameWrites_snap (bw : Bw) (s : State) : (frameWrites bw s).snap = s.snap := rfl
@[simp] theorem frameWrites_aoa0 (bw : Bw) (s : State) : (frameWrites bw s).aoa0 = s.aoa0 := rfl
@[simp] theorem frameWrites_aoa1 (bw : Bw) (s : State) : (frameWrites bw s).aoa1 = s.aoa1 := rfl
@[simp] theorem frameWrites_inBuf (bw : Bw) (s : State) : (frameWrites bw s).inBuf = s.inBuf := rfl
@[simp] theorem frameWrites_seqr (bw : Bw) (s : State) : (frameWrites bw s).seqr = s.seqr := rfl
@[simp] theorem frameWrites_draws (bw : Bw) (s : State) : (frameWrites bw s).draws = s.draws := rfl
@[simp] theorem frameWrites_script (bw : Bw) (s : State) :
    (frameWrites bw s).script = s.script := rfl
@[simp] theorem frameWrites_log (bw : Bw) (s : State) : (frameWrites bw s).log = s.log := rfl

/-! ### aoaWrites -/

@[simp] theorem aoaWrites_irqEn (cs : Chanspec) (s : State) :
    (aoaWrites cs s).irqEn = s.irqEn := rfl
@[simp] theorem aoaWrites_status (cs : Chanspec) (s : State) :
    (aoaWrites cs s).status = s.status := rfl
@[simp] theorem aoaWrites_inLen (cs : Chanspec) (s : State) :
    (aoaWrites cs s).inLen = s.inLen := rfl
@[simp] theorem aoaWrites_arg (cs : Chanspec) (s : State) : (aoaWrites cs s).arg = s.arg := rfl
@[simp] theorem aoaWrites_frm (cs : Chanspec) (s : State) : (aoaWrites cs s).frm = s.frm := rfl
@[simp] theorem aoaWrites_coefBuf (cs : Chanspec) (s : State) :
    (aoaWrites cs s).coefBuf = s.coefBuf := rfl
@[simp] theorem aoaWrites_grp (cs : Chanspec) (s : State) : (aoaWrites cs s).grp = s.grp := rfl
@[simp] theorem aoaWrites_snap (cs : Chanspec) (s : State) : (aoaWrites cs s).snap = s.snap := rfl
@[simp] theorem aoaWrites_aoa0 (cs : Chanspec) (s : State) :
    (aoaWrites cs s).aoa0 = Sparse.writeFrom s.aoa0 0 (aoaAngles s cs 12 0x4000) := rfl
@[simp] theorem aoaWrites_aoa1 (cs : Chanspec) (s : State) :
    (aoaWrites cs s).aoa1 = Sparse.writeFrom s.aoa1 0 (aoaAngles s cs 4 0x5000) := rfl
@[simp] theorem aoaWrites_inBuf (cs : Chanspec) (s : State) :
    (aoaWrites cs s).inBuf = s.inBuf := rfl
@[simp] theorem aoaWrites_seqr (cs : Chanspec) (s : State) : (aoaWrites cs s).seqr = s.seqr := rfl
@[simp] theorem aoaWrites_draws (cs : Chanspec) (s : State) :
    (aoaWrites cs s).draws = s.draws := rfl
@[simp] theorem aoaWrites_script (cs : Chanspec) (s : State) :
    (aoaWrites cs s).script = s.script := rfl
@[simp] theorem aoaWrites_log (cs : Chanspec) (s : State) : (aoaWrites cs s).log = s.log := rfl

/-! ### The flags of the status updates -/

@[simp] theorem completionStatus_done (e : Ending) (st : Status) :
    (completionStatus e st).done = true := rfl
@[simp] theorem completionStatus_absent (e : Ending) (st : Status) :
    (completionStatus e st).absent = decide (e = .absent) := rfl
@[simp] theorem completionStatus_emitted (e : Ending) (st : Status) :
    (completionStatus e st).emitted = decide (e = .doneEmitted) := rfl
@[simp] theorem completionStatus_overrun (e : Ending) (st : Status) :
    (completionStatus e st).overrun = st.overrun := rfl
@[simp] theorem completionStatus_err (e : Ending) (st : Status) :
    (completionStatus e st).err = e.err := rfl
@[simp] theorem completionStatus_frameValid (e : Ending) (st : Status) :
    (completionStatus e st).frameValid = st.frameValid := rfl
@[simp] theorem completionStatus_groupActive (e : Ending) (st : Status) :
    (completionStatus e st).groupActive = st.groupActive := rfl
@[simp] theorem completionStatus_snapValid (e : Ending) (st : Status) :
    (completionStatus e st).snapValid = st.snapValid := rfl

@[simp] theorem startStatus_done (st : Status) : (startStatus st).done = false := rfl
@[simp] theorem startStatus_absent (st : Status) : (startStatus st).absent = false := rfl
@[simp] theorem startStatus_emitted (st : Status) : (startStatus st).emitted = false := rfl
@[simp] theorem startStatus_overrun (st : Status) : (startStatus st).overrun = st.overrun := rfl
@[simp] theorem startStatus_err (st : Status) : (startStatus st).err = .ok := rfl
@[simp] theorem startStatus_frameValid (st : Status) :
    (startStatus st).frameValid = st.frameValid := rfl
@[simp] theorem startStatus_groupActive (st : Status) :
    (startStatus st).groupActive = st.groupActive := rfl
@[simp] theorem startStatus_snapValid (st : Status) :
    (startStatus st).snapValid = st.snapValid := rfl

@[simp] theorem Ending.err_done : Ending.done.err = .ok := rfl
@[simp] theorem Ending.err_doneEmitted : Ending.doneEmitted.err = .ok := rfl
@[simp] theorem Ending.err_absent : Ending.absent.err = .ok := rfl
@[simp] theorem Ending.err_raise (e : ErrCode) : (Ending.raise e).err = e := rfl

end Sys2Proof.Machine
end

