-- ==== Sys2Proof/Laws/Ops.lean ====
section
/-! SUPPORT. One lemma for each shared operation that says what it can do, for later proofs to cite
instead of unfolding the operation. -/

namespace Sys2Proof.Machine

/-! ### Results and completion -/

theorem setResults_getElem (vs : List Word) (s : State) (k : Nat) (h : k < 8) :
    (setResults vs s).res[k] = vs.getD k s.res[k] := by
  simp [setResults]

/-- A completion always answers a next state. -/
theorem complete_eq (p : Ending × State) : complete p = .next (finish p.1 p.2) := rfl

theorem completedWith_finish (e : Ending) (s u : State) (h : u.status.overrun = s.status.overrun) :
    CompletedWith e.err (decide (e = .absent)) (decide (e = .doneEmitted)) s (finish e u) :=
  ⟨rfl, rfl, rfl, rfl, rfl, h⟩

/-- An ending that the pseudocode reaches without a write changes STATUS only. -/
theorem onlyCompletes_finish (e : Ending) (s : State) (h : e ≠ .doneEmitted) :
    OnlyCompletes e.err (decide (e = .absent)) s (finish e s) where
  status := ⟨rfl, rfl, rfl, rfl, by simpa using h, rfl⟩
  inputs := ⟨rfl, rfl, rfl, rfl, rfl, rfl⟩
  results := fun _ _ => rfl
  frame := ⟨rfl, rfl, rfl⟩
  group := ⟨rfl, rfl⟩
  snapshot := ⟨rfl, rfl⟩
  angles := ⟨rfl, rfl⟩

theorem onlyCompletes_raise (e : ErrCode) (s : State) :
    OnlyCompletes e false s (finish (.raise e) s) :=
  onlyCompletes_finish (.raise e) s (by simp)

theorem onlyCompletes_absent (s : State) : OnlyCompletes .ok true s (finish .absent s) :=
  onlyCompletes_finish .absent s (by simp)

theorem onlyCompletes_done (s : State) : OnlyCompletes .ok false s (finish .done s) :=
  onlyCompletes_finish .done s (by simp)

/-- The results past the end of the list keep their values. -/
theorem keepsResultsFrom_setResults (vs : List Word) (s : State) :
    KeepsResultsFrom vs.length s (setResults vs s) := by
  intro k hk
  have := setResults_getElem vs s k.val k.isLt
  simp only [Fin.getElem_fin] at *
  rw [this, List.getD_eq_getElem?_getD, List.getElem?_eq_none hk]; rfl

/-- A command whose only writes are results. -/
theorem writesResults_finish (vs : List Word) (s : State) :
    WritesResults vs.length s (finish .done (setResults vs s)) where
  status := ⟨rfl, rfl, rfl, rfl, rfl, rfl⟩
  inputs := ⟨rfl, rfl, rfl, rfl, rfl, rfl⟩
  results := keepsResultsFrom_setResults vs s
  frame := ⟨rfl, rfl, rfl⟩
  group := ⟨rfl, rfl⟩
  snapshot := ⟨rfl, rfl⟩
  angles := ⟨rfl, rfl⟩

/-! ### Operand forms -/

theorem rsvSet_iff (w : Word) (n : Nat) : rsvSet w n = true ↔ 2 ^ n ≤ w.toNat := by
  simp only [rsvSet, decide_eq_true_eq, ne_eq]
  rw [← BitVec.toNat_inj]
  rw [BitVec.toNat_ushiftRight, Nat.shiftRight_eq_div_pow, show BitVec.toNat (0 : Word) = 0 from rfl,
    Nat.div_eq_zero_iff]
  have : 0 < 2 ^ n := Nat.two_pow_pos n
  omega

theorem rsvSet_eq_false_iff (w : Word) (n : Nat) : rsvSet w n = false ↔ w.toNat < 2 ^ n := by
  rw [← Bool.not_eq_true, rsvSet_iff]; omega

theorem inLenTooLong_iff (s : State) : inLenTooLong s = true ↔ 4096 < s.inLen.toNat :=
  decide_eq_true_iff

/-- A register below 4 is its own bandwidth operand. -/
theorem bwOperand_eq {w : Word} {bw : Bw} (h : w.toNat = bw.code) : bwOperand w = bw := by
  unfold bwOperand bwOfCode
  have : (w.extractLsb' 0 2).toNat = bw.code := by
    have : bw.code < 4 := by cases bw <;> decide
    simp only [BitVec.extractLsb'_toNat, h, Nat.shiftRight_zero]
    omega
  rw [this]
  cases bw <;> rfl

/-! ### Chanspecs -/

/-- A chanspec decodes exactly when its bandwidth and band fields are legal together, and then to
its fields. -/
theorem csDecode_ok_iff (v : Half) (cs : Chanspec) :
    csDecode v = .ok cs ↔
      bwOfField (v.extractLsb' 11 3) = some cs.bw ∧ bandOfField (v.extractLsb' 14 2) = some cs.band ∧
        bandAllows cs.band cs.bw = true ∧ cs.center = v.extractLsb' 0 8 ∧
        cs.sideband = v.extractLsb' 8 3 := by
  unfold csDecode
  cases cs
  cases bwOfField (v.extractLsb' 11 3) with
  | none => simp
  | some bw =>
    cases bandOfField (v.extractLsb' 14 2) with
    | none => simp
    | some band =>
      simp only [Option.some.injEq]
      split <;> rename_i h
      · constructor
        · intro h'; injection h' with h'; injection h' with h1 h2 h3 h4
          subst h1 h2 h3 h4
          exact ⟨rfl, rfl, h, rfl, rfl⟩
        · rintro ⟨rfl, rfl, _, rfl, rfl⟩; rfl
      · constructor
        · intro h'; cases h'
        · rintro ⟨rfl, rfl, h', _⟩; exact absurd h' h

/-- The errors of a chanspec: no other error code. -/
theorem csDecode_error {v : Half} {e : ErrCode} (h : csDecode v = .error e) :
    e = .invalidBandwidth ∨ e = .invalidBand := by
  unfold csDecode at h
  split at h
  · cases h; exact .inl rfl
  · split at h
    · cases h; exact .inr rfl
    · split at h <;> cases h
      exact .inl rfl

theorem bw_nsub_le (bw : Bw) : bw.nsub ≤ 512 := by cases bw <;> decide

theorem bw_nsub_pos (bw : Bw) : 0 < bw.nsub := by cases bw <;> decide

/-! ### Reads of IN_BUF -/

theorem memRead_two (s : State) (a : Nat) :
    memRead s a 2 = (inByte s a).toNat + 256 * (inByte s (a + 1)).toNat := by
  simp [memRead, inBytes, List.range_succ, leNat]

theorem memRead_four (s : State) (a : Nat) :
    memRead s a 4 = (inByte s a).toNat + 256 * (inByte s (a + 1)).toNat +
      65536 * (inByte s (a + 2)).toNat + 16777216 * (inByte s (a + 3)).toNat := by
  simp only [memRead, inBytes, List.range_succ, List.range_zero, List.map_cons, List.map_nil,
    List.nil_append, List.cons_append, leNat, Nat.add_zero]
  omega

theorem memReadBE_two (s : State) (a : Nat) :
    memReadBE s a 2 = 256 * (inByte s a).toNat + (inByte s (a + 1)).toNat := by
  simp [memReadBE, inBytes, List.range_succ, leNat]
  omega

/-! ### The unpacked payload -/

theorem unpackCsi_length (s : State) (bw : Bw) (a : Nat) : (unpackCsi s bw a).length = bw.nsub := by
  simp [unpackCsi, rotateRight, wireSamples]

/-- Entry `j` of the unpacked payload is wire sample `(j + n/2) mod n`. -/
theorem unpackCsi_getElem? (s : State) (bw : Bw) (a j : Nat) (h : j < bw.nsub) :
    (unpackCsi s bw a)[j]? =
      some (unpackComplex
        (BitVec.ofNat 32 (memRead s (a + 4 * ((j + bw.nsub / 2) % bw.nsub)) 4))) := by
  have he : bw.nsub % 2 = 0 := by cases bw <;> rfl
  simp only [unpackCsi, rotateRight]
  rw [List.getElem?_append]
  simp only [wireSamples, List.length_drop, List.length_map, List.length_range,
    List.getElem?_drop, List.getElem?_take, List.getElem?_map]
  by_cases hj : j < bw.nsub / 2
  · rw [if_pos (by omega), Nat.mod_eq_of_lt (by omega), List.getElem?_range (by omega)]
    simp only [Option.map_some]
    rw [show bw.nsub - bw.nsub / 2 + j = j + bw.nsub / 2 by omega]
  · rw [if_neg (by omega), if_pos (by omega), List.getElem?_range (by omega),
      Nat.mod_eq_sub_mod (by omega), Nat.mod_eq_of_lt (by omega)]
    simp only [Option.map_some]
    rw [show j - (bw.nsub - (bw.nsub - bw.nsub / 2)) = j + bw.nsub / 2 - bw.nsub by omega]

/-! ### The grouper -/

/-- The flush emits the group exactly when one is in progress with a populated slot. -/
theorem flush_eq (s : State) :
    (s.status.groupActive = true ∧ s.grp.mask ≠ 0 ∧ flush s = (true, setGroupActive false (emit s))) ∨
    ((s.status.groupActive = false ∨ s.grp.mask = 0) ∧ flush s = (false, setGroupActive false s)) := by
  unfold flush
  cases h : s.status.groupActive
  · simp
  · by_cases hm : s.grp.mask = 0
    · simp [hm]
    · exact .inl ⟨rfl, hm, by simpa using hm⟩

theorem entryCount_eq {n : BitVec 10} (h : n.toNat ≤ 512) : entryCount n = n.toNat :=
  Nat.min_eq_left h

/-! ### The estimators -/

/-- AOA and TOF end in NO_SNAPSHOT, run on the decoded chanspec, or stop where R190 says they cannot
come. -/
theorem withSnapshot_eq (s : State) (body : Chanspec → State → Ending × State) :
    (s.status.snapValid = false ∧ withSnapshot s body = complete (.raise .noSnapshot, s)) ∨
    (s.status.snapValid = true ∧ ∃ cs, csDecode s.snap.chanspec = .ok cs ∧
      withSnapshot s body = complete (body cs s)) ∨
    (s.status.snapValid = true ∧ ∃ e, csDecode s.snap.chanspec = .error e ∧
      withSnapshot s body = .fault .undecodableSnapshot) := by
  unfold withSnapshot
  cases h : s.status.snapValid
  · simp
  · cases hd : csDecode s.snap.chanspec <;> simp

/-! ### Bus accesses -/

/-- The checks of R61 and R62 pass a well-formed access. -/
theorem accessStop_none {off : Nat} {w : Width} (h : off < 0x30000) (ha : off % w.bytes = 0)
    (hw : w = .w32 ∨ (0x1000 ≤ off ∧ off < 0x2000)) : accessStop off w = none := by
  unfold accessStop
  rw [if_neg (by omega), if_neg (by omega), if_neg]
  rintro ⟨h1, h2⟩
  rcases hw with hw | hw
  · exact h1 hw
  · omega

/-- Inside the window an access passes, or stops in a bus error, as it is well formed or not. -/
theorem accessStop_cases (off : Nat) (w : Width) (h : off < 0x30000) :
    (accessStop off w = none ∧ Access.aligned off w = true ∧ Access.widthTaken off w = true) ∨
    (∃ f, accessStop off w = some (.fault f) ∧
      ¬ (Access.aligned off w = true ∧ Access.widthTaken off w = true)) := by
  by_cases hh : Access.aligned off w = true ∧ Access.widthTaken off w = true
  · refine .inl ⟨?_, hh⟩
    simp only [Access.aligned, Access.widthTaken, Bool.or_eq_true, Bool.and_eq_true,
      decide_eq_true_eq] at hh
    exact accessStop_none h hh.1 hh.2
  · refine .inr ?_
    unfold accessStop
    rw [if_neg (by omega)]
    split
    · exact ⟨_, rfl, hh⟩
    · rename_i h1
      have : w ≠ .w32 ∧ (off < 0x1000 ∨ 0x2000 ≤ off) := by
        simp only [Access.aligned, Access.widthTaken, Bool.or_eq_true, Bool.and_eq_true,
          decide_eq_true_eq, not_and, not_or] at hh
        have := hh (by omega)
        exact ⟨this.1, by have := this.2; omega⟩
      rw [if_pos this]
      exact ⟨_, rfl, hh⟩

/-- The regions of the map are the intervals of R60. -/
theorem regionOf_interval (off : Nat) :
    (off < 0x100 → regionOf off = .registers) ∧
    (0x1000 ≤ off → off < 0x2000 → regionOf off = .inBuf) ∧
    (0x2000 ≤ off → off < 0x4000 → regionOf off = .coefBuf) ∧
    (0x4000 ≤ off → off < 0x5000 → regionOf off = .aoa0) ∧
    (0x5000 ≤ off → off < 0x6000 → regionOf off = .aoa1) ∧
    (0x10000 ≤ off → off < 0x30000 → regionOf off = .snapGrid) := by
  unfold regionOf Config.inBufSize
  repeat' constructor
  all_goals
    intros
    repeat' split
    all_goals first | rfl | omega

theorem regionOf_inBuf {a : Nat} (h : a < 4096) : regionOf (0x1000 + a) = .inBuf :=
  (regionOf_interval _).2.1 (by omega) (by omega)

theorem inByte_of_read? {s : State} {a : Nat} {b : Byte} (h : Sparse.read? s.inBuf a = some b) :
    inByte s a = b := by
  simp [inByte, h]

theorem writeBytes_length (w : Width) (v : Word) : (writeBytes w v).length = w.bytes := by
  simp [writeBytes]

/-- What IN_BUF reads as after a write of any width. -/
theorem read?_writeBytes (m : Memory) (a : Nat) (w : Width) (v : Word) (b : Nat) :
    Sparse.read? (Sparse.writeFrom m a (writeBytes w v)) b =
      if a ≤ b ∧ b < a + w.bytes then some (v.extractLsb' (8 * (b - a)) 8)
      else Sparse.read? m b := by
  rw [Sparse.read?_writeFrom, writeBytes_length]
  split
  · rename_i h
    simp only [writeBytes, List.getElem?_map, List.getElem?_range (show b - a < w.bytes by omega),
      Option.map_some]
  · rfl

theorem busWrite_inBuf {s : State} {a : Nat} {w : Width} (v : Word) (hb : isBusy s = false)
    (h : a < 4096) (ha : (0x1000 + a) % w.bytes = 0) :
    busWrite s (0x1000 + a) w v =
      .ok { s with inBuf := Sparse.writeFrom s.inBuf a (writeBytes w v) } := by
  unfold busWrite
  rw [accessStop_none (by omega) ha (.inr (by omega))]
  simp [writeEffect, regionOf_inBuf h, unlessBusy, hb]

theorem busRead_inBuf {s : State} {a : Nat} {w : Width} (h : a < 4096)
    (ha : (0x1000 + a) % w.bytes = 0) :
    busRead s (0x1000 + a) w = .ok (BitVec.ofNat 32 (memRead s a w.bytes)) := by
  unfold busRead
  rw [accessStop_none (by omega) ha (.inr (by omega))]
  simp [readValue, regionOf_inBuf h]

theorem busRead_coefBuf {s : State} {off : Nat} (hb : isBusy s = false) (h : off % 4 = 0)
    (h1 : 0x2000 ≤ off) (h2 : off < 0x4000) :
    busRead s off .w32 = .ok (cplxWindowWord s s.coefBuf 0x2000 off) := by
  have := (regionOf_interval off).2.2.1 h1 h2
  rw [busRead, accessStop_none (by omega) h (.inl rfl)]
  simp only [readValue, this, hb]; rfl

theorem busRead_snapGrid {s : State} {off : Nat} (hb : isBusy s = false) (h : off % 4 = 0)
    (h1 : 0x10000 ≤ off) (h2 : off < 0x30000) :
    busRead s off .w32 = .ok (cplxWindowWord s s.snap.grid 0x10000 off) := by
  have := (regionOf_interval off).2.2.2.2.2 h1 h2
  rw [busRead, accessStop_none (by omega) h (.inl rfl)]
  simp only [readValue, this, hb]; rfl

theorem busRead_aoa0 {s : State} {off : Nat} (hb : isBusy s = false) (h : off % 4 = 0)
    (h1 : 0x4000 ≤ off) (h2 : off < 0x5000) :
    busRead s off .w32 = .ok (f64WindowWord s s.aoa0 0x4000 off) := by
  have := (regionOf_interval off).2.2.2.1 h1 h2
  rw [busRead, accessStop_none (by omega) h (.inl rfl)]
  simp only [readValue, this, hb]; rfl

theorem busRead_aoa1 {s : State} {off : Nat} (hb : isBusy s = false) (h : off % 4 = 0)
    (h1 : 0x5000 ≤ off) (h2 : off < 0x6000) :
    busRead s off .w32 = .ok (f64WindowWord s s.aoa1 0x5000 off) := by
  have := (regionOf_interval off).2.2.2.2.1 h1 h2
  rw [busRead, accessStop_none (by omega) h (.inl rfl)]
  simp only [readValue, this, hb]; rfl

/-- While no command runs, a register offset reads as its word. -/
theorem busRead_register {s : State} {off : Nat} (hb : isBusy s = false) (h : off % 4 = 0)
    (h1 : off < 0x100) : busRead s off .w32 = .ok (regWord s off) := by
  rw [busRead, accessStop_none (by omega) h (.inl rfl)]
  simp [readValue, (regionOf_interval off).1 h1, hb]

/-- A register that no command is changing reads as its word, BUSY or not. -/
theorem busRead_steady {s : State} {off : Nat} (h : off % 4 = 0) (h1 : off < 0x020) :
    busRead s off .w32 = .ok (regWord s off) := by
  rw [busRead, accessStop_none (by omega) h (.inl rfl)]
  have : isResultReg off = false := by simp [isResultReg]; omega
  simp [readValue, (regionOf_interval off).1 (by omega), this]

theorem getD_toList {α : Type} {n : Nat} (v : Vector α n) (k : Fin n) (d : α) :
    v.toList.getD k.val d = v[k] := by
  simp [List.getD_eq_getElem?_getD]

/-- The word of RES `k`. -/
theorem regWord_res (s : State) (k : Fin 8) : regWord s (0x020 + 4 * k.val) = s.res[k] := by
  have hk := k.isLt
  unfold regWord
  simp (disch := omega) only [if_neg, if_pos]
  rw [show (0x020 + 4 * k.val - 0x020) / 4 = k.val by omega, getD_toList]

/-- The word of SNAP_LEN `k`. -/
theorem regWord_snapLen (s : State) (k : Fin 16) :
    regWord s (0x0C0 + 4 * k.val) = s.snap.len[k].setWidth 32 := by
  have hk := k.isLt
  unfold regWord
  simp (disch := omega) only [if_neg]
  rw [show (0x0C0 + 4 * k.val - 0x0C0) / 4 = k.val by omega, getD_toList]

/-- DONE is bit 1 of STATUS. -/
theorem statusWord_done (s : State) : (statusWord s).getLsbD 1 = s.status.done := by
  have h : ∀ (b d a e o f g n : Bool) (c : ErrCode), (BitVec.ofNat 32
      (bitAt b 0 + bitAt d 1 + bitAt a 2 + bitAt e 3 + bitAt o 4 + (errCode c).toNat * 2 ^ 8 +
        bitAt f 16 + bitAt g 17 + bitAt n 18)).getLsbD 1 = d := by
    intro b d a e o f g n c
    cases c <;> revert b d a e o f g n <;> decide +kernel
  exact h ..

/-- What a read gives does not depend on the script. -/
theorem readValue_script (s : State) (ops : List HostOp) (off : Nat) (w : Width) :
    readValue { s with script := ops } off w = readValue s off w := rfl

/-- While BUSY what a read gives does not depend on the bus cycles left. -/
theorem readValue_left {s : State} {word : Word} {n : Nat} (h : s.seqr = .busy word n) (m off : Nat)
    (w : Width) : readValue { s with seqr := .busy word m } off w = readValue s off w := by
  obtain ⟨⟩ := s
  simp only at h
  subst h
  rfl

/-- Word `c` of stored entry `k` of a complex window. -/
theorem cplxWindowWord_eq {s : State} {m : Sparse Cplx} {base off k c : Nat} {z : Cplx}
    (hz : Sparse.read? m k = some z) (hc : c < 4) (h : off = base + 16 * k + 4 * c) :
    cplxWindowWord s m base off = f64Half (if c < 2 then z.re else z.im) (decide (c % 2 = 1)) := by
  subst h
  unfold cplxWindowWord
  rw [show (base + 16 * k + 4 * c - base) / 16 = k by omega,
    show (base + 16 * k + 4 * c - base) / 8 % 2 = c / 2 by omega,
    show (base + 16 * k + 4 * c - base) / 4 % 2 = c % 2 by omega, hz]
  simp only
  congr 1
  by_cases hh : c < 2
  · rw [if_pos hh, if_pos (by omega)]
  · rw [if_neg hh, if_neg (by omega)]

/-- Word `c` of stored entry `k` of an angle window. -/
theorem f64WindowWord_eq {s : State} {m : Sparse F64} {base off k c : Nat} {z : F64}
    (hz : Sparse.read? m k = some z) (hc : c < 2) (h : off = base + 8 * k + 4 * c) :
    f64WindowWord s m base off = f64Half z (decide (c = 1)) := by
  subst h
  unfold f64WindowWord
  rw [show (base + 8 * k + 4 * c - base) / 8 = k by omega,
    show (base + 8 * k + 4 * c - base) / 4 % 2 = c by omega, hz]

/-! ### Steps -/

/-- What a step is: a bus cycle of the host, or the completion of the latched command. -/
theorem step_eq (s : State) :
    (s.seqr = .idle ∧ step s = hostCycle s) ∨
    (∃ w, s.seqr = .busy w 0 ∧ step s = runLatched w s) ∨
    (∃ w left, s.seqr = .busy w (left + 1) ∧
      step s = hostCycle { s with seqr := .busy w left }) := by
  unfold step
  rcases h : s.seqr with _ | ⟨w, _ | left⟩
  · exact .inl ⟨rfl, rfl⟩
  · exact .inr (.inl ⟨w, rfl, rfl⟩)
  · exact .inr (.inr ⟨w, left, rfl, rfl⟩)

/-- A `wait` that is served ends when DONE is 1 and stays when it is 0. -/
theorem serve_wait (s : State) :
    serve .wait s = .next (nextDraw
      { s with script := if s.status.done then s.script else .wait :: s.script }) := by
  simp only [serve, statusWord_done]
  cases s.status.done <;> rfl

/-- A write that no check stops is served by its effect. -/
theorem serve_write {s : State} {off : Nat} {w : Width} (v : Word) (h : accessStop off w = none) :
    serve (.write off w v) s = .next (nextDraw (writeEffect off w v s)) := by
  simp only [serve, busWrite, h]

/-- An access that a check stops ends the script, a write and a read alike. -/
theorem serve_stop {s : State} {off : Nat} {w : Width} {e : BusStop} (v : Word) (name : String)
    (h : accessStop off w = some e) :
    serve (.write off w v) s = e.outcome ∧ serve (.read off w name) s = e.outcome := by
  simp only [serve, busWrite, busRead, h, and_self]

/-- A latched word runs as its command or as an illegal one. -/
theorem runLatched_eq (w : Word) (s : State) :
    (∃ i, decode w = .ok i ∧ runLatched w s = exec i s) ∨
    (∃ e, decode w = .error e ∧ runLatched w s = execIllegal s) := by
  unfold runLatched
  cases h : decode w with
  | ok i => exact .inl ⟨i, rfl, rfl⟩
  | error e => exact .inr ⟨e, rfl, rfl⟩

end Sys2Proof.Machine
end

