-- ==== Sys2Proof/Laws/Effects.lean ====
section
/-! SUPPORT. What the commands can do, said once: the writes and the ending of every completion.
Later proofs over all commands take the cases of `exec_cases` and unfold no command. -/

namespace Sys2Proof.Machine

/-- Every way a command can complete: nothing written, results only, or one of the six shapes of
the commands that write more. -/
theorem exec_cases {i : Instr} {s t : State} (h : exec i s = .next t) :
    (∃ e, e ≠ .doneEmitted ∧ t = finish e s) ∨
    (∃ vs, t = finish .done (setResults vs s)) ∨
    (i = .unpackCsi ∧ ∃ bw, t = finish .done (unpackCsiWrites bw s)) ∨
    (i = .decodeFrame ∧ ∃ e, frameCheck s = .error e ∧
      t = finish (.raise e) (setFrameValid false s)) ∨
    (i = .decodeFrame ∧ ∃ bw, frameCheck s = .ok bw ∧ t = finish .done (frameWrites bw s)) ∨
    (i = .groupAdd ∧ s.status.frameValid = true ∧ slotOutOfRange s = false ∧
      startsGroup s = true ∧
      t = finish (if (flush s).1 then .doneEmitted else .absent)
        (addSlot (startGroup (flush s).2))) ∨
    (i = .groupAdd ∧ s.status.frameValid = true ∧ slotOutOfRange s = false ∧
      startsGroup s = false ∧ t = finish .absent (addSlot s)) ∨
    (i = .groupTake ∧ t = finish (if (flush s).1 then .doneEmitted else .absent) (flush s).2) ∨
    (i = .aoa ∧ s.status.snapValid = true ∧ ∃ cs, csDecode s.snap.chanspec = .ok cs ∧
      t = finish .done (aoaWrites cs s)) := by
  have same : ∀ e : Ending, e ≠ .doneEmitted → t = finish e s →
      ∃ e, e ≠ .doneEmitted ∧ t = finish e s := fun e he ht => ⟨e, he, ht⟩
  cases i
  case nop => cases h; exact .inl (same .done (by simp) rfl)
  case chanspecDecode =>
    cases h
    simp only [chanspecDecodeBody]
    split
    · exact .inl ⟨_, by simp, rfl⟩
    · split
      · exact .inl ⟨_, by simp, rfl⟩
      · exact .inr (.inl ⟨_, rfl⟩)
  case chanspecEncode =>
    cases h
    simp only [chanspecEncodeBody]
    split
    · exact .inl ⟨_, by simp, rfl⟩
    · split
      · exact .inl ⟨_, by simp, rfl⟩
      · exact .inr (.inl ⟨_, rfl⟩)
  case defaultDelay =>
    cases h
    simp only [defaultDelayBody]
    split
    · exact .inl ⟨_, by simp, rfl⟩
    · exact .inr (.inl ⟨_, rfl⟩)
  case subcarrierClass =>
    cases h
    simp only [subcarrierClassBody]
    split
    · exact .inl ⟨_, by simp, rfl⟩
    · exact .inr (.inl ⟨_, rfl⟩)
  case unpackComplex => cases h; exact .inr (.inl ⟨_, rfl⟩)
  case unpackCsi =>
    cases h
    simp only [unpackCsiBody]
    split
    · exact .inl ⟨_, by simp, rfl⟩
    · split
      · exact .inl ⟨_, by simp, rfl⟩
      · exact .inr (.inr (.inl ⟨trivial, _, rfl⟩))
  case decodeFrame =>
    cases h
    simp only [decodeFrameBody]
    split
    · exact .inl ⟨_, by simp, rfl⟩
    · cases hc : frameCheck s with
      | error e => exact .inr (.inr (.inr (.inl ⟨trivial, e, rfl, rfl⟩)))
      | ok bw => exact .inr (.inr (.inr (.inr (.inl ⟨trivial, bw, rfl, rfl⟩))))
  case groupAdd =>
    cases h
    simp only [groupAddBody]
    cases hf : s.status.frameValid
    · exact .inl ⟨.raise .noFrame, by simp, rfl⟩
    · cases hs : slotOutOfRange s
      · cases hg : startsGroup s
        · exact .inr (.inr (.inr (.inr (.inr (.inr (.inl ⟨trivial, rfl, rfl, rfl, rfl⟩))))))
        · exact .inr (.inr (.inr (.inr (.inr (.inl ⟨trivial, rfl, rfl, rfl, rfl⟩)))))
      · exact .inl ⟨.raise .slotRange, by simp, rfl⟩
  case groupTake =>
    cases h
    exact .inr (.inr (.inr (.inr (.inr (.inr (.inr (.inl ⟨rfl, rfl⟩)))))))
  case aoa =>
    simp only [exec, execAoa] at h
    rcases withSnapshot_eq s aoaBody with ⟨-, h'⟩ | ⟨hv, cs, hd, h'⟩ | ⟨-, e, -, h'⟩
    · rw [h'] at h; cases h; exact .inl ⟨_, by simp, rfl⟩
    · rw [h'] at h
      cases h
      simp only [aoaBody]
      split
      · exact .inl ⟨_, by simp, rfl⟩
      · split
        · exact .inl ⟨_, by simp, rfl⟩
        · exact .inr (.inr (.inr (.inr (.inr (.inr (.inr (.inr ⟨trivial, hv, cs, hd, rfl⟩)))))))
    · rw [h'] at h; cases h
  case tof =>
    simp only [exec, execTof] at h
    rcases withSnapshot_eq s tofBody with ⟨-, h'⟩ | ⟨-, cs, -, h'⟩ | ⟨-, e, -, h'⟩
    · rw [h'] at h; cases h; exact .inl ⟨_, by simp, rfl⟩
    · rw [h'] at h
      cases h
      simp only [tofBody]
      split
      · exact .inl ⟨_, by simp, rfl⟩
      · exact .inr (.inl ⟨_, rfl⟩)
    · rw [h'] at h; cases h

/-- The only stop of a command: AOA or TOF on a valid snapshot that does not decode (log 9). -/
theorem exec_stops_only {i : Instr} {s : State}
    (h : ¬ ((i = .aoa ∨ i = .tof) ∧ s.status.snapValid = true ∧
      ∃ e, csDecode s.snap.chanspec = .error e)) : ∃ t, exec i s = .next t := by
  cases i
  case aoa =>
    rcases withSnapshot_eq s aoaBody with ⟨-, h'⟩ | ⟨-, cs, -, h'⟩ | ⟨hv, e, hd, -⟩
    · exact ⟨_, h'⟩
    · exact ⟨_, h'⟩
    · exact absurd ⟨.inl rfl, hv, e, hd⟩ h
  case tof =>
    rcases withSnapshot_eq s tofBody with ⟨-, h'⟩ | ⟨-, cs, -, h'⟩ | ⟨hv, e, hd, -⟩
    · exact ⟨_, h'⟩
    · exact ⟨_, h'⟩
    · exact absurd ⟨.inr rfl, hv, e, hd⟩ h
  all_goals exact ⟨_, rfl⟩

end Sys2Proof.Machine
end

