-- ==== Sys2Proof/Laws/Grid.lean ====
section
/-! SUPPORT. The grouper's two grid operations: what the snapshot reads as after an emit, what the
group reads as after a slot is written, and that both keep the canonical form. -/

namespace Sys2Proof.Machine

theorem gridKey_zero (slot : Nat) : gridKey slot 0 = 512 * slot := rfl

theorem entryCount_le (n : BitVec 10) : entryCount n ≤ 512 := Nat.min_le_right _ _

theorem grpSequence_length (s : State) (t : Fin 16) :
    (grpSequence s t).length = entryCount s.grp.len[t] := by simp [grpSequence]

theorem frameSequence_length (s : State) :
    (frameSequence s).length = entryCount s.frm.nsub := by simp [frameSequence]

/-- An emitted slot's keys are its own. -/
theorem mem_emitSlot {s : State} {t : Fin 16} {c : Nat × Cplx} (h : c ∈ emitSlot s t) :
    512 * t.val ≤ c.1 ∧ c.1 < 512 * t.val + 512 := by
  unfold emitSlot at h
  split at h
  · have := Sparse.mem_block h
    rw [grpSequence_length] at this
    have := entryCount_le s.grp.len[t]
    simp only [gridKey, Config.nsubMax] at *
    omega
  · simp at h

/-- A key of slot `t` is read in slot `t` of a grid that lists its slots one after the other. -/
theorem read?_slots (f : Fin 16 → Sparse Cplx)
    (hf : ∀ t, ∀ c ∈ f t, 512 * t.val ≤ c.1 ∧ c.1 < 512 * t.val + 512) (t : Fin 16) (j : Nat)
    (hj : j < 512) (ts : List (Fin 16)) :
    Sparse.read? (ts.flatMap f) (512 * t.val + j) =
      if t ∈ ts then Sparse.read? (f t) (512 * t.val + j) else none := by
  induction ts with
  | nil => rfl
  | cons u ts ih =>
    rw [List.flatMap_cons, Sparse.read?_append, ih]
    by_cases hu : t = u
    · subst hu
      simp only [List.mem_cons, true_or, if_true]
      cases h : Sparse.read? (f t) (512 * t.val + j) <;> simp
    · have : Sparse.read? (f u) (512 * t.val + j) = none := by
        apply Sparse.read?_eq_none
        intro c hc e
        have := hf u c hc
        have : t.val ≠ u.val := fun h => hu (Fin.ext h)
        omega
      simp [this, hu]

/-- What the snapshot reads as after an emit (43_grouper.md R172). -/
theorem read?_emitted (s : State) (t : Fin 16) (j : Nat) (hj : j < 512) :
    Sparse.read? (emitted s).grid (512 * t.val + j) =
      if maskBit s.grp.mask t.val = true ∧ j < entryCount s.grp.len[t] then
        some (grpEntry s t.val j)
      else none := by
  simp only [emitted]
  rw [read?_slots _ (fun _ _ h => mem_emitSlot h) t j hj, if_pos (List.mem_finRange t)]
  unfold emitSlot
  by_cases hm : maskBit s.grp.mask t.val = true
  · rw [if_pos hm, Sparse.read?_block]
    simp only [gridKey, Config.nsubMax, Nat.add_zero, Nat.le_add_right, if_true,
      Nat.add_sub_cancel_left, hm, true_and]
    by_cases hl : j < entryCount s.grp.len[t]
    · rw [if_pos hl]
      simp only [grpSequence, List.getElem?_map, List.getElem?_range hl, Option.map_some]
    · rw [if_neg hl, List.getElem?_eq_none (by rw [grpSequence_length]; omega)]
  · simp [hm]

@[simp] theorem emitted_seq (s : State) : (emitted s).seq = s.grp.seq := by simp only [emitted]
@[simp] theorem emitted_mask (s : State) : (emitted s).mask = s.grp.mask := by simp only [emitted]
@[simp] theorem emitted_chanspec (s : State) : (emitted s).chanspec = s.grp.chanspec := by simp only [emitted]
@[simp] theorem emitted_rssi (s : State) : (emitted s).rssi = s.grp.rssi := by simp only [emitted]

/-- The emitted grid is canonical. -/
theorem emitted_wf (s : State) : Sparse.wf (Config.nslot * Config.nsubMax) (emitted s).grid := by
  have key : ∀ ts : List (Fin 16), ts.Pairwise (· < ·) →
      (ts.flatMap (emitSlot s)).Pairwise (fun a b => a.1 < b.1) := by
    intro ts hts
    induction ts with
    | nil => simp
    | cons u ts ih =>
      rw [List.pairwise_cons] at hts
      rw [List.flatMap_cons, List.pairwise_append]
      refine ⟨?_, ih hts.2, ?_⟩
      · unfold emitSlot
        split
        · exact Sparse.block_sorted _ _
        · exact List.Pairwise.nil
      · intro a ha b hb
        obtain ⟨v, hv, hb⟩ := List.mem_flatMap.1 hb
        have h1 := mem_emitSlot ha
        have h2 := mem_emitSlot hb
        have h3 : u.val < v.val := hts.1 v hv
        omega
  refine ⟨key _ (List.pairwise_lt_finRange 16), fun c hc => ?_⟩
  obtain ⟨v, -, hc⟩ := List.mem_flatMap.1 hc
  have := mem_emitSlot hc
  have := v.isLt
  simp only [Config.nslot, Config.nsubMax]
  omega

/-- The populated slots of the snapshot after an emit have the group's lengths. -/
theorem emitted_len (s : State) (t : Fin 16) :
    (emitted s).len[t] = if maskBit s.grp.mask t.val then s.grp.len[t] else 0 := by
  simp [emitted]

/-- What the group reads as after a slot is written (R173). -/
theorem read?_addSlot (s : State) (a : Nat) :
    Sparse.read? (addSlot s).grp.grid a =
      if 512 * frameSlot s ≤ a ∧ a < 512 * frameSlot s + entryCount s.frm.nsub then
        some (coefEntry s (a - 512 * frameSlot s))
      else Sparse.read? s.grp.grid a := by
  simp only [addSlot]
  rw [Sparse.read?_writeFrom, frameSequence_length, gridKey_zero]
  by_cases h : 512 * frameSlot s ≤ a ∧ a < 512 * frameSlot s + entryCount s.frm.nsub
  · rw [if_pos h, if_pos h]
    simp only [frameSequence, List.getElem?_map,
      List.getElem?_range (show a - 512 * frameSlot s < entryCount s.frm.nsub by omega),
      Option.map_some]
  · rw [if_neg h, if_neg h]

theorem addSlot_len (s : State) (t : Fin 16) :
    (addSlot s).grp.len[t] = if t.val = frameSlot s then s.frm.nsub else s.grp.len[t] := by
  simp [addSlot]

theorem addSlot_maskBit (s : State) (t : Fin 16) :
    maskBit (addSlot s).grp.mask t.val =
      (maskBit s.grp.mask t.val || decide (t.val = frameSlot s)) := by
  simp only [maskBit, addSlot, BitVec.getLsbD_or, BitVec.getLsbD_twoPow]
  congr 1
  rw [← Bool.decide_and, decide_eq_decide]
  omega

/-- A slot write inside the grid keeps the canonical form. -/
theorem addSlot_wf {s : State} (h : Sparse.wf (Config.nslot * Config.nsubMax) s.grp.grid)
    (hs : frameSlot s < 16) :
    Sparse.wf (Config.nslot * Config.nsubMax) (addSlot s).grp.grid := by
  apply Sparse.wf_writeFrom h
  rw [frameSequence_length]
  have := entryCount_le s.frm.nsub
  simp only [gridKey, Config.nslot, Config.nsubMax]
  omega

theorem slotOutOfRange_iff (s : State) :
    slotOutOfRange s = true ↔ 4 ≤ s.frm.core.toNat ∨ 4 ≤ s.frm.spatial.toNat := by
  simp [slotOutOfRange]

theorem frameSlot_lt {s : State} (h : slotOutOfRange s = false) : frameSlot s < 16 := by
  rw [← Bool.not_eq_true, slotOutOfRange_iff] at h
  unfold frameSlot
  omega

end Sys2Proof.Machine
end

