-- ==== Sys2Proof/Laws/Mag2.lean ====
section
/-! SUPPORT. The squared norm of the peak search (spec 44_estimator.md R199) between powers of two,
and when PEAK (R202) answers one given index. -/

namespace Sys2Proof.Machine

theorem fIsNaN_of_fIsFinite {a : F64} (h : fIsFinite a = true) : fIsNaN a = false := by
  unfold fIsFinite at h; unfold fIsNaN
  simp at h ⊢; omega

theorem fIsInf_of_fIsFinite {a : F64} (h : fIsFinite a = true) : fIsInf a = false := by
  unfold fIsFinite at h; unfold fIsInf
  simp at h ⊢; omega

/-- The product of two finite numbers is packed from their significands. -/
theorem fMul_finite {a b : F64} (ha : fIsFinite a = true) (hb : fIsFinite b = true) :
    fMul a b = fPack (fNeg a != fNeg b) (fMant a * fMant b) (fQuantum a + fQuantum b) := by
  unfold fMul
  simp [fIsNaN_of_fIsFinite, fIsInf_of_fIsFinite, ha, hb]

/-- The sum of two finite numbers. -/
theorem fAdd_finite {a b : F64} (ha : fIsFinite a = true) (hb : fIsFinite b = true) :
    fAdd a b = if fFix a + fFix b = 0 then fWithSign (fNeg a && fNeg b) 0
      else fOfScaled (fFix a + fFix b) (-1074) := by
  unfold fAdd
  simp [fIsNaN_of_fIsFinite, fIsInf_of_fIsFinite, ha, hb]

theorem fQuantum_ge (a : F64) : -1074 ≤ fQuantum a := by
  unfold fQuantum; split <;> omega

theorem fFixAbs_eq (a : F64) : fFixAbs a = fMant a * 2 ^ (fQuantum a + 1074).toNat := by
  unfold fFixAbs; rw [Nat.shiftLeft_eq]

/-- The binade of a square. -/
theorem square_log {a : F64} (h : fFixAbs a ≠ 0) :
    fMant a * fMant a ≠ 0 ∧
      fQuantum a + fQuantum a + (Nat.log2 (fMant a * fMant a) : Int) =
        (Nat.log2 (fFixAbs a * fFixAbs a) : Int) - 2148 := by
  have hm : fMant a ≠ 0 := fun h0 => h (by rw [fFixAbs_eq, h0, Nat.zero_mul])
  have hmm : fMant a * fMant a ≠ 0 := Nat.mul_ne_zero hm hm
  refine ⟨hmm, ?_⟩
  have hq := fQuantum_ge a
  have e : fFixAbs a * fFixAbs a =
      fMant a * fMant a * 2 ^ (2 * (fQuantum a + 1074).toNat) := by
    rw [fFixAbs_eq, Nat.two_mul, Nat.pow_add]; ring
  have e2 : Nat.log2 (fFixAbs a * fFixAbs a) =
      Nat.log2 (fMant a * fMant a) + 2 * (fQuantum a + 1074).toNat := by
    rw [e]
    have h1 := Nat.log2_self_le hmm
    have h2 := Nat.lt_log2_self (n := fMant a * fMant a)
    rw [Nat.log2_eq_iff (Nat.mul_ne_zero hmm (by positivity))]
    constructor
    · rw [Nat.pow_add]; exact Nat.mul_le_mul_right _ h1
    · rw [show Nat.log2 (fMant a * fMant a) + 2 * (fQuantum a + 1074).toNat + 1 =
        Nat.log2 (fMant a * fMant a) + 1 + 2 * (fQuantum a + 1074).toNat by omega, Nat.pow_add]
      exact Nat.mul_lt_mul_of_pos_right h2 (by positivity)
  rw [e2]
  omega

theorem square_zero {a : F64} (h : fFixAbs a = 0) : fMant a * fMant a = 0 := by
  rw [fFixAbs_eq] at h
  have : fMant a = 0 := by
    rcases Nat.mul_eq_zero.1 h with h | h
    · exact h
    · exact absurd h (by positivity)
  rw [this]

/-- The square of a number below `2 ^ u` (in units of `2 ^ -1074`) is not negative, and not above
the number of its binade. -/
theorem square_le {a : F64} (ha : fIsFinite a = true) {j : Nat} (hj : 1 ≤ j) {u : Nat}
    (hu : 2 * u ≤ j + 1125) (h : fFixAbs a < 2 ^ u) :
    fNeg (fMul a a) = false ∧ fMag (fMul a a) ≤ j * 2 ^ 52 := by
  rw [fMul_finite ha ha, fNeg_fPack, fMag_fPack]
  refine ⟨by simp, ?_⟩
  by_cases h0 : fFixAbs a = 0
  · rw [square_zero h0]
    exact Nat.zero_le _
  · obtain ⟨hm, hl⟩ := square_log h0
    have hlt : Nat.log2 (fFixAbs a * fFixAbs a) < 2 * u := by
      rw [Nat.log2_lt (Nat.mul_ne_zero h0 h0), Nat.two_mul, Nat.pow_add]
      exact Nat.mul_lt_mul'' h h
    exact fPackMag_le_of_log hm hj (by rw [hl]; omega)

/-- The square of a number from `2 ^ v` up is not below the number of its binade. -/
theorem le_square {a : F64} (ha : fIsFinite a = true) {j : Nat} (hj : 1 ≤ j) (hj' : j ≤ 2047)
    {v : Nat} (hv : j + 1125 ≤ 2 * v) (h : 2 ^ v ≤ fFixAbs a) :
    j * 2 ^ 52 ≤ fMag (fMul a a) := by
  rw [fMul_finite ha ha, fMag_fPack]
  have h0 : fFixAbs a ≠ 0 := by have := Nat.pow_pos (n := v) (show 0 < 2 by decide); omega
  obtain ⟨hm, hl⟩ := square_log h0
  have hge : 2 * v ≤ Nat.log2 (fFixAbs a * fFixAbs a) := by
    rw [Nat.le_log2 (Nat.mul_ne_zero h0 h0), Nat.two_mul, Nat.pow_add]
    exact Nat.mul_le_mul h h
  exact le_fPackMag_of_log hm hj hj' (by rw [hl]; omega)

theorem fFix_of_not_neg {a : F64} (h : fNeg a = false) : fFix a = fFixAbs a := by
  simp [fFix, h]

/-- The sum of two finite numbers that are not negative: its sign, and its size between powers of
two. -/
theorem fAdd_bounds {a b : F64} (ha : fIsFinite a = true) (hb : fIsFinite b = true)
    (na : fNeg a = false) (nb : fNeg b = false) :
    fNeg (fAdd a b) = false ∧ fIsNaN (fAdd a b) = false ∧
      (∀ j, 1 ≤ j → fFixAbs a + fFixAbs b < 2 ^ (j + 51) → fMag (fAdd a b) ≤ j * 2 ^ 52) ∧
      ∀ j, 1 ≤ j → j ≤ 2047 → 2 ^ (j + 51) ≤ fFixAbs a + fFixAbs b →
        j * 2 ^ 52 ≤ fMag (fAdd a b) := by
  rw [fAdd_finite ha hb, fFix_of_not_neg na, fFix_of_not_neg nb]
  by_cases h0 : (fFixAbs a : Int) + fFixAbs b = 0
  · have hz : fFixAbs a + fFixAbs b = 0 := by omega
    rw [if_pos h0, na, hz]
    have hm : fMag (fWithSign (false && fNeg b) 0) = 0 := fMag_withSign _ (by decide)
    refine ⟨fNeg_withSign _ (by decide), by unfold fIsNaN; rw [hm]; decide, fun j _ _ => ?_,
      fun j _ _ h => ?_⟩
    · rw [hm]; exact Nat.zero_le _
    · have := Nat.pow_pos (n := j + 51) (show 0 < 2 by decide); omega
  · have hz : fFixAbs a + fFixAbs b ≠ 0 := by omega
    have hs : fOfScaled ((fFixAbs a : Int) + fFixAbs b) (-1074) =
        fPack false (fFixAbs a + fFixAbs b) (-1074) := by
      unfold fOfScaled
      congr 1
    rw [if_neg h0, hs, fNeg_fPack, fMag_fPack]
    refine ⟨rfl, fIsNaN_fPack .., fun j hj h => ?_, fun j hj hj' h => ?_⟩
    · have := (Nat.log2_lt hz).2 h
      exact fPackMag_le_of_log hz hj (by omega)
    · have := (Nat.le_log2 hz).2 h
      exact le_fPackMag_of_log hz hj hj' (by omega)

/-- A number of finite parts below `2 ^ u` has a squared norm below the binade after its square. -/
theorem mag2_le {z : Cplx} (hr : fIsFinite z.re = true) (hi : fIsFinite z.im = true) {j u : Nat}
    (hj : 1 ≤ j) (hj' : j < 2047) (hu : 2 * u ≤ j + 1125) (h1 : fFixAbs z.re < 2 ^ u)
    (h2 : fFixAbs z.im < 2 ^ u) :
    fNeg (mag2 z) = false ∧ fIsNaN (mag2 z) = false ∧ fMag (mag2 z) ≤ (j + 2) * 2 ^ 52 := by
  obtain ⟨n1, m1⟩ := square_le hr hj hu h1
  obtain ⟨n2, m2⟩ := square_le hi hj hu h2
  have f : ∀ x : F64, fMag x ≤ j * 2 ^ 52 → fIsFinite x = true := fun x hx => by
    unfold fIsFinite; simp; omega
  obtain ⟨a1, a2, a3, -⟩ := fAdd_bounds (f _ m1) (f _ m2) n1 n2
  refine ⟨a1, a2, a3 (j + 2) (by omega) ?_⟩
  have e1 := fFixAbs_le hj m1
  have e2 := fFixAbs_le hj m2
  have : 2 ^ (j + 2 + 51) = 4 * 2 ^ (j + 51) := by
    rw [show j + 2 + 51 = j + 51 + 2 by omega, Nat.pow_add]; omega
  have := Nat.pow_pos (n := j + 51) (show 0 < 2 by decide)
  omega

/-- A number of finite parts below `2 ^ w` with a real part from `2 ^ v` up has at least the
squared norm of that part. -/
theorem le_mag2 {z : Cplx} (hr : fIsFinite z.re = true) (hi : fIsFinite z.im = true)
    {j v w : Nat} (hj : 1 ≤ j) (hj' : j ≤ 2046) (hv : j + 1125 ≤ 2 * v) (hw : 2 * w ≤ 3171)
    (h1 : fFixAbs z.re < 2 ^ w) (h2 : fFixAbs z.im < 2 ^ w) (h3 : 2 ^ v ≤ fFixAbs z.re) :
    fNeg (mag2 z) = false ∧ fIsNaN (mag2 z) = false ∧ j * 2 ^ 52 ≤ fMag (mag2 z) := by
  obtain ⟨n1, m1⟩ := square_le hr (j := 2046) (by decide) hw h1
  obtain ⟨n2, m2⟩ := square_le hi (j := 2046) (by decide) hw h2
  have f : ∀ x : F64, fMag x ≤ 2046 * 2 ^ 52 → fIsFinite x = true := fun x hx => by
    unfold fIsFinite; simp; omega
  obtain ⟨a1, a2, -, a4⟩ := fAdd_bounds (f _ m1) (f _ m2) n1 n2
  have e := le_fFixAbs hj (le_square hr hj (by omega) hv h3)
  exact ⟨a1, a2, a4 j hj (by omega) (by omega)⟩

/-- Greater encodings of numbers that are not negative are greater numbers. -/
theorem fGt_of_fMag_lt {a b : F64} (na : fNeg a = false) (nb : fNeg b = false)
    (ha : fIsNaN a = false) (hb : fIsNaN b = false) (h : fMag b < fMag a) : fGt a b = true := by
  simp [fGt, fKey, na, nb, ha, hb, h]

theorem fGt_asymm {a b : F64} (h : fGt a b = true) : fGt b a = false := by
  simp only [fGt, Bool.and_eq_true, decide_eq_true_eq] at h
  simp [fGt]; omega

/-! ### The peak -/

/-- Past index `p`, an index that all others are below stays the best. -/
theorem peakFrom_stays {X : Nat → Cplx} {p : Nat} : ∀ fuel k,
    (∀ i, k ≤ i → i < k + fuel → fGt (mag2 (X i)) (mag2 (X p)) = false) →
    peakFrom X fuel k p = p
  | 0, _, _ => rfl
  | fuel + 1, k, h => by
    unfold peakFrom
    rw [if_neg (by rw [h k (by omega) (by omega)]; decide)]
    exact peakFrom_stays fuel (k + 1) fun i h1 h2 => h i (by omega) (by omega)

/-- An index whose magnitude exceeds all others' is found. -/
theorem peakFrom_finds {X : Nat → Cplx} {p h : Nat}
    (hp : ∀ i < h, i ≠ p → fGt (mag2 (X p)) (mag2 (X i)) = true) : ∀ fuel k best,
    k + fuel = h → k ≤ p → p < h → best < k → peakFrom X fuel k best = p
  | 0, _, _, _, _, _, _ => by omega
  | fuel + 1, k, best, hk, hkp, hph, hb => by
    unfold peakFrom
    by_cases hc : k = p
    · rw [hc, if_pos (hp best (by omega) (by omega))]
      refine peakFrom_stays fuel (p + 1) fun i h1 h2 => fGt_asymm (hp i (by omega) (by omega))
    · refine peakFrom_finds hp fuel (k + 1) _ (by omega) (by omega) hph ?_
      split <;> omega

/-- PEAK answers the index whose magnitude exceeds all others' of the half. -/
theorem peak_eq_of_greatest {X : Nat → Cplx} {p h : Nat} (hph : p < h)
    (hp : ∀ i < h, i ≠ p → fGt (mag2 (X p)) (mag2 (X i)) = true) : peak X h = p := by
  unfold peak
  by_cases h0 : p = 0
  · subst h0
    exact peakFrom_stays _ _ fun i h1 h2 => fGt_asymm (hp i (by omega) (by omega))
  · exact peakFrom_finds hp (h - 1) 1 0 (by omega) (by omega) hph (by omega)

end Sys2Proof.Machine
end

