-- ==== Sys2Proof/Laws/Idft.lean ====
section
/-! SUPPORT. The inverse DFT of TOF within the bound of spec 44_estimator.md R201 item 2, whatever
the free values are, and what a peak found from that bound is. -/

namespace Sys2Proof.Machine

theorem two_pow_mul_mul (a b c : Nat) : 2 ^ a * (2 ^ b * 2 ^ c) = 2 ^ (a + (b + c)) := by
  rw [← Nat.pow_add, ← Nat.pow_add]

/-- The scale is a positive number of the model's range. -/
theorem idftScale_range (n : Nat) :
    fNeg (idftScale n) = false ∧ 623 ≤ fExp (idftScale n) ∧ fExp (idftScale n) < 1423 := by
  unfold idftScale
  simp only []
  split
  · rename_i h
    simpa [and_assoc] using h
  · decide

/-- A number of exponent field `E` between its powers of two. -/
theorem fFixAbs_bounds {a : F64} (h : 1 ≤ fExp a) :
    2 ^ (fExp a + 51) ≤ fFixAbs a ∧ fFixAbs a < 2 ^ (fExp a + 52) := by
  have hf := fFrac_lt a
  rw [fFixAbs_of_exp_pos (by omega)]
  constructor
  · calc 2 ^ (fExp a + 51) = 2 ^ 52 * 2 ^ (fExp a - 1) := by rw [← Nat.pow_add]; congr 1; omega
      _ ≤ _ := Nat.mul_le_mul_right _ (by omega)
  · calc (2 ^ 52 + fFrac a) * 2 ^ (fExp a - 1) < 2 ^ 53 * 2 ^ (fExp a - 1) :=
          Nat.mul_lt_mul_of_pos_right (by omega) (Nat.pow_pos (by decide))
      _ = 2 ^ (fExp a + 52) := by rw [← Nat.pow_add]; congr 1; omega

/-- The distance that `withinBound` admits, in its units, is what the bound says. -/
theorem withinBound_iff {s : F64} {t : Int} {sum : Nat} {v : F64} :
    withinBound s t sum v = true ↔ fIsFinite v = true ∧
      (fFix v * 2 ^ 1266 - fFixAbs s * t).natAbs ≤
        fFixAbs s * (sum * 2 ^ 152 + 2 * sum * 2 ^ 24) := by
  unfold withinBound
  rw [Bool.and_eq_true, decide_eq_true_iff]
  rfl

theorem fFix_fOfScaled (z : Int) (e : Int) :
    fFix (fOfScaled z e) = if z < 0 then -(fFixAbs (fOfScaled z e) : Int)
      else fFixAbs (fOfScaled z e) := by
  unfold fFix fOfScaled
  rw [fNeg_fPack]
  simp

set_option exponentiation.threshold 2200 in
/-- The rounded exact value meets R201's bound for every scale of the model's range, where the
sequence is not tiny: its magnitude sum, a multiple of `2 ^ -1074`, is from `2 ^ -600` up. -/
theorem near_within {s : F64} {t : Int} {sum : Nat} (h1 : 623 ≤ fExp s) (h2 : fExp s < 1423)
    (hs : 2 ^ 474 ≤ sum) (hs' : sum < 2 ^ 1574) (ht : t.natAbs ≤ 2 ^ 193 * sum) :
    withinBound s t sum (fOfScaled (fFixAbs s * t) (-(1074 + 1074 + (trigBits : Int)))) = true := by
  obtain ⟨b1, b2⟩ := fFixAbs_bounds (a := s) (by omega)
  have b1' : 2 ^ 674 ≤ fFixAbs s := by
    refine le_trans ?_ b1
    exact two_pow_le (a := 674) (b := fExp s + 51) (by omega)
  have b2' : fFixAbs s < 2 ^ 1475 :=
    Nat.lt_of_lt_of_le b2 (two_pow_le (a := fExp s + 52) (b := 1475) (by omega))
  clear b1 b2
  have he : (-(1074 + 1074 + (trigBits : Int))) = -1074 - ((1266 : Nat) : Int) := by
    unfold trigBits; omega
  rw [he, withinBound_iff]
  generalize fFixAbs s = S at *
  have hS : S * t.natAbs < 2 ^ (1475 + (193 + 1574)) := by
    calc S * t.natAbs ≤ S * (2 ^ 193 * sum) := Nat.mul_le_mul_left _ ht
      _ < 2 ^ 1475 * (2 ^ 193 * 2 ^ 1574) := by
        apply Nat.mul_lt_mul'' b2'
        exact Nat.mul_lt_mul_of_pos_left hs' (Nat.two_pow_pos 193)
      _ = 2 ^ (1475 + (193 + 1574)) := two_pow_mul_mul ..
  have hz : ((S : Int) * t).natAbs = S * t.natAbs := by simp [Int.natAbs_mul]
  have hfin : fIsFinite (fOfScaled (S * t) (-1074 - ((1266 : Nat) : Int))) = true := by
    unfold fIsFinite fOfScaled
    rw [fMag_fPack, hz, decide_eq_true_eq]
    by_cases h0 : S * t.natAbs = 0
    · rw [h0]; decide
    · have := (Nat.log2_lt h0).2 hS
      have := fPackMag_le_of_log h0 (e := -1074 - ((1266 : Nat) : Int)) (j := 2000) (by decide)
        (by omega)
      omega
  refine ⟨hfin, ?_⟩
  have herr : ((fFixAbs (fOfScaled (S * t) (-1074 - ((1266 : Nat) : Int))) : Int) * 2 ^ 1266 -
      ((S * t.natAbs : Nat) : Int)).natAbs ≤ S * (sum * 2 ^ 152) := by
    have h := fFixAbs_fPack_error (neg := decide ((S : Int) * t < 0)) (m := S * t.natAbs) (d := 1266)
      (by decide) (by have := hfin; unfold fOfScaled at this; rw [hz] at this; exact this)
    unfold fOfScaled
    rw [hz]
    simp only [] at h
    generalize (((fFixAbs (fPack (decide ((S : Int) * t < 0)) (S * t.natAbs)
      (-1074 - ((1266 : Nat) : Int))) : Int) * 2 ^ 1266 - ((S * t.natAbs : Nat) : Int)).natAbs) = err at *
    rcases h with h | h
    · calc err ≤ 2 * err := by omega
        _ ≤ 2 ^ 1266 := h
        _ ≤ 2 ^ 674 * (2 ^ 474 * 2 ^ 152) := by
          rw [← Nat.pow_add, ← Nat.pow_add]; exact Nat.pow_le_pow_right (by decide) (by decide)
        _ ≤ _ := Nat.mul_le_mul b1' (Nat.mul_le_mul_right _ hs)
    · refine Nat.le_of_mul_le_mul_right (h.trans ?_) (show 0 < 2 ^ 53 by decide)
      calc S * t.natAbs ≤ S * (2 ^ 193 * sum) := Nat.mul_le_mul_left _ ht
        _ ≤ S * (sum * 2 ^ 152) * 2 ^ 53 := by
          rw [Nat.mul_assoc, Nat.mul_assoc, ← Nat.pow_add, Nat.mul_comm sum]
          exact Nat.mul_le_mul_left _ (Nat.mul_le_mul_right _ (Nat.pow_le_pow_right (by decide) (by decide)))
  rw [fFix_fOfScaled]
  have hle : S * (sum * 2 ^ 152) ≤ S * (sum * 2 ^ 152 + 2 * sum * 2 ^ 24) :=
    Nat.mul_le_mul_left _ (Nat.le_add_right _ _)
  refine le_trans ?_ (herr.trans hle)
  generalize (fFixAbs (fOfScaled (S * t) (-1074 - ((1266 : Nat) : Int))) : Int) = y at *
  have hx : ((S * t.natAbs : Nat) : Int) = |(S : Int) * t| := by
    rw [← hz]; exact Int.natCast_natAbs _
  rw [hx]
  split
  · rename_i hn
    rw [abs_of_neg hn, ← Int.natAbs_neg]
    apply le_of_eq
    congr 1
    ring
  · rename_i hn
    rw [abs_of_nonneg (by omega)]

/-- A part of an output is within R201's bound, whatever the free value. -/
theorem boundedPart_within {s : F64} {t : Int} {sum : Nat} (free : F64) (h1 : 623 ≤ fExp s)
    (h2 : fExp s < 1423) (hs : 2 ^ 474 ≤ sum) (hs' : sum < 2 ^ 1574)
    (ht : t.natAbs ≤ 2 ^ 193 * sum) : withinBound s t sum (boundedPart s t sum free) = true := by
  unfold boundedPart
  simp only []
  split
  · assumption
  · rw [if_pos (near_within h1 h2 hs hs' ht)]
    exact near_within h1 h2 hs hs' ht

/-! ### Peaks from the bound -/

theorem natAbs_fFix (a : F64) : (fFix a).natAbs = fFixAbs a := by
  unfold fFix; split <;> simp

theorem natAbs_scaled (v : F64) (k : Nat) : (fFix v * 2 ^ k).natAbs = fFixAbs v * 2 ^ k := by
  rw [Int.natAbs_mul, natAbs_fFix, Int.natAbs_pow]
  rfl

theorem natAbs_of_dist {x y : Int} {b : Nat} (h : (x - y).natAbs ≤ b) :
    x.natAbs ≤ y.natAbs + b ∧ y.natAbs ≤ x.natAbs + b := by omega

/-- A part whose exact value and error are below a power of two is small. -/
theorem within_lt {s : F64} {t : Int} {sum : Nat} {v : F64} {D : Nat} (hE : 1 ≤ fExp s)
    (hD : 1214 ≤ fExp s + D) (h : withinBound s t sum v = true)
    (hb : t.natAbs + (sum * 2 ^ 152 + 2 * sum * 2 ^ 24) ≤ 2 ^ D) :
    fFixAbs v < 2 ^ (fExp s + D - 1214) := by
  obtain ⟨-, b2⟩ := fFixAbs_bounds hE
  have h := (withinBound_iff.1 h).2
  have e : fFixAbs v * 2 ^ 1266 ≤ fFixAbs s * 2 ^ D := by
    have h1 := natAbs_scaled v 1266
    have h2 : ((fFixAbs s : Int) * t).natAbs = fFixAbs s * t.natAbs := by
      rw [Int.natAbs_mul]; rfl
    have h3 := (natAbs_of_dist h).1
    rw [h1, h2, ← Nat.mul_add] at h3
    exact h3.trans (Nat.mul_le_mul_left _ hb)
  refine Nat.lt_of_mul_lt_mul_right (a := 2 ^ 1266) (Nat.lt_of_le_of_lt e ?_)
  rw [← Nat.pow_add, show fExp s + D - 1214 + 1266 = fExp s + 52 + D by omega, Nat.pow_add]
  exact Nat.mul_lt_mul_of_pos_right b2 (Nat.pow_pos (by decide))

set_option exponentiation.threshold 2200 in
/-- A part whose exact value exceeds its error by a power of two is large. -/
theorem le_within {s : F64} {t : Int} {sum : Nat} {v : F64} {D : Nat} (hE : 1 ≤ fExp s)
    (hD : 1215 ≤ fExp s + D) (h : withinBound s t sum v = true)
    (hb : 2 ^ D + (sum * 2 ^ 152 + 2 * sum * 2 ^ 24) ≤ t.natAbs) :
    2 ^ (fExp s + D - 1215) ≤ fFixAbs v := by
  obtain ⟨b1, -⟩ := fFixAbs_bounds hE
  have h := (withinBound_iff.1 h).2
  have e : fFixAbs s * 2 ^ D ≤ fFixAbs v * 2 ^ 1266 := by
    have h1 := natAbs_scaled v 1266
    have h2 : ((fFixAbs s : Int) * t).natAbs = fFixAbs s * t.natAbs := by
      rw [Int.natAbs_mul]; rfl
    have h3 := (natAbs_of_dist h).2
    rw [h1, h2] at h3
    have h4 := Nat.mul_le_mul_left (fFixAbs s) hb
    rw [Nat.mul_add] at h4
    exact Nat.le_of_add_le_add_right (h4.trans h3)
  refine Nat.le_of_mul_le_mul_right (c := 2 ^ 1266) (le_trans ?_ e) (Nat.two_pow_pos 1266)
  rw [← Nat.pow_add, show fExp s + D - 1215 + 1266 = fExp s + 51 + D by omega, Nat.pow_add]
  exact Nat.mul_le_mul b1 (Nat.le_refl _)

/-- Both parts of an output of a finite sequence that is no impulse are within R201's bound. -/
theorem idft_within {n k : Nat} {xs : List Cplx} (hf : xs.all cFinite = true)
    (hz : xs.tail.all cZero = false) (hs : 2 ^ 474 ≤ absSum xs) (hs' : absSum xs < 2 ^ 1574)
    (h1 : (dftSum n k xs 0).1.natAbs ≤ 2 ^ 193 * absSum xs)
    (h2 : (dftSum n k xs 0).2.natAbs ≤ 2 ^ 193 * absSum xs) :
    withinBound (idftScale n) (dftSum n k xs 0).1 (absSum xs) (idft n xs k).re = true ∧
      withinBound (idftScale n) (dftSum n k xs 0).2 (absSum xs) (idft n xs k).im = true := by
  obtain ⟨-, r1, r2⟩ := idftScale_range n
  have e : idft n xs k =
      ⟨boundedPart (idftScale n) (dftSum n k xs 0).1 (absSum xs) (Config.idftRaw n xs k).re,
        boundedPart (idftScale n) (dftSum n k xs 0).2 (absSum xs) (Config.idftRaw n xs k).im⟩ := by
    simp [idft, hf, hz]
  rw [e]
  exact ⟨boundedPart_within _ r1 r2 hs hs' h1, boundedPart_within _ r1 r2 hs hs' h2⟩

/-- The bound alone gives the peak, for every scale and every free value (R201: the scale "does not
change the peak index"): at `p` the exact real part is from `2 ^ (D + 3)` up past the error, and
everywhere else both exact parts are below `2 ^ D` with the error. -/
theorem peak_idft {n p h D : Nat} {xs : List Cplx} (hp : p < h) (hD : 1154 ≤ D)
    (hf : xs.all cFinite = true) (hz : xs.tail.all cZero = false) (hs : 2 ^ 474 ≤ absSum xs)
    (hs' : absSum xs < 2 ^ 1574)
    (ht : ∀ k < h, (dftSum n k xs 0).1.natAbs ≤ 2 ^ 193 * absSum xs ∧
      (dftSum n k xs 0).2.natAbs ≤ 2 ^ 193 * absSum xs)
    (small : ∀ k < h, k ≠ p →
      (dftSum n k xs 0).1.natAbs + (absSum xs * 2 ^ 152 + 2 * absSum xs * 2 ^ 24) ≤ 2 ^ D ∧
      (dftSum n k xs 0).2.natAbs + (absSum xs * 2 ^ 152 + 2 * absSum xs * 2 ^ 24) ≤ 2 ^ D)
    (large : 2 ^ (D + 3) + (absSum xs * 2 ^ 152 + 2 * absSum xs * 2 ^ 24) ≤
      (dftSum n p xs 0).1.natAbs)
    (top : (dftSum n p xs 0).1.natAbs + (absSum xs * 2 ^ 152 + 2 * absSum xs * 2 ^ 24) ≤ 2 ^ 1376 ∧
      (dftSum n p xs 0).2.natAbs + (absSum xs * 2 ^ 152 + 2 * absSum xs * 2 ^ 24) ≤ 2 ^ 1376) :
    peak (idft n xs) h = p := by
  obtain ⟨-, r1, r2⟩ := idftScale_range n
  have within := fun k hk => idft_within (n := n) (k := k) hf hz hs hs' (ht k hk).1 (ht k hk).2
  have hD' : D + 3 < 1376 := by
    by_contra hc
    have := two_pow_le (a := 1376) (b := D + 3) (Nat.le_of_not_lt hc)
    have := Nat.pow_pos (n := 474) (show 0 < 2 by decide)
    omega
  generalize hE : fExp (idftScale n) = E at r1 r2
  refine peak_eq_of_greatest hp fun i hi hne => ?_
  obtain ⟨wp, wp'⟩ := within p hp
  obtain ⟨wi, wi'⟩ := within i hi
  have fin : ∀ {t v}, withinBound (idftScale n) t (absSum xs) v = true → fIsFinite v = true :=
    fun h => (withinBound_iff.1 h).1
  obtain ⟨n1, m1, b1⟩ := mag2_le (fin wi) (fin wi') (j := 2 * (E + D - 1214) - 1125)
    (u := E + D - 1214) (by omega) (by omega) (by omega)
    (by have := within_lt (by omega) (by omega) wi (small i hi hne).1; rwa [hE] at this)
    (by have := within_lt (by omega) (by omega) wi' (small i hi hne).2; rwa [hE] at this)
  obtain ⟨n2, m2, b2⟩ := le_mag2 (fin wp) (fin wp') (j := 2 * (E + D - 1212) - 1125)
    (v := E + D - 1212) (w := E + 1376 - 1214) (by omega) (by omega) (by omega) (by omega)
    (by have := within_lt (by omega) (by omega) wp top.1; rwa [hE] at this)
    (by have := within_lt (by omega) (by omega) wp' top.2; rwa [hE] at this)
    (by
      have := le_within (by omega) (by omega) wp large
      rwa [hE, show E + (D + 3) - 1215 = E + D - 1212 by omega] at this)
  refine fGt_of_fMag_lt n2 n1 m2 m1 (Nat.lt_of_le_of_lt b1 (Nat.lt_of_lt_of_le ?_ b2))
  exact Nat.mul_lt_mul_of_pos_right (by omega) (by decide)

end Sys2Proof.Machine
end

