-- ==== Sys2Proof/Laws/PerInstr.lean ====
section
/-! SUPPORT. Statements made per command: the shape of its word. -/

namespace Sys2Proof.Laws.CommandWordShape

/-- The command's word has RSV zero, is well formed, and is read back as the command
(30_encoding.md R80, R84). -/
def Statement (i : Instr) : Prop :=
  (encode i).toNat < 256 ∧ CommandWord.wellFormed (encode i) = true ∧
    decodeTableWord 32 (encode i).toNat = some i

theorem nop : Statement .nop := ⟨by decide, rfl, rfl⟩
theorem chanspecDecode : Statement .chanspecDecode := ⟨by decide, rfl, rfl⟩
theorem chanspecEncode : Statement .chanspecEncode := ⟨by decide, rfl, rfl⟩
theorem defaultDelay : Statement .defaultDelay := ⟨by decide, rfl, rfl⟩
theorem subcarrierClass : Statement .subcarrierClass := ⟨by decide, rfl, rfl⟩
theorem unpackComplex : Statement .unpackComplex := ⟨by decide, rfl, rfl⟩
theorem unpackCsi : Statement .unpackCsi := ⟨by decide, rfl, rfl⟩
theorem decodeFrame : Statement .decodeFrame := ⟨by decide, rfl, rfl⟩
theorem groupAdd : Statement .groupAdd := ⟨by decide, rfl, rfl⟩
theorem groupTake : Statement .groupTake := ⟨by decide, rfl, rfl⟩
theorem aoa : Statement .aoa := ⟨by decide, rfl, rfl⟩
theorem tof : Statement .tof := ⟨by decide, rfl, rfl⟩

end Sys2Proof.Laws.CommandWordShape
end

