-- ==== Sys2Proof/Laws/Storage.lean ====
section
/-! SUPPORT. Every operation on the block's storage keeps its canonical form, and reset has it. -/

namespace Sys2Proof.Machine

theorem memory_wf_reset : Memory.wf State.reset.inBuf := Sparse.wf_nil _

/-- An offset whose region is IN_BUF. -/
theorem offset_of_regionOf_inBuf {off : Nat} (h : regionOf off = .inBuf) :
    0x1000 ≤ off ∧ off < 0x2000 := by
  unfold regionOf Config.inBufSize at h
  by_cases h1 : off < 0x1000
  · by_cases h2 : off < 0x100
    · rw [if_pos h2] at h; cases h
    · rw [if_neg h2, if_pos h1] at h; cases h
  · by_cases h2 : off < 0x2000
    · omega
    · rw [if_neg (by omega), if_neg (by omega), if_neg h2] at h
      repeat' split at h
      all_goals cases h

theorem aligned_of_accessStop {off : Nat} {w : Width} (h : accessStop off w = none) :
    off % w.bytes = 0 := by
  unfold accessStop at h
  by_contra hc
  rw [if_pos hc] at h
  split at h <;> cases h

/-- A host write keeps IN_BUF canonical. -/
theorem memory_wf_busWrite {s t : State} {off : Nat} {w : Width} {v : Word}
    (hs : Memory.wf s.inBuf) (h : busWrite s off w v = .ok t) : Memory.wf t.inBuf := by
  unfold busWrite at h
  cases ha : accessStop off w with
  | some e => rw [ha] at h; cases h
  | none =>
    rw [ha] at h
    cases h
    unfold writeEffect
    split
    · unfold writeReg writeCtrl unlessBusy
      repeat' split
      all_goals first | exact hs | exact Sparse.wf_nil _
    · rename_i hr
      unfold unlessBusy
      split
      · exact hs
      · apply Sparse.wf_writeFrom hs
        rw [writeBytes_length]
        have h1 := offset_of_regionOf_inBuf hr
        have h2 := aligned_of_accessStop ha
        simp only [Config.inBufSize]
        cases w <;> simp only [Width.bytes] at * <;> omega
    · exact hs

/-- Writing an unpacked payload keeps COEF_BUF canonical. -/
theorem coefBuf_wf_write {m : Sparse Cplx} (h : Sparse.wf Config.nsubMax m) (s : State) (bw : Bw)
    (a : Nat) : Sparse.wf Config.nsubMax (Sparse.writeFrom m 0 (unpackCsi s bw a)) := by
  apply Sparse.wf_writeFrom h
  have := bw_nsub_le bw
  rw [unpackCsi_length]
  simp only [Config.nsubMax]
  omega

theorem aoaAngles_length (s : State) (cs : Chanspec) (num window : Nat) :
    (aoaAngles s cs num window).length = cs.bw.nsub := by simp [aoaAngles]

/-- Writing a sequence of angles keeps an angle buffer canonical. -/
theorem aoa_wf_write {m : Sparse F64} (h : Sparse.wf Config.nsubMax m) (s : State) (cs : Chanspec)
    (num window : Nat) :
    Sparse.wf Config.nsubMax (Sparse.writeFrom m 0 (aoaAngles s cs num window)) := by
  apply Sparse.wf_writeFrom h
  have := bw_nsub_le cs.bw
  rw [aoaAngles_length]
  simp only [Config.nsubMax]
  omega

/-- What a frame that passes the checks holds. -/
theorem frameCheck_ok {s : State} {bw : Bw} (h : frameCheck s = .ok bw) :
    frameChip s = Config.chipId ∧ ∃ cs, csDecode (frameChanspec s) = .ok cs ∧ cs.bw = bw := by
  unfold frameCheck at h
  repeat' split at h
  all_goals first | (cases h; done) | skip
  rename_i cs hcs hchip _
  cases h
  exact ⟨by simpa using hchip, cs, hcs, rfl⟩

/-- The checks of a frame never end in BAD_OPERAND. -/
theorem frameCheck_error_ne {s : State} {e : ErrCode} (h : frameCheck s = .error e) :
    e ≠ .badOperand := by
  unfold frameCheck at h
  repeat' split at h
  all_goals first
    | (cases h; done)
    | (cases h; rename_i h; rcases csDecode_error h with rfl | rfl <;> simp)
    | (cases h; simp)

end Sys2Proof.Machine
end

