-- ==== Sys2Proof/Laws/Sound.lean ====
section
/-! SUPPORT. Soundness of the grids: what an emission and a slot write keep of GridSound, and small
facts on result words and lengths. -/

namespace Sys2Proof.Machine

/-! ### Result words and lengths -/

theorem toNat_asU32 (v : Nat) (h : v < 2 ^ 32) : (asU32 v).toNat = v := by
  simp only [asU32, BitVec.toNat_ofNat]; omega

theorem toInt_asI32 (v : Int) (h1 : -2 ^ 31 ≤ v) (h2 : v < 2 ^ 31) : (asI32 v).toInt = v := by
  simp only [asI32, BitVec.toInt_ofInt]
  apply Int.bmod_eq_of_le <;> omega

theorem nsub_toNat (bw : Bw) : (BitVec.ofNat 10 bw.nsub).toNat = bw.nsub := by
  have := bw_nsub_le bw; simp; omega

theorem slotLength_le {n : BitVec 10} (h : isSlotLength n) : n.toNat ≤ 512 := by
  obtain ⟨bw, h⟩ := h; rw [h]; exact bw_nsub_le bw

theorem FrameSound.slotLength {s : State} (h : FrameSound s) : isSlotLength s.frm.nsub := by
  obtain ⟨cs, _, hcs⟩ := h.decodes
  exact ⟨cs.bw, hcs.symm⟩

theorem GridSound.length_le {g : WifiCsi} (h : GridSound g) (t : Fin 16) :
    g.len[t].toNat ≤ 512 := by
  cases hm : maskBit g.mask t.val
  · rw [h.empties t hm]; decide
  · exact slotLength_le (h.lengths t hm)

theorem gridKey_eq (t j : Nat) : gridKey t j = 512 * t + j := rfl

/-! ### What keeps a grid sound -/

/-- A sound group is emitted as a sound snapshot. -/
theorem emitted_sound {s : State} (h : GridSound s.grp) : GridSound (emitted s) where
  decodes := by simpa only [emitted_chanspec] using h.decodes
  populated := by simpa only [emitted_mask] using h.populated
  lengths := fun t ht => by
    rw [emitted_mask] at ht
    have e : (emitted s).len[t] = s.grp.len[t] := (emitted_len s t).trans (if_pos ht)
    rw [e]; exact h.lengths t ht
  empties := fun t ht => by
    rw [emitted_mask] at ht
    exact (emitted_len s t).trans (if_neg (by rw [ht]; decide))
  stored := fun t j hj => by
    rw [emitted_len] at hj
    have := h.length_le t
    cases ht : maskBit s.grp.mask t.val
    · simp [ht] at hj
    · rw [if_pos ht] at hj
      rw [gridKey_eq, read?_emitted s t j (by omega),
        if_pos ⟨ht, by rw [entryCount_eq this]; exact hj⟩]
      rfl

/-- A sound frame written into its slot of a group that is sound, or fresh, gives a sound group. -/
theorem addSlot_sound {s : State} (hf : FrameSound s) (hs : slotOutOfRange s = false)
    (hd : ∃ n, decodesWith s.grp.chanspec n)
    (hl : ∀ t : Fin 16, maskBit s.grp.mask t.val = true → isSlotLength s.grp.len[t])
    (he : ∀ t : Fin 16, maskBit s.grp.mask t.val = false → s.grp.len[t] = 0)
    (hst : ∀ (t : Fin 16) (j : Nat), j < s.grp.len[t].toNat →
      (Sparse.read? s.grp.grid (gridKey t.val j)).isSome = true) :
    GridSound (addSlot s).grp where
  decodes := hd
  populated := fun hm => by
    have h1 := addSlot_maskBit s ⟨frameSlot s, frameSlot_lt hs⟩
    rw [hm] at h1; simp [maskBit] at h1
  lengths := fun t ht => by
    rw [addSlot_len]
    split
    · exact hf.slotLength
    · rename_i hne
      rw [addSlot_maskBit] at ht
      exact hl t (by simpa [hne] using ht)
  empties := fun t ht => by
    rw [addSlot_maskBit] at ht
    simp at ht
    rw [addSlot_len, if_neg ht.2]; exact he t ht.1
  stored := fun t j hj => by
    have hn := slotLength_le hf.slotLength
    rw [addSlot_len] at hj
    rw [read?_addSlot, gridKey_eq, entryCount_eq hn]
    split
    · rfl
    · rename_i hc
      have hne : t.val ≠ frameSlot s := by
        intro e
        rw [if_pos e] at hj
        rw [e] at hc; omega
      rw [if_neg hne] at hj
      exact hst t j hj

/-- A fresh group with a sound frame in its slot is sound. -/
theorem startGroup_sound {s : State} (hf : FrameSound s) (hs : slotOutOfRange s = false) :
    GridSound (addSlot (startGroup s)).grp := by
  apply addSlot_sound (s := startGroup s) ⟨hf.decodes, hf.chip, hf.core, hf.spatial, hf.stored⟩ hs
  · exact ⟨_, hf.decodes⟩
  · intro t ht; simp [startGroup, setGroupActive, maskBit] at ht
  · intro t ht; simp [startGroup, setGroupActive]
  · intro t j hj; simp [startGroup, setGroupActive] at hj

/-! ### NaN results -/

theorem fIsNaN_fNaNOf (x : F64) : fIsNaN (fNaNOf x) = true := by
  unfold fNaNOf fIsNaN fMag fWithSign
  rw [decide_eq_true_iff]
  have h : fFrac x < 2 ^ 52 := Nat.mod_lt _ (by decide)
  generalize fFrac x = f at *
  rw [BitVec.toNat_ofNat]
  split <;> split <;> omega

/-- A stored number is the computed one, a NaN's payload apart. -/
theorem storedF64_sameNumber (s : State) (key : Nat) (v : F64) :
    SameNumber (storedF64 s key v) v := by
  unfold storedF64 SameNumber
  split
  · exact .inr ⟨fIsNaN_fNaNOf _, by assumption⟩
  · exact .inl rfl

theorem fGt_irrefl (a : F64) : fGt a a = false := by simp [fGt]

end Sys2Proof.Machine
end

