-- ==== Sys2Proof/Laws/Tone.lean ====
section
/-! SUPPORT. The worked example of TOF (spec 44_estimator.md R200, 95_test_vectors.md L2.5): the
sequence `(-i) ^ m` of 64 entries has its peak at index 16, for every scale and every free value of
the inverse DFT. -/

namespace Sys2Proof.Machine

/-! ### The 64th roots of unity, as the model computes them -/

/-- The cosines of the first quarter turn, in steps of a 64th turn, with `trigBits` fraction bits. -/
def quarterCos : List Int :=
  [6277101735386680763835789423207666416102355444464034512896,
    6246875774824366641176380084705442409752832373564694476138,
    6156488985660830153200007809896141730797727614030094371553,
    6006811842086161181437084878787698308845976411287230420777,
    5799285816814833447298456991122831010439247085878535449011,
    5535909498915474989547169746044286203881371333578203673382,
    5219219346305597357374644743639879473277295197261897965223,
    4852265258275281033614121891762059829839994141384794407381,
    4438581203289767414339175591698529914022621046959442208840,
    3982151184941274860464086591869801569128801490110558598650,
    3487370873816527736011530537874655374652643194463233745717,
    2959005274786088283124796387656169712304091898762949861575,
    2402142837402636481481704687338294157286649845058172215874,
    1822146451350148265111932127478024001239250726626948188791,
    1224601798884585122827180269320064027013101941390617030413,
    615263561660324669257043688229060293297321712929268945030,
    -14]

/-- The cosine of `j` 64th turns, unfolded from the first quarter. -/
def foldedCos (j : Nat) : Int :=
  if j ≤ 16 then quarterCos.getD j 0
  else if j ≤ 32 then -quarterCos.getD (32 - j) 0
  else if j ≤ 48 then -quarterCos.getD (j - 32) 0
  else quarterCos.getD (64 - j) 0

/-- What the series adds to the unfolded cosine, in its last bits. -/
def cosRest : List Int :=
  [0, 0, 0, 0, 0, 0, 0, 0, 0, 0, 0, 0, 0, 0, 0, 0, 0, -33, -35, -27,
    -29, -28, -26, -20, -19, -18, -20, -13, -14, -7, -7, -1, 1, 5, 4, 9, 12, 15, 16, 20,
    24, 23, 26, 25, 31, 31, 31, 35, 33, 61, 68, 55, 56, 57, 56, 47, 43, 40, 37, 26,
    25, 16, 11, 5]

/-- What the series adds to the unfolded sine, in its last bits. -/
def sinRest : List Int :=
  [-14, 15, 20, 13, 12, 13, 17, 10, 10, 10, 8, 9, 6, 2, 2, -3, 2, -3, 0, -6,
    -4, -7, -8, -12, -9, -12, -11, -13, -14, -18, -11, -14, -20, -44, -49, -45, -44, -42, -42, -37,
    -32, -28, -30, -24, -18, -12, -9, 0, 0, 7, 10, 15, 20, 22, 27, 35, 33, 40, 41, 43,
    46, 51, 44, 47]

def cos64 (j : Nat) : Int := foldedCos j + cosRest.getD j 0

def sin64 (j : Nat) : Int := foldedCos ((j + 48) % 64) + sinRest.getD j 0

theorem rootCos_eq : ∀ j < 64, rootCos 64 j = cos64 j := by decide +kernel

theorem rootSin_eq : ∀ j < 64, rootSin 64 j = sin64 j := by decide +kernel

/-- `dftSum` over the tables. -/
def tableSum (k : Nat) : List Cplx → (m : Nat) → Int × Int
  | [], _ => (0, 0)
  | x :: xs, m =>
    let rest := tableSum k xs (m + 1)
    (fFix x.re * cos64 (k * m % 64) - fFix x.im * sin64 (k * m % 64) + rest.1,
      fFix x.re * sin64 (k * m % 64) + fFix x.im * cos64 (k * m % 64) + rest.2)

theorem dftSum_eq (k : Nat) : ∀ (xs : List Cplx) (m : Nat), dftSum 64 k xs m = tableSum k xs m
  | [], _ => rfl
  | x :: xs, m => by
    have h : k * m % 64 < 64 := Nat.mod_lt _ (by decide)
    rw [dftSum, tableSum, rootCos_eq _ h, rootSin_eq _ h, dftSum_eq k xs (m + 1)]

/-! ### The tone -/

/-- `(-i) ^ m`. -/
def toneEntry (m : Nat) : Cplx :=
  if m % 4 = 0 then ⟨0x3FF0000000000000, 0⟩
  else if m % 4 = 1 then ⟨0, 0xBFF0000000000000⟩
  else if m % 4 = 2 then ⟨0xBFF0000000000000, 0⟩
  else ⟨0, 0x3FF0000000000000⟩

/-- The sequence of R200's example. -/
def tone : List Cplx := (List.range 64).map toneEntry

theorem isqrt_unit : isqrt (2 ^ 2148) = 2 ^ 1074 := by decide +kernel

/-- The magnitude sum of a sequence whose entries have one norm. -/
theorem absSum_of_norms {c r : Nat} (hc : c ≠ 0) (hr : isqrt c = r) : ∀ xs : List Cplx,
    (∀ x ∈ xs, fFixAbs x.re * fFixAbs x.re + fFixAbs x.im * fFixAbs x.im = c) →
    absSum xs = xs.length * (r + 1)
  | [], _ => by simp [absSum]
  | x :: xs, h => by
    rw [absSum, absSum_of_norms hc hr xs fun y hy => h y (List.mem_cons_of_mem _ hy),
      h x List.mem_cons_self, if_neg hc, hr, List.length_cons]
    ring

theorem tone_norms : ∀ x ∈ tone,
    fFixAbs x.re * fFixAbs x.re + fFixAbs x.im * fFixAbs x.im = 2 ^ 2148 := by
  decide +kernel

set_option exponentiation.threshold 2200 in
theorem absSum_tone : absSum tone = 64 * (2 ^ 1074 + 1) := by
  have h := absSum_of_norms (c := 2 ^ 2148) (r := 2 ^ 1074) (Nat.two_pow_pos 2148).ne'
    isqrt_unit tone tone_norms
  have l : tone.length = 64 := by simp [tone]
  rw [l] at h
  exact h

/-- The bound of R201 item 2 for the tone, in the units of `withinBound`. -/
def toneBound : Nat := 64 * (2 ^ 1074 + 1) * 2 ^ 152 + 2 * (64 * (2 ^ 1074 + 1)) * 2 ^ 24

theorem tone_small : ∀ k < 32, k ≠ 16 →
    (tableSum k tone 0).1.natAbs + toneBound ≤ 2 ^ 1233 ∧
      (tableSum k tone 0).2.natAbs + toneBound ≤ 2 ^ 1233 := by
  decide +kernel

theorem tone_large : 2 ^ (1233 + 3) + toneBound ≤ (tableSum 16 tone 0).1.natAbs ∧
    (tableSum 16 tone 0).1.natAbs + toneBound ≤ 2 ^ 1273 ∧
    (tableSum 16 tone 0).2.natAbs + toneBound ≤ 2 ^ 1273 := by
  decide +kernel

theorem toneBound_eq : absSum tone * 2 ^ 152 + 2 * absSum tone * 2 ^ 24 = toneBound := by
  unfold toneBound
  rw [absSum_tone]

theorem tone_range : 2 ^ 474 ≤ absSum tone ∧ absSum tone < 2 ^ 1574 ∧
    2 ^ 1273 ≤ 2 ^ 193 * absSum tone := by
  rw [absSum_tone]
  decide +kernel

/-- R200's example: X[16] = 64·s_N, and the others are within `s_N · 2 ^ -34` of 0, so the peak is at
index 16 for every scale and every free value. -/
theorem peak_tone : peak (idft 64 tone) 32 = 16 := by
  obtain ⟨r1, r2, r3⟩ := tone_range
  obtain ⟨l1, l2, l3⟩ := tone_large
  have e := toneBound_eq
  have part : ∀ {v : Nat} {D : Nat}, v + toneBound ≤ 2 ^ D → D ≤ 1273 →
      v ≤ 2 ^ 193 * absSum tone := fun h hD =>
    (Nat.le_add_right _ _).trans (h.trans ((two_pow_le (b := 1273) hD).trans r3))
  refine peak_idft (D := 1233) (by decide) (by decide) (by decide +kernel) (by decide +kernel) r1 r2
    (fun k h => ?_) (fun k h hk => ?_) ?_ ⟨?_, ?_⟩ <;> rw [dftSum_eq]
  · by_cases hk : k = 16
    · subst hk; exact ⟨part l2 (by decide), part l3 (by decide)⟩
    · exact ⟨part (tone_small k h hk).1 (by decide), part (tone_small k h hk).2 (by decide)⟩
  · rw [e]; exact tone_small k h hk
  · rw [e]; exact l1
  · rw [e]; exact l2.trans (two_pow_le (a := 1273) (b := 1376) (by decide))
  · rw [e]; exact l3.trans (two_pow_le (a := 1273) (b := 1376) (by decide))

end Sys2Proof.Machine
end

