-- ==== Sys2Proof/Tests/Slice0.lean ====
section
/-! SUPPORT. The model's own tests: ill-formed terms refused, words written out from the opcode map,
single steps against the values of spec/95_test_vectors.md, and for each statement with hypotheses a
concrete state that meets them. -/

namespace Sys2Proof.Tests

open Sys2Proof.Machine

-- The tests are checked one after another: `decide +kernel` waits for the kernel, and tests that
-- wait side by side hold a thread each.
set_option Elab.async false

/-! ### Small states -/

/-- Reset with operands, every result register holding a mark. -/
def withArgs (a b c d : Word) : State :=
  { State.reset with arg := #v[a, b, c, d], res := Vector.replicate 8 0xDEADBEEF }

/-- The command word `w` about to complete with operands. -/
def running (w : Nat) (a b c : Word) : State := (withArgs a b c 0).withFetchWord 32 w

/-- The outcome is a next state with the property. -/
def ends (o : Host.Outcome State Fault Refusal) (p : State → Bool) : Bool :=
  match o with
  | .next t => p t
  | .fault _ => false
  | .refused _ => false

/-- Reset with a host script. -/
def scripted (ops : List HostOp) : State := { State.reset with script := ops }

/-- Reset with IN_LEN and IN_BUF. -/
def withInput (n : Nat) (m : Memory) : State :=
  { State.reset with inLen := BitVec.ofNat 13 n, inBuf := m }

/-- A running command. -/
def busyState : State := { State.reset with seqr := .busy 0x00000040 3 }

/-- The frame registers of a 20 MHz frame of channel 36 (95_test_vectors.md L2.3, F0). -/
def frm (seq core spatial : Nat) : FrameRegs :=
  { rssi := 0xFFFFFFCD, fc := 0x08, macLo := 0x33221100, macHi := 0x5544,
    seq := BitVec.ofNat 16 seq, config := BitVec.ofNat 16 (core + 8 * spatial), cfgBe := false,
    core := BitVec.ofNat 3 core, spatial := BitVec.ofNat 3 spatial, chanspec := 0xD024,
    chip := 0x006A, nsub := 64 }

/-- A group or snapshot of channel 36, 20 MHz, with the given slots of length 64. -/
def csi (seq : Nat) (mask : Half) (grid : Sparse Cplx) : WifiCsi :=
  { seq := BitVec.ofNat 16 seq, mask := mask, chanspec := 0xD024, rssi := 0xFFFFFFCD,
    len := Vector.ofFn fun t => if mask.getLsbD t.val then 64 else 0, grid := grid }

/-- A decoded frame and, when `active`, a group in progress. -/
def grouping (f : FrameRegs) (active : Bool) (g : WifiCsi) : State :=
  { State.reset with
    status := { Status.reset with frameValid := true, groupActive := active }
    frm := f, grp := g }

/-- A valid snapshot. -/
def snapped (g : WifiCsi) : State :=
  { State.reset with status := { Status.reset with snapValid := true }, snap := g }

/-- `(1, 0)`, `(0, 1)` and `(0, 0)`. -/
def one : Cplx := ⟨0x3FF0000000000000, 0⟩
def imag : Cplx := ⟨0, 0x3FF0000000000000⟩
def nul : Cplx := ⟨0, 0⟩

/-- Header bytes 44 to 59 of F0 (95_test_vectors.md L2.3). -/
def f0Tail : Memory :=
  [(44, 0xCD), (45, 0x08), (46, 0x00), (47, 0x11), (48, 0x22), (49, 0x33), (50, 0x44), (51, 0x55),
    (52, 0x01), (53, 0x00), (54, 0x00), (55, 0x00), (56, 0x24), (57, 0xD0), (58, 0x6A), (59, 0x00)]

/-- The magic bytes of a frame, from the OPEN parameters. -/
def f0Magic : Memory :=
  [(6, Config.magicString 0), (7, Config.magicString 1), (8, Config.magicString 2),
    (9, Config.magicString 3), (10, Config.magicString 4), (11, Config.magicString 5),
    (42, Config.magicBytes 0), (43, Config.magicBytes 1)]

/-- The frame F0 but for its payload. -/
def f0 (n : Nat) : State := withInput n (f0Magic ++ f0Tail)

/-- F0 with another chanspec and chip id. -/
def f0With (n : Nat) (csLo csHi chip : Byte) : State :=
  withInput n (f0Magic ++ [(56, csLo), (57, csHi), (58, chip), (59, 0)])

/-! ### Ill-formed terms are refused -/

theorem smoke_commandWord_rsv : CommandWord.wellFormed 0x00000105 = false := by decide
theorem smoke_commandWord_opcode : CommandWord.wellFormed 0x00000005 = false := by decide
theorem smoke_commandWord_good : CommandWord.wellFormed 0x00000041 = true := by decide
theorem smoke_access_window : (HostOp.read 0x30000 .w32 "x").wellFormed = false := by decide
theorem smoke_access_aligned : (HostOp.write 0x1001 .w16 1).wellFormed = false := by decide
theorem smoke_access_width : (HostOp.read 0x2000 .w8 "y").wellFormed = false := by decide
theorem smoke_access_widthReg : (HostOp.read 0x000 .w16 "x").wellFormed = false := by decide
theorem smoke_access_good : (HostOp.read 0x2004 .w32 "w").wellFormed = true := by decide

/-! ### Words written out from the opcode map (30_encoding.md R83, bits 31 down to 0) -/

theorem test_decode_words :
    decode 0b00000000000000000000000000000000 = .ok .nop ∧
    decode 0b00000000000000000000000000000001 = .ok .chanspecDecode ∧
    decode 0b00000000000000000000000000000010 = .ok .chanspecEncode ∧
    decode 0b00000000000000000000000000000011 = .ok .defaultDelay ∧
    decode 0b00000000000000000000000000000100 = .ok .subcarrierClass ∧
    decode 0b00000000000000000000000000010000 = .ok .unpackComplex ∧
    decode 0b00000000000000000000000000010001 = .ok .unpackCsi ∧
    decode 0b00000000000000000000000000100000 = .ok .decodeFrame ∧
    decode 0b00000000000000000000000000110000 = .ok .groupAdd ∧
    decode 0b00000000000000000000000000110001 = .ok .groupTake ∧
    decode 0b00000000000000000000000001000000 = .ok .aoa ∧
    decode 0b00000000000000000000000001000001 = .ok .tof := by
  refine ⟨rfl, rfl, rfl, rfl, rfl, rfl, rfl, rfl, rfl, rfl, rfl, rfl⟩

/-- The same words by the table's own numbering, and words of no command. -/
theorem test_decodeTableWord :
    decodeTableWord 32 0x20 = some .decodeFrame ∧ decodeTableWord 8 0x41 = some .tof ∧
    decodeTableWord 32 0xFF = none ∧ decodeTableWord 32 0x80000000 = none := by
  refine ⟨rfl, rfl, rfl, rfl⟩

/-! ### Single steps (expected values: 95_test_vectors.md) -/

/-- L2.6: NOP from reset. -/
theorem test_nop : ends (step (State.reset.withFetchWord 32 0x00)) (fun t =>
    statusWord t == 0x00000002) = true := by decide +kernel

/-- L2.6: an illegal word. -/
theorem test_illegal : ends (step (State.reset.withFetchWord 32 0x105)) (fun t =>
    statusWord t == 0x00008002) = true := by decide +kernel

/-- L2.1, row 0xED72: a sideband that needs bit 10. -/
theorem test_chanspecDecode : ends (step (running 0x01 0xED72 0 0)) (fun t =>
    t.res == #v[114, 5, 1, 3, 160, 512, 100, 5570]) = true := by decide +kernel

/-- L2.1, row 0xEF00: a negative lowest channel. -/
theorem test_chanspecDecode_negative : ends (step (running 0x01 0xEF00 0 0)) (fun t =>
    t.res[6] == 0xFFFFFFF2) = true := by decide +kernel

/-- W1: `encode(36, 5 GHz, 40 MHz)`. -/
theorem test_chanspecEncode : ends (step (running 0x02 36 1 1)) (fun t =>
    t.res == #v[0xD826, 38, 0, 36, 0xDEADBEEF, 0xDEADBEEF, 0xDEADBEEF, 0xDEADBEEF]) = true := by
  decide +kernel

/-- L2.1: channel 165 at 40 MHz is ABSENT. -/
theorem test_chanspecEncode_absent : ends (step (running 0x02 165 1 1)) (fun t =>
    statusWord t == 0x00000006 && t.res[0] == 0xDEADBEEF) = true := by decide +kernel

/-- W12. -/
theorem test_defaultDelay : ends (step (running 0x03 0xF 0x7 0)) (fun t =>
    t.res[0] == 50 && t.res[1] == 12) = true := by decide +kernel

/-- L2.1: three cores and three streams are below the threshold. -/
theorem test_defaultDelay_short : ends (step (running 0x03 0x7 0x7 0)) (fun t =>
    t.res[0] == 0 && t.res[1] == 9) = true := by decide +kernel

/-- L2.1: 20 MHz, k = -21 is a pilot. -/
theorem test_subcarrierClass : ends (step (running 0x04 0 0xFFFFFFEB 0)) (fun t =>
    t.res[0] == 1) = true := by decide +kernel

/-- L2.1: 160 MHz, k = 129 is unused. -/
theorem test_subcarrierClass_gap : ends (step (running 0x04 3 129 0)) (fun t =>
    t.res[0] == 0) = true := by decide +kernel

/-- W6. -/
theorem test_unpackComplex : ends (step (running 0x10 0x80080083 0 0)) (fun t =>
    t.res == #v[0, 0xC0200000, 0, 0x40300000, 3, 0xFFFFFFFF, 2, 0xDEADBEEF]) = true := by
  decide +kernel

/-- L2.2: all ones. -/
theorem test_unpackComplex_ones : ends (step (running 0x10 0xFFFFFFFF 0 0)) (fun t =>
    t.res == #v[0, 0xC09FFE00, 0, 0xC09FFE00, 0xFFFFFFFF, 0xFFFFF001, 0xFFFFF001, 0xDEADBEEF]) =
      true := by decide +kernel

/-- L2.2: wire word 1 lands at entry 33 (the rotation by half). -/
theorem test_unpackCsi : ends (exec .unpackCsi
    (withInput 256 [(4, 0x00), (5, 0x00), (6, 0x10), (7, 0x00)])) (fun t =>
    t.res[0] == 64 &&
      decide (Sparse.read? t.coefBuf 33 = some ⟨0x4000000000000000, 0⟩)) = true := by
  decide +kernel

/-- L2.2: one byte short. -/
theorem test_unpackCsi_short : ends (exec .unpackCsi (withInput 255 [])) (fun t =>
    statusWord t == 0x00000102 && decide (t.coefBuf = [])) = true := by decide +kernel

/-- L2.3: the fields of F0. -/
theorem test_decodeFrame_fields : frameFields (f0 316) .mhz20 =
    { rssi := 0xFFFFFFCD, fc := 0x08, macLo := 0x33221100, macHi := 0x5544, seq := 1, config := 0,
      cfgBe := false, core := 0, spatial := 0, chanspec := 0xD024, chip := 0x006A, nsub := 64 } := by
  decide +kernel

/-- L2.3: the config bytes `00 1A` take the big-endian fallback. -/
theorem test_decodeFrame_config :
    frameConfig (withInput 60 [(54, 0x00), (55, 0x1A)]) = (0x001A, true) := by decide +kernel

/-- L2.3: IN_LEN = 59. -/
theorem test_decodeFrame_short : ends (exec .decodeFrame (f0 59)) (fun t =>
    statusWord t == 0x00000102) = true := by decide +kernel

/-- L2.4 step 1: the first frame starts a group. -/
theorem test_groupAdd_first : ends (exec .groupAdd
    (grouping (frm 1 0 0) false WifiCsi.reset)) (fun t =>
    statusWord t == 0x00030006 && t.grp.seq == 1 && t.grp.mask == 0x0001) = true := by
  decide +kernel

/-- L2.4 step 4: a frame of another generation emits the group. -/
theorem test_groupAdd_emits : ends (exec .groupAdd
    (grouping (frm 2 1 0) true (csi 1 0x1011 []))) (fun t =>
    statusWord t == 0x0007000A && t.grp.mask == 0x0010 && t.snap.seq == 1 &&
      t.snap.mask == 0x1011 && t.snap.len[12] == 64 && t.snap.len[1] == 0) = true := by
  decide +kernel

/-- L2.4 step 5: TAKE emits the group. -/
theorem test_groupTake : ends (exec .groupTake (grouping (frm 2 1 0) true (csi 2 0x0010 [])))
    (fun t => statusWord t == 0x0005000A && t.snap.seq == 2 && t.snap.len[4] == 64) = true := by
  decide +kernel

/-- L2.4: TAKE on an empty grouper. -/
theorem test_groupTake_empty : ends (exec .groupTake State.reset) (fun t =>
    statusWord t == 0x00000006) = true := by decide +kernel

/-- L2.5: equal left and right entries give the angle +0 in AOA1. -/
theorem test_aoa : ends (exec .aoa
    { snapped (csi 1 0x1011 [(0, one), (2048, one), (6144, imag)]) with
      arg := #v[0x9999999A, 0x3F999999, 0, 0] }) (fun t =>
    t.res[0] == 64 && statusWord t == 0x00040002 &&
      decide (Sparse.read? t.aoa1 0 = some 0)) = true := by decide +kernel

/-- L2.5: a missing slot 12 is ABSENT. -/
theorem test_aoa_absent : ends (exec .aoa (snapped (csi 1 0x0011 []))) (fun t =>
    statusWord t == 0x00040006 && t.res[0] == 0) = true := by decide +kernel

/-- L2.5: a snapshot with core 0 at spatial stream 1 only has no delay. -/
theorem test_tof_none : ends (exec .tof (snapped (csi 1 0x0002 []))) (fun t =>
    t.res == #v[0, 0, 0, 0, 0, 20, 64, 0] && statusWord t == 0x00040002) = true := by
  decide +kernel

/-- L2.5: TOF after reset has no snapshot. -/
theorem test_tof_noSnapshot : ends (exec .tof State.reset) (fun t =>
    statusWord t == 0x00008402) = true := by decide +kernel

/-- L2.5: the frequency grid of 0xD024 and its first and last wavelengths. -/
theorem test_frequencies :
    freq ⟨36, 0, .ghz5, .mhz20⟩ 1 = 0x41F342CC89451451 ∧
    wavelength ⟨36, 0, .ghz5, .mhz20⟩ 0 = 0x3FADB076B191D242 ∧
    wavelength ⟨36, 0, .ghz5, .mhz20⟩ 63 = 0x3FAD932CBDB5C2A6 := by decide +kernel

/-- L2.5: the denominator for d = 0.025 and the argument of ASIN at entry 0. -/
theorem test_aoa_argument :
    aoaDen 0x3F9999999999999A = 0x3FC41B2F769CF0E0 ∧
    fDiv (fMul fHalfPi (wavelength ⟨36, 0, .ghz5, .mhz20⟩ 0)) (aoaDen 0x3F9999999999999A) =
      0x3FE28E4A2EFB2369 := by decide +kernel

/-- 44_estimator.md R193 item 1: ATAN2(1, 1) is within 1 ulp of π/4, whatever the free value is. -/
theorem test_atan2_one_one : fAtan2 fOne fOne ∈
    [0x3FE921FB54442D17, 0x3FE921FB54442D18, 0x3FE921FB54442D19] := by
  have e : withinUlp (angleOf (fFixAbs fOne) (fFixAbs fOne) (fNeg fOne)) fPi =
    [0x3FE921FB54442D18, 0x3FE921FB54442D19] := by decide +kernel
  have h := pickWithinUlp_mem (Config.atan2Pick fOne fOne) (e ▸ List.cons_ne_nil _ _)
  rw [fAtan2_eq (by decide) (by decide) (by decide) (by decide)]
  rw [e] at h
  generalize pickWithinUlp _ _ _ = c at *
  revert c
  decide

/-- R195's example: AOA0[0] for center (0, 1) over right (1, 0), d = 0.025 m, is within 1 ulp of the
spec's value, and AOA1[0], left equal to right, is +0. -/
theorem test_aoa_example :
    expectedAngle 0x3F9999999999999A (gridFrequency 36 20 64 0) imag one ∈
      [0x3FE3CB4FCDF832AF, 0x3FE3CB4FCDF832B0, 0x3FE3CB4FCDF832B1] ∧
    expectedAngle 0x3F9999999999999A (gridFrequency 36 20 64 0) one one = 0 := by
  have e : withinUlp (asinAngle (fMag 0x3FE28E4A2EFB2369)) fHalfPi =
    [0x3FE3CB4FCDF832AF, 0x3FE3CB4FCDF832B0] := by decide +kernel
  have h := pickWithinUlp_mem (Config.asinPick 0x3FE28E4A2EFB2369) (e ▸ List.cons_ne_nil _ _)
  have ha : expectedAngle 0x3F9999999999999A (gridFrequency 36 20 64 0) imag one =
    fAsin 0x3FE28E4A2EFB2369 := congrArg fAsin (by decide +kernel)
  refine ⟨?_, by decide +kernel⟩
  rw [ha, fAsin_eq (by decide) (by decide)]
  rw [e] at h
  generalize pickWithinUlp _ _ _ = c at *
  revert c
  decide

/-- L2.6: a 32-bit write to IN_BUF read back by bytes and halves. -/
theorem test_inBuf_bytes : ends (step (scripted [.write 0x1000 .w32 0x44332211])) (fun t =>
    decide (busRead t 0x1001 .w8 = .ok 0x22 ∧ busRead t 0x1002 .w16 = .ok 0x4433)) = true := by
  decide +kernel

/-- L2.6: three bus errors and a legal read. -/
theorem test_busErrors :
    step (scripted [.read 0x000 .w16 "x"]) = .fault .widthNotTaken ∧
    step (scripted [.write 0x1001 .w16 1]) = .fault .misalignedAccess ∧
    step (scripted [.read 0x2000 .w8 "y"]) = .fault .widthNotTaken ∧
    step (scripted [.read 0x30000 .w32 "z"]) = .refused .platformAddress := by
  refine ⟨rfl, rfl, rfl, rfl⟩

/-- L2.6: IN_LEN keeps 13 bits. -/
theorem test_inLen : ends (step (scripted [.write 0x00C .w32 0xFFFFFFFF])) (fun t =>
    decide (busRead t 0x00C .w32 = .ok 0x00001FFF)) = true := by decide +kernel

/-! ### Witnesses: every statement's hypotheses are met -/

theorem witness_StepRunsTheLatchedCommand :
    (State.reset.withFetchWord 32 0x03).seqr = .busy 0x00000003 0 ∧
      decode 0x00000003 = .ok .defaultDelay ∧ decodeTableWord 32 0x41 = some .tof := by
  refine ⟨rfl, rfl, rfl⟩

theorem witness_IllegalWordCompletesWithItsError :
    (State.reset.withFetchWord 32 0x100).seqr = .busy 0x00000100 0 ∧
      (∀ i, (0x00000100 : Word) ≠ encode i) ∧ ∀ i, (0x00000042 : Word) ≠ encode i :=
  ⟨rfl, fun i => by cases i <;> decide, fun i => by cases i <;> decide⟩

theorem witness_IllegalWordCompletesWithItsError_start :
    (scripted [.write 0x008 .w32 0x100]).seqr = .idle ∧
      (scripted [.write 0x008 .w32 0x100]).script = .write 0x008 .w32 0x100 :: [] := ⟨rfl, rfl⟩

theorem witness_CmdWriteStartsACommand :
    (scripted [.write 0x008 .w32 0x40]).seqr = .idle ∧
      (scripted [.write 0x008 .w32 0x40]).script = .write 0x008 .w32 0x40 :: [] := ⟨rfl, rfl⟩

theorem witness_RunningCommandCompletesInTime :
    busyState.script = [] ∧ busyState.seqr = .busy 0x00000040 3 ∧
      decode 0x00000040 = .ok .aoa := ⟨rfl, rfl, rfl⟩

/-- A running command and a word that is none, the host waiting. -/
theorem witness_RunningCommandCompletesInTime_wait :
    { busyState with script := [.wait] }.seqr = .busy 0x00000040 3 ∧
      { busyState with script := [.wait] }.status.done = false ∧
      { busyState with script := [.wait] }.script = .wait :: [] ∧
      ∀ i, (0x00000141 : Word) ≠ encode i :=
  ⟨rfl, rfl, rfl, fun i => by cases i <;> decide⟩

/-- A `wait` with the host's two values of DONE. -/
theorem witness_RunningCommandCompletesInTime_idle :
    (scripted [.wait]).seqr = .idle ∧ (scripted [.wait]).script = .wait :: [] ∧
      (scripted [.wait]).status.done = false ∧
      { State.reset with status := { Status.reset with done := true } }.status.done = true :=
  ⟨rfl, rfl, rfl, rfl⟩

theorem witness_RunningCommandCompletesInTime_start :
    (scripted [.write 0x008 .w32 0x41, .wait]).seqr = .idle ∧
      (scripted [.write 0x008 .w32 0x41, .wait]).script =
        .write 0x008 .w32 0x00000041 :: .wait :: [] ∧
      decode 0x00000041 = .ok .tof := ⟨rfl, rfl, rfl⟩

theorem witness_CtrlWriteEnablesOrResets :
    (scripted [.resetInput]).script = .resetInput :: [] ∧ (scripted [.resetInput]).seqr = .idle ∧
      { busyState with script := [.resetInput] }.seqr = .busy 0x00000040 (2 + 1) := ⟨rfl, rfl, rfl⟩

theorem witness_WritesWhileBusyAreDropped_register :
    isBusy busyState = true ∧ 0x01C ∈ [0x008, 0x00C, 0x010, 0x014, 0x018, 0x01C] := by decide

theorem witness_WritesWhileBusyAreDropped_inBuf :
    isBusy busyState = true ∧ 0x1000 ≤ 0x1FFE ∧ 0x1FFE < 0x2000 ∧ 0x1FFE % Width.bytes .w16 = 0 := by
  decide

theorem witness_idle : isBusy State.reset = false := rfl

theorem witness_BusAccessesAreServedOrFault :
    0x2FFFF < 0x30000 ∧ Access.aligned 0x2FFFC .w32 = true ∧ Access.aligned 0x2FFFF .w32 = false ∧
      Access.widthTaken 0x2FFFF .w8 = false := by decide

/-- Bad accesses of an idle and of a busy block, the last one beyond the window. -/
theorem witness_BusAccessesAreServedOrFault_stop :
    (scripted [.write 0x1FFF .w16 1]).script = .write 0x1FFF .w16 1 :: [] ∧
      (scripted [.write 0x1FFF .w16 1]).seqr = .idle ∧ Access.aligned 0x1FFF .w16 = false ∧
      { busyState with script := [.read 0x2000 .w8 "y"] }.seqr = .busy 0x00000040 (2 + 1) ∧
      Access.widthTaken 0x2000 .w8 = false ∧ 0x30000 ≤ 0x30000 :=
  ⟨rfl, rfl, rfl, rfl, rfl, by decide⟩

/-- Well-formed writes to an idle and to a busy block, at both ends of the window. -/
theorem witness_BusAccessesAreServedOrFault_write :
    (scripted [.write 0x2FFFC .w32 1]).script = .write 0x2FFFC .w32 1 :: [] ∧
      (HostOp.write 0x2FFFC .w32 1).wellFormed = true ∧
      (scripted [.write 0x2FFFC .w32 1]).seqr = .idle ∧
      (HostOp.write 0x000 .w32 2).wellFormed = true ∧
      { busyState with script := [.write 0x000 .w32 2] }.seqr = .busy 0x00000040 (2 + 1) :=
  ⟨rfl, by decide, rfl, by decide, rfl⟩

/-- The completion of a word that is no command. -/
theorem witness_InterruptFollowsDoneAndEnable :
    (State.reset.withFetchWord 32 0x100).seqr = .busy 0x00000100 0 ∧
      ∃ t, step (State.reset.withFetchWord 32 0x100) = .next t := ⟨rfl, _, rfl⟩

theorem witness_InBufWordWriteReadsBackByBytes :
    isBusy State.reset = false ∧ 4092 % 4 = 0 ∧ 4092 < 4096 := by decide

theorem witness_NarrowInBufWritesNameTheirBytes :
    isBusy State.reset = false ∧ 4095 < 4096 ∧ 4094 < 4096 ∧ 4094 % 2 = 0 := by decide

theorem witness_ReadOnlyAndReservedWritesIgnored :
    (0x020 % 4 = 0 ∧ 0x020 ≤ 0x020 ∧ 0x020 < 0x1000) ∧
      (0xFFC % 4 = 0 ∧ 0x020 ≤ 0xFFC ∧ 0xFFC < 0x1000) ∧
      (0x2FFFC % 4 = 0 ∧ 0x2000 ≤ 0x2FFFC ∧ 0x2FFFC < 0x30000) := by decide

theorem witness_CmdAndReservedOffsetsReadZero :
    (0x07C % 4 = 0 ∧ 0x06C ≤ 0x07C ∧ 0x07C < 0x080) ∧
      (0x0BC % 4 = 0 ∧ 0x0A0 ≤ 0x0BC ∧ 0x0BC < 0x0C0) ∧
      (0x100 % 4 = 0 ∧ 0x100 ≤ 0x100 ∧ 0x100 < 0x1000) ∧
      (0xFFFC % 4 = 0 ∧ 0x6000 ≤ 0xFFFC ∧ 0xFFFC < 0x10000) := by decide

theorem witness_ReadsHaveNoSideEffect :
    (scripted [.read 0x1FFF .w8 "b"]).seqr = .idle ∧
      (scripted [.read 0x1FFF .w8 "b"]).script = .read 0x1FFF .w8 "b" :: [] ∧
      (HostOp.read 0x1FFF .w8 "b").wellFormed = true := ⟨rfl, rfl, by decide⟩

theorem witness_ReadsHaveNoSideEffect_busy :
    { busyState with script := [.read 0x004 .w32 "s"] }.seqr = .busy 0x00000040 (2 + 1) ∧
      (HostOp.read 0x004 .w32 "s").wellFormed = true := ⟨rfl, by decide⟩

/-- One stored number at the last entry of each window. -/
def windows : State :=
  { State.reset with
    coefBuf := [(511, one)], aoa0 := [(511, 1)], aoa1 := [(511, 2)]
    snap := { WifiCsi.reset with grid := [(8191, imag)] } }

theorem witness_WindowsShowStoredNumbers :
    isBusy windows = false ∧ 511 < 512 ∧ Sparse.read? windows.coefBuf 511 = some one ∧
      Sparse.read? windows.snap.grid (512 * (15 : Fin 16).val + 511) = some imag ∧
      Sparse.read? windows.aoa0 511 = some 1 ∧ Sparse.read? windows.aoa1 511 = some 2 := by decide

theorem witness_anyCompletion : ∃ t, exec .nop State.reset = .next t := ⟨_, rfl⟩

theorem witness_NopOnlyCompletes : State.reset.status = State.reset.status := rfl

theorem witness_BadOperandComesFirst :
    operandRefused .chanspecDecode (withArgs 0x10000 0 0 0) ∧
      operandRefused .chanspecEncode (withArgs 0 2 0 0) ∧
      operandRefused .defaultDelay (withArgs 0 0x10 0 0) ∧
      operandRefused .subcarrierClass (withArgs 4 0 0 0) ∧
      operandRefused .unpackCsi (withInput 4097 []) ∧
      operandRefused .decodeFrame (withInput 4097 []) :=
  ⟨by simp only [operandRefused]; decide, by simp only [operandRefused]; decide,
    by simp only [operandRefused]; decide, by simp only [operandRefused]; decide,
    by simp only [operandRefused]; decide, by simp only [operandRefused]; decide⟩

theorem witness_BadOperandComesFirst_only :
    ∃ t, exec .subcarrierClass (withArgs 4 0 0 0) = .next t ∧ t.status.err = .badOperand :=
  ⟨_, rfl, rfl⟩

theorem witness_ChanspecDecodeGivesTheFields_five :
    (0x2800, 3, 160, 512) ∈ bandwidthRows ∧ 0xEFFF < 2 ^ 16 ∧
      (withArgs 0xEFFF 0 0 0).arg[0].toNat = 0xEFFF ∧ 0xEFFF &&& 0x3800 = 0x2800 ∧
      0xEFFF &&& 0xC000 = 0xC000 := by decide

theorem witness_ChanspecDecodeGivesTheFields_two :
    (0x1000, 0, 20, 64) ∈ bandwidthRows ∧ 0x1000 < 2 ^ 16 ∧
      (withArgs 0x1000 0 0 0).arg[0].toNat = 0x1000 ∧ 0x1000 &&& 0x3800 = 0x1000 ∧
      0x1000 &&& 0xC000 = 0 := by decide

theorem witness_ChanspecDecodeErrorsInOrder :
    (0x4000 < 2 ^ 16 ∧ (withArgs 0x4000 0 0 0).arg[0].toNat = 0x4000 ∧
      0x4000 &&& 0x3800 ∉ [0x1000, 0x1800, 0x2000, 0x2800]) ∧
    (0x9024 &&& 0x3800 ∈ [0x1000, 0x1800, 0x2000, 0x2800] ∧ 0x9024 &&& 0xC000 ∉ [0, 0xC000]) ∧
    (0x2824 &&& 0x3800 ∈ [0x2000, 0x2800] ∧ 0x2824 &&& 0xC000 = 0) := by decide

theorem witness_EncodedChanspecDecodesBack :
    255 < 256 ∧ csEncode 255 .ghz5 .mhz20 = some 0xD0FF ∧
      csEncode 64 .ghz5 .mhz160 = some 0xEF32 := by decide

theorem witness_DecodedChanspecComposesBack :
    csDecode 0xFFFF = .error .invalidBandwidth ∧
      csDecode 0xEFFF = .ok ⟨0xFF, 7, .ghz5, .mhz160⟩ := by decide

theorem witness_ChanspecEncodeTakesEveryTwentyMhzChannel :
    255 < 256 ∧ 1 < 2 ∧ (withArgs 255 1 0 0).arg[0].toNat = 255 ∧
      (withArgs 255 1 0 0).arg[1].toNat = 1 ∧ (withArgs 255 1 0 0).arg[2].toNat = 0 := by decide

/-- Channel 64 at 160 MHz: candidate 50, sideband 7 (L2.1). -/
theorem witness_ChanspecEncodeTakesTheFirstCandidate :
    (0x2800, 3, 160, 512) ∈ bandwidthRows ∧ 64 < 256 ∧ (withArgs 64 1 3 0).arg[0].toNat = 64 ∧
      (withArgs 64 1 3 0).arg[1].toNat = 1 ∧ (withArgs 64 1 3 0).arg[2].toNat = 3 ∧
      candidateTable 160 = [] ++ 50 :: [114] ∧ candidateFits 64 160 50 := by
  refine ⟨by decide, by decide, by decide, by decide, by decide, by decide, ?_⟩
  unfold candidateFits
  decide

/-- Channel 100 at 160 MHz: candidate 50 has the offset 64, sideband 16, and does not take it; candidate
114 has the offset 0 (L2.1). -/
theorem witness_ChanspecEncodeTakesTheFirstCandidate_second :
    (withArgs 100 1 3 0).arg[0].toNat = 100 ∧ candidateTable 160 = [50] ++ 114 :: [] ∧
      (∀ b ∈ [50], ¬ candidateFits 100 160 b) ∧ candidateFits 100 160 114 := by
  unfold candidateFits
  decide

theorem witness_ChanspecEncodeAbsentWithoutCandidate_band :
    (0x2000, 2, 80, 256) ∈ bandwidthRows ∧ (withArgs 1 0 2 0).arg[0].toNat = 1 ∧
      (withArgs 1 0 2 0).arg[1].toNat = 0 ∧ (withArgs 1 0 2 0).arg[2].toNat = 2 := by decide

theorem witness_ChanspecEncodeAbsentWithoutCandidate_table :
    (0x1800, 1, 40, 128) ∈ bandwidthRows ∧ (withArgs 165 1 1 0).arg[0].toNat = 165 ∧
      ∀ c ∈ candidateTable 40, ¬ candidateFits 165 40 c := by
  unfold candidateFits
  decide

theorem witness_DefaultDelayCountsMasks :
    15 < 16 ∧ (withArgs 15 7 0 0).arg[0].toNat = 15 ∧ (withArgs 15 7 0 0).arg[1].toNat = 7 ∧
      12 = ((List.range 4).filter (15).testBit).length *
        ((List.range 4).filter (7).testBit).length := by decide

theorem witness_SubcarrierClassFollowsTheTonePlan :
    (withArgs 3 231 0 0).arg[0].toNat = 3 ∧
      (withArgs 3 231 0 0).arg[1].toInt.natAbs ∈ [25, 53, 89, 117, 139, 167, 203, 231] ∧
      (withArgs 3 250 0 0).arg[1].toInt.natAbs ≤ 250 ∧
      (withArgs 3 0x80000000 0 0).arg[1].toInt.natAbs = 2 ^ 31 := by decide

theorem witness_UnpackComplexIsExact :
    (withArgs 0x80080083 0 0 0).arg[0].toNat = 0x80080083 ∧ 0x80080083 % 64 = 3 ∧
      0x80080083 / 2 ^ 31 = 1 ∧ 0x80080083 / 2 ^ 19 % 2 ^ 12 = 1 ∧ 0x80080083 / 2 ^ 18 % 2 = 0 ∧
      0x80080083 / 2 ^ 6 % 2 ^ 12 = 2 := by decide

theorem witness_UnpackCsiRotatesThePayload :
    (0x1000, 0, 20, 64) ∈ bandwidthRows ∧ (withInput 256 []).arg[0].toNat = 0 ∧
      4 * 64 ≤ (withInput 256 []).inLen.toNat ∧ (withInput 256 []).inLen.toNat ≤ 4096 := by decide

theorem witness_UnpackCsiRefusesShortPayloads :
    (0x1000, 0, 20, 64) ∈ bandwidthRows ∧ (withInput 255 []).arg[0].toNat = 0 ∧
      (withInput 255 []).inLen.toNat < 4 * 64 := by decide

/-- A header with the OPEN magic values is accepted, whatever they are. -/
theorem headerAccepted_f0 (n : Nat) (tail : Memory) (h : 60 ≤ (withInput n []).inLen.toNat) :
    headerAccepted (withInput n (f0Magic ++ tail)) :=
  ⟨h, fun i => by fin_cases i <;> rfl, fun i => by fin_cases i <;> rfl⟩

/-- F0 passes the checks, at its shortest length. -/
theorem witness_DecodeFrameWritesTheFrame :
    (0x1000, 0, 20, 64) ∈ bandwidthRows ∧ headerAccepted (f0 316) ∧
      60 + 4 * 64 ≤ (f0 316).inLen.toNat ∧ frameWord16 (f0 316) 56 &&& 0x3800 = 0x1000 ∧
      frameWord16 (f0 316) 56 &&& 0xC000 = 0xC000 ∧ frameWord16 (f0 316) 58 = 106 ∧
      false = decide (63 < frameWord16 (f0 316) 54) ∧ 0 = frameWord16 (f0 316) 54 :=
  ⟨by decide, headerAccepted_f0 316 f0Tail (by decide), by decide, by decide +kernel,
    by decide +kernel, by decide +kernel, by decide +kernel, by decide +kernel⟩

/-- The config bytes `40 00` take the fallback: 64 is the least such value. -/
theorem witness_DecodeFrameWritesTheFrame_fallback :
    true = decide (63 < frameWord16 (withInput 316 (f0Magic ++ [(54, 0x40), (55, 0)])) 54) := by
  decide +kernel

/-- A 2.4 GHz frame of 20 MHz (0x1006). -/
theorem witness_DecodeFrameWritesTheFrame_two :
    headerAccepted (f0With 316 0x06 0x10 0x6A) ∧
      frameWord16 (f0With 316 0x06 0x10 0x6A) 56 &&& 0x3800 = 0x1000 ∧
      frameWord16 (f0With 316 0x06 0x10 0x6A) 56 &&& 0xC000 = 0 :=
  ⟨headerAccepted_f0 316 _ (by decide), by decide +kernel, by decide +kernel⟩

theorem witness_DecodeFrameErrorsInOrder_badOperand :
    4096 < (withInput 4097 []).inLen.toNat := by decide

theorem witness_DecodeFrameErrorsInOrder_short : (f0 59).inLen.toNat < 60 := by decide

/-- A byte differs from its complement. -/
theorem ne_not (b : Byte) : ~~~b ≠ b := by revert b; decide

theorem witness_DecodeFrameErrorsInOrder_magicString :
    60 ≤ (withInput 60 [(6, ~~~Config.magicString 0)]).inLen.toNat ∧
      ∃ i : Fin 6, inByte (withInput 60 [(6, ~~~Config.magicString 0)]) (6 + i.val) ≠
        Config.magicString i :=
  ⟨by decide, 0, ne_not _⟩

/-- F0 with a wrong byte 43. -/
def wrongMagicBytes : State :=
  withInput 60 ((43, ~~~Config.magicBytes 1) :: f0Magic)

theorem witness_DecodeFrameErrorsInOrder_magicBytes :
    60 ≤ wrongMagicBytes.inLen.toNat ∧
      (∀ i : Fin 6, inByte wrongMagicBytes (6 + i.val) = Config.magicString i) ∧
      ∃ i : Fin 2, inByte wrongMagicBytes (42 + i.val) ≠ Config.magicBytes i :=
  ⟨by decide, fun i => by fin_cases i <;> rfl, 1, ne_not _⟩

theorem witness_DecodeFrameErrorsInOrder_chanspec :
    headerAccepted (f0With 60 0x24 0x00 0x6A) ∧
      csDecode (BitVec.ofNat 16 (frameWord16 (f0With 60 0x24 0x00 0x6A) 56)) =
        .error .invalidBandwidth :=
  ⟨headerAccepted_f0 60 _ (by decide), by decide +kernel⟩

theorem witness_DecodeFrameErrorsInOrder_chip :
    headerAccepted (f0With 316 0x24 0xD0 0x6B) ∧
      csDecode (BitVec.ofNat 16 (frameWord16 (f0With 316 0x24 0xD0 0x6B) 56)) =
        .ok ⟨36, 0, .ghz5, .mhz20⟩ ∧ frameWord16 (f0With 316 0x24 0xD0 0x6B) 58 ≠ 106 :=
  ⟨headerAccepted_f0 316 _ (by decide), by decide +kernel, by decide +kernel⟩

theorem witness_DecodeFrameErrorsInOrder_payload :
    headerAccepted (f0 315) ∧ frameWord16 (f0 315) 58 = 106 ∧
      (f0 315).inLen.toNat < 60 + 4 * Bw.nsub .mhz20 :=
  ⟨headerAccepted_f0 315 f0Tail (by decide), by decide +kernel, by decide⟩

theorem witness_UnreadFrameBytesDoNotMatter :
    ∀ a, 6 ≤ a → (a < 12 ∨ 42 ≤ a) →
      Sparse.read? ((5, 0xAA) :: f0Magic) a = Sparse.read? f0Magic a := by
  intro a h _
  rw [Sparse.read?_cons, if_neg (by omega)]

theorem witness_GroupAddStartsTheFirstGroup :
    (grouping (frm 1 3 3) false WifiCsi.reset).status.frameValid = true ∧
      frameHasSlot (grouping (frm 1 3 3) false WifiCsi.reset) ∧
      lengthsInRange (grouping (frm 1 3 3) false WifiCsi.reset) ∧
      (grouping (frm 1 3 3) false WifiCsi.reset).status.groupActive = false := by
  unfold frameHasSlot lengthsInRange
  decide

/-- An active group of another seq_cnt with no populated slot. -/
theorem witness_GroupAddStartsTheFirstGroup_empty :
    frameHasSlot (grouping (frm 1 0 0) true (csi 2 0 [])) ∧
      lengthsInRange (grouping (frm 1 0 0) true (csi 2 0 [])) ∧
      (frm 1 0 0).seq ≠ (csi 2 0 []).seq ∧ (csi 2 0 []).mask = 0 := by
  unfold frameHasSlot lengthsInRange
  decide

theorem witness_GroupAddKeepsTheGeneration :
    (grouping (frm 1 3 0) true (csi 1 0x0001 [])).status.frameValid = true ∧
      frameHasSlot (grouping (frm 1 3 0) true (csi 1 0x0001 [])) ∧
      lengthsInRange (grouping (frm 1 3 0) true (csi 1 0x0001 [])) ∧
      (grouping (frm 1 3 0) true (csi 1 0x0001 [])).status.groupActive = true ∧
      (frm 1 3 0).seq = (csi 1 0x0001 []).seq := by
  unfold frameHasSlot lengthsInRange
  decide

/-- The wrap of seq_cnt, 0xFFFF then 0, is another generation. -/
theorem witness_GroupAddEmitsTheOldGeneration :
    (grouping (frm 0 1 0) true (csi 0xFFFF 0x1011 [])).status.frameValid = true ∧
      frameHasSlot (grouping (frm 0 1 0) true (csi 0xFFFF 0x1011 [])) ∧
      lengthsInRange (grouping (frm 0 1 0) true (csi 0xFFFF 0x1011 [])) ∧
      (grouping (frm 0 1 0) true (csi 0xFFFF 0x1011 [])).status.groupActive = true ∧
      (frm 0 1 0).seq ≠ (csi 0xFFFF 0x1011 []).seq ∧ (csi 0xFFFF 0x1011 []).mask ≠ 0 := by
  unfold frameHasSlot lengthsInRange
  decide

theorem witness_GroupAddRefusesBadFrames :
    State.reset.status.frameValid = false ∧
      (grouping (frm 1 4 0) false WifiCsi.reset).status.frameValid = true ∧
      ¬ frameHasSlot (grouping (frm 1 4 0) false WifiCsi.reset) ∧
      ¬ frameHasSlot (grouping (frm 1 0 4) false WifiCsi.reset) := by
  unfold frameHasSlot
  decide

theorem witness_GroupTakeEmitsTheGroup :
    (grouping (frm 1 0 0) true (csi 1 0x8000 [])).status.groupActive = true ∧
      (csi 1 0x8000 []).mask ≠ 0 ∧ lengthsInRange (grouping (frm 1 0 0) true (csi 1 0x8000 [])) := by
  unfold lengthsInRange
  decide

theorem witness_GroupTakeAbsentWhenEmpty :
    State.reset.status.groupActive = false ∧ (csi 2 0 []).mask = 0 := by decide

/-- The snapshot of program P3: right (1, 0), left (1, 0), center (0, 1) at entry 0. -/
def p3 : State := snapped (csi 1 0x1011 [(0, one), (2048, one), (6144, imag)])

theorem witness_AoaReady : AoaReady p3 ⟨36, 0, .ghz5, .mhz20⟩ :=
  ⟨rfl, by decide, rfl, rfl, rfl, rfl, rfl, rfl⟩

theorem witness_AoaOutcomesInOrder_absent :
    State.reset.status.snapValid = false ∧
      csDecode (snapped (csi 1 0x0011 [])).snap.chanspec = .ok ⟨36, 0, .ghz5, .mhz20⟩ ∧
      (snapped (csi 1 0x0011 [])).snap.mask.getLsbD 12 = false := by decide

/-- A group of 20 MHz whose left slot came from a 40 MHz frame (44_estimator.md R190). -/
def mixed : State :=
  snapped { csi 9 0x1011 [] with len := #v[64, 0, 0, 0, 128, 0, 0, 0, 0, 0, 0, 0, 64, 0, 0, 0] }

theorem witness_lengthMismatch :
    mixed.status.snapValid = true ∧ csDecode mixed.snap.chanspec = .ok ⟨36, 0, .ghz5, .mhz20⟩ ∧
      mixed.snap.mask.getLsbD 0 = true ∧ mixed.snap.mask.getLsbD 12 = true ∧
      mixed.snap.mask.getLsbD (4 * (1 : Fin 4).val) = true ∧
      mixed.snap.len[4].toNat ≠ Bw.nsub .mhz20 := by decide

/-- The last entry of the right antenna is a zero of either sign. -/
theorem witness_ZeroRightEntryGivesNaN :
    AoaReady (snapped (csi 1 0x1011 [(63, ⟨0, 0x8000000000000000⟩)])) ⟨36, 0, .ghz5, .mhz20⟩ ∧
      63 < Bw.nsub .mhz20 ∧
      Sparse.read? (snapped (csi 1 0x1011 [(63, ⟨0, 0x8000000000000000⟩)])).snap.grid 63 =
        some ⟨0, 0x8000000000000000⟩ ∧ fIsZero 0 = true ∧ fIsZero 0x8000000000000000 = true :=
  ⟨⟨rfl, by decide, rfl, rfl, rfl, rfl, rfl, rfl⟩, by decide, rfl, by decide, by decide⟩

theorem witness_Atan2KeepsItsConventions :
    fIsNaN 0x7FF0000000000001 = true ∧ fIsNaN 0x7FF0000000000000 = false ∧
      (fIsNaN 0 = false ∧ fNeg 0 = false) ∧
      (fIsNaN 0x8000000000000000 = false ∧ fNeg 0x8000000000000000 = true) ∧
      (fIsNaN 1 = false ∧ fIsZero 1 = false ∧ fIsZero 0x8000000000000000 = true) ∧
      fIsFinite 1 = true ∧ fIsFinite 0xFFEFFFFFFFFFFFFF = true := by decide

theorem witness_AsinKeepsItsConventions :
    fGt 0x3FF0000000000001 0x3FF0000000000000 = true ∧
      fGt 0xBFF0000000000000 0xBFF0000000000001 = true ∧
      fLe 0xBFF0000000000000 0xBFF0000000000000 = true ∧
      fLe 0x3FF0000000000000 0x3FF0000000000000 = true ∧ fIsZero 0x8000000000000000 = true := by
  decide

theorem witness_TofReady : TofReady p3 ⟨36, 0, .ghz5, .mhz20⟩ :=
  ⟨rfl, by decide, by decide⟩

/-- The snapshot of R200's example. -/
def toned : State := snapped (csi 1 0x0001 ((List.range 64).map fun j => (j, toneEntry j)))

theorem witness_TofAnswersThePeaks_example :
    TofReady toned ⟨36, 0, .ghz5, .mhz20⟩ ∧ toned.snap.mask = 0x0001 ∧
      ∀ m < 64, Sparse.read? toned.snap.grid m = some (toneEntry m) :=
  ⟨⟨rfl, by decide +kernel, by decide +kernel⟩, rfl, by decide +kernel⟩

/-- L2.5: the sequence `(-i)^m` has its peak at index 16, whatever the free values are. -/
theorem test_tof_tone : corePeak toned 64 0 = 16 := by
  have e : coreSequence toned 64 0 = tone := by
    refine List.map_congr_left fun m hm => ?_
    have h := witness_TofAnswersThePeaks_example.2.2 m (List.mem_range.1 hm)
    simp only [snapEntry, coreSlot, gridKey, Nat.mul_zero, Nat.zero_add, Fin.val_zero]
    rw [h]
    rfl
  rw [corePeak, e]
  exact peak_tone

/-- 44_estimator.md R199, R201: a unit sequence's squared norm underflows only below the model's
scales. -/
theorem test_idftScale_ends :
    fIsZero (mag2 ⟨fWithSign false (623 * 2 ^ 52), 0⟩) = false ∧
      fIsFinite (mag2 ⟨fWithSign false (1422 * 2 ^ 52), 0⟩) = true := by decide +kernel

theorem witness_PeakIsTheFirstMaximum :
    0 < 1 ∧ fIsNaN (mag2 ⟨fNaN, 0⟩) = true ∧ fIsNaN (mag2 one) = false := by
  decide +kernel

/-- An impulse at entry 0 of core 0. -/
def impulse : State :=
  snapped (csi 1 0x0001 ((List.range 64).map fun j => (j, if j = 0 then one else nul)))

theorem witness_ImpulseHasPeakAtIndexZero :
    TofReady impulse ⟨36, 0, .ghz5, .mhz20⟩ ∧ impulse.snap.mask.getLsbD (4 * (0 : Fin 4).val) = true ∧
      fIsFinite (snapEntry impulse (4 * (0 : Fin 4).val) 0).re = true ∧
      fIsFinite (snapEntry impulse (4 * (0 : Fin 4).val) 0).im = true ∧
      (∀ j, 0 < j → j < Bw.nsub .mhz20 →
        fIsZero (snapEntry impulse (4 * (0 : Fin 4).val) j).re = true ∧
          fIsZero (snapEntry impulse (4 * (0 : Fin 4).val) j).im = true) := by
  refine ⟨⟨rfl, by decide +kernel, by decide +kernel⟩, by decide +kernel, by decide +kernel,
    by decide +kernel, ?_⟩
  have : ∀ j < 64, 0 < j →
      fIsZero (snapEntry impulse 0 j).re = true ∧ fIsZero (snapEntry impulse 0 j).im = true := by
    decide +kernel
  exact fun j h1 h2 => this j h2 h1

/-- Finite operands at the ends of the range, a zero divisor and a negative radicand, the infinities
and a NaN: what each clause asks for. -/
theorem witness_ArithmeticRoundsToNearestEven :
    (fIsFinite 0x7FEFFFFFFFFFFFFF = true ∧ fIsFinite 1 = true ∧ fIsZero 1 = false ∧
      fNeg 0x7FEFFFFFFFFFFFFF = false) ∧
    (fIsFinite 0x8000000000000000 = true ∧ fIsZero 0x8000000000000000 = true ∧
      fIsZero 0x8000000000000001 = false ∧ fNeg 0x8000000000000001 = true) ∧
    (fIsInf fInf = true ∧ fIsInf 0xFFF0000000000000 = true ∧
      fNeg 0xFFF0000000000000 ≠ fNeg fInf ∧ fIsNaN fInf = false) ∧
    fIsNaN fNaN = true := by decide

/-- An exact zero sum of unlike signs. -/
theorem witness_ArithmeticRoundsToNearestEven_zero :
    fValue fOne + fValue (fOpp fOne) = 0 ∧ fIsFinite (fOpp fOne) = true := by
  refine ⟨?_, by decide⟩
  have h : fFix fOne + fFix (fOpp fOne) = 0 := by decide +kernel
  unfold fValue
  rw [← add_div, ← Int.cast_add, h, Int.cast_zero, zero_div]

/-- Both clauses of a rounding: below the overflow threshold and at it. -/
theorem witness_RoundedTo :
    |(1 : ℝ)| < 2 ^ 1024 - 2 ^ 970 ∧
      (2 : ℝ) ^ 1024 - 2 ^ 970 ≤ |(2 : ℝ) ^ 1024 - 2 ^ 970| ∧ (-1 : ℝ) < 0 ∧ (0 : ℝ) < 1 := by
  refine ⟨?_, le_abs_self _, by norm_num, by norm_num⟩
  have h : (2 : ℝ) ^ 1024 - 2 ^ 970 = 2 ^ 970 * (2 ^ 54 - 1) := by
    rw [mul_sub, ← pow_add, mul_one]
  rw [h, abs_one]
  have : (1 : ℝ) ≤ 2 ^ 970 := one_le_pow₀ (by norm_num)
  generalize (2 : ℝ) ^ 970 = q at *
  norm_num
  linarith only [this]

/-- Ties: 2^53 + 1 lies between two finite numbers, and the even one is taken; R13's operations do
as packing does. -/
theorem test_tie_to_even :
    fPack false (2 ^ 53 + 1) 0 = 0x4340000000000000 ∧
      fAdd 0x4340000000000000 fOne = 0x4340000000000000 ∧
      fDiv fOne 0x4008000000000000 = 0x3FD5555555555555 := by decide +kernel

theorem witness_FailedCommandsWriteNothing_error :
    ∃ t, exec .groupAdd State.reset = .next t ∧ t.status.err ≠ .ok := ⟨_, rfl, by decide⟩

theorem witness_FailedCommandsWriteNothing_absent :
    ∃ t, exec .groupTake State.reset = .next t ∧ t.status.absent = true := ⟨_, rfl, rfl⟩

/-- A state with a valid snapshot of one populated slot, and a script to serve. -/
def soundState : State :=
  { impulse with
    status := { impulse.status with done := true }, script := [.write 0x008 .w32 0x41, .wait] }

theorem witness_Inv : Inv soundState where
  storage := ⟨Sparse.wf_nil _, Sparse.wf_nil _, Sparse.wf_nil _, by decide +kernel, Sparse.wf_nil _,
    Sparse.wf_nil _⟩
  status := ⟨fun h => (by cases h), fun _ _ h => (by cases h), fun h => (by cases h),
    fun h => (by cases h)⟩
  frame := fun h => (by cases h)
  group := fun h => (by cases h)
  snapshot := fun _ =>
    { decodes := ⟨64, ⟨36, 0, .ghz5, .mhz20⟩, by decide, rfl⟩
      populated := by decide
      lengths := fun t ht => ⟨.mhz20, by revert t; decide +kernel⟩
      empties := by decide +kernel
      stored := by
        have h : ∀ t : Fin 16, ∀ j < 64, j < soundState.snap.len[t].toNat →
            (Sparse.read? soundState.snap.grid (gridKey t.val j)).isSome = true := by
          decide +kernel
        have this : ∀ t : Fin 16, soundState.snap.len[t].toNat ≤ 64 := by decide +kernel
        intro t j hj
        exact h t j (Nat.lt_of_lt_of_le hj (this t)) hj }

theorem witness_EveryStepKeepsTheInvariant : ∃ t, step soundState = .next t := ⟨_, rfl⟩

theorem witness_WellFormedScriptsNeverStop : scriptWellFormed soundState := by
  unfold scriptWellFormed
  decide

end Sys2Proof.Tests
end

section
/-! O22. Operand checks come first in every command (spec 30_encoding.md R86). -/

namespace Sys2Proof.Machine

/-! ### What R86 refuses, as the commands test it -/

@[simp] theorem operandRefused_chanspecDecode (s : State) :
    operandRefused .chanspecDecode s ↔ rsvSet s.arg[0] 16 = true :=
  (rsvSet_iff _ 16).symm

@[simp] theorem operandRefused_chanspecEncode (s : State) :
    operandRefused .chanspecEncode s ↔
      (rsvSet s.arg[0] 8 || rsvSet s.arg[1] 1 || rsvSet s.arg[2] 2) = true := by
  simp [operandRefused, rsvSet_iff, or_assoc]

@[simp] theorem operandRefused_defaultDelay (s : State) :
    operandRefused .defaultDelay s ↔ (rsvSet s.arg[0] 4 || rsvSet s.arg[1] 4) = true := by
  simp [operandRefused, rsvSet_iff]

@[simp] theorem operandRefused_subcarrierClass (s : State) :
    operandRefused .subcarrierClass s ↔ rsvSet s.arg[0] 2 = true :=
  (rsvSet_iff _ 2).symm

@[simp] theorem operandRefused_unpackCsi (s : State) :
    operandRefused .unpackCsi s ↔ (rsvSet s.arg[0] 2 || inLenTooLong s) = true := by
  simp [operandRefused, rsvSet_iff, inLenTooLong_iff]

@[simp] theorem operandRefused_decodeFrame (s : State) :
    operandRefused .decodeFrame s ↔ inLenTooLong s = true :=
  (inLenTooLong_iff s).symm

/-! ### A refused operand decides the outcome -/

/-- Whatever else the state holds, the check of R86 is the first one. -/
theorem exec_of_operandRefused {i : Instr} {s : State} (h : operandRefused i s) :
    exec i s = .next (finish (.raise .badOperand) s) := by
  cases i
  case chanspecDecode => exact congrArg complete (if_pos ((operandRefused_chanspecDecode s).1 h))
  case chanspecEncode => exact congrArg complete (if_pos ((operandRefused_chanspecEncode s).1 h))
  case defaultDelay => exact congrArg complete (if_pos ((operandRefused_defaultDelay s).1 h))
  case subcarrierClass => exact congrArg complete (if_pos ((operandRefused_subcarrierClass s).1 h))
  case unpackCsi => exact congrArg complete (if_pos ((operandRefused_unpackCsi s).1 h))
  case decodeFrame => exact congrArg complete (if_pos ((operandRefused_decodeFrame s).1 h))
  -- the other six commands have no operand that R86 can refuse
  all_goals exact h.elim

/-! ### No other path ends in BAD_OPERAND -/

/-- The completion's ERR is the ending's. -/
theorem err_of_complete {p : Ending × State} {t : State} (h : complete p = .next t) :
    t.status.err = p.1.err := by
  cases h; rfl

theorem csDecode_error_ne {v : Half} {e : ErrCode} (h : csDecode v = .error e) :
    e ≠ .badOperand := by
  rcases csDecode_error h with rfl | rfl <;> decide

/-- The ending after a flush (R173, R174) is no error, whether or not a group was emitted. -/
theorem flushEnding_err (b : Bool) : (if b then Ending.doneEmitted else .absent).err = .ok := by
  cases b <;> rfl

theorem chanspecDecodeBody_err_ne {s : State} (h : ¬ operandRefused .chanspecDecode s) :
    (chanspecDecodeBody s).1.err ≠ .badOperand := by
  rw [operandRefused_chanspecDecode] at h
  rw [chanspecDecodeBody, if_neg h]
  split
  next e he => exact csDecode_error_ne he
  next => simp

theorem chanspecEncodeBody_err_ne {s : State} (h : ¬ operandRefused .chanspecEncode s) :
    (chanspecEncodeBody s).1.err ≠ .badOperand := by
  rw [operandRefused_chanspecEncode] at h
  rw [chanspecEncodeBody, if_neg h]
  split <;> simp

theorem defaultDelayBody_err_ne {s : State} (h : ¬ operandRefused .defaultDelay s) :
    (defaultDelayBody s).1.err ≠ .badOperand := by
  rw [operandRefused_defaultDelay] at h
  rw [defaultDelayBody, if_neg h]
  simp

theorem subcarrierClassBody_err_ne {s : State} (h : ¬ operandRefused .subcarrierClass s) :
    (subcarrierClassBody s).1.err ≠ .badOperand := by
  rw [operandRefused_subcarrierClass] at h
  rw [subcarrierClassBody, if_neg h]
  simp

theorem unpackCsiBody_err_ne {s : State} (h : ¬ operandRefused .unpackCsi s) :
    (unpackCsiBody s).1.err ≠ .badOperand := by
  rw [operandRefused_unpackCsi] at h
  rw [unpackCsiBody, if_neg h]
  split <;> simp

theorem decodeFrameBody_err_ne {s : State} (h : ¬ operandRefused .decodeFrame s) :
    (decodeFrameBody s).1.err ≠ .badOperand := by
  rw [operandRefused_decodeFrame] at h
  rw [decodeFrameBody, if_neg h]
  split
  next e he => exact frameCheck_error_ne he
  next => simp

theorem groupAddBody_err_ne (s : State) : (groupAddBody s).1.err ≠ .badOperand := by
  unfold groupAddBody
  split
  · simp
  split
  · simp
  split
  · rw [flushEnding_err]; simp
  · simp

theorem groupTakeBody_err_ne (s : State) : (groupTakeBody s).1.err ≠ .badOperand := by
  unfold groupTakeBody
  rw [flushEnding_err]; simp

theorem aoaBody_err_ne (cs : Chanspec) (s : State) : (aoaBody cs s).1.err ≠ .badOperand := by
  unfold aoaBody
  split
  · simp
  · split <;> simp

theorem tofBody_err_ne (cs : Chanspec) (s : State) : (tofBody cs s).1.err ≠ .badOperand := by
  unfold tofBody
  split <;> simp

/-- The snapshot precondition brings no BAD_OPERAND of its own. -/
theorem withSnapshot_err_ne {s t : State} {body : Chanspec → State → Ending × State}
    (hb : ∀ cs, (body cs s).1.err ≠ .badOperand) (h : withSnapshot s body = .next t) :
    t.status.err ≠ .badOperand := by
  rcases withSnapshot_eq s body with ⟨-, h'⟩ | ⟨-, cs, -, h'⟩ | ⟨-, e, -, h'⟩ <;> rw [h'] at h
  · rw [err_of_complete h]; simp
  · rw [err_of_complete h]; exact hb cs
  · cases h

theorem exec_err_ne_badOperand {i : Instr} {s t : State} (hr : ¬ operandRefused i s)
    (h : exec i s = .next t) : t.status.err ≠ .badOperand := by
  cases i
  case nop => rw [err_of_complete h]; simp
  case chanspecDecode => rw [err_of_complete h]; exact chanspecDecodeBody_err_ne hr
  case chanspecEncode => rw [err_of_complete h]; exact chanspecEncodeBody_err_ne hr
  case defaultDelay => rw [err_of_complete h]; exact defaultDelayBody_err_ne hr
  case subcarrierClass => rw [err_of_complete h]; exact subcarrierClassBody_err_ne hr
  case unpackComplex => rw [err_of_complete h]; simp [unpackComplexBody]
  case unpackCsi => rw [err_of_complete h]; exact unpackCsiBody_err_ne hr
  case decodeFrame => rw [err_of_complete h]; exact decodeFrameBody_err_ne hr
  case groupAdd => rw [err_of_complete h]; exact groupAddBody_err_ne s
  case groupTake => rw [err_of_complete h]; exact groupTakeBody_err_ne s
  case aoa => exact withSnapshot_err_ne (fun cs => aoaBody_err_ne cs s) h
  case tof => exact withSnapshot_err_ne (fun cs => tofBody_err_ne cs s) h

/-- Settles O22: a refused operand is the first check of its command, and no other path of a command
raises BAD_OPERAND. -/
theorem badOperandComesFirst : Obligations.BadOperandComesFirst := by
  intro i s
  constructor
  · intro hr
    exact ⟨_, exec_of_operandRefused hr, onlyCompletes_raise .badOperand s⟩
  · intro t h herr
    by_contra hr
    exact exec_err_ne_badOperand hr h herr

end Sys2Proof.Machine
end

section
/-! O25. The encoder and the decoder of chanspecs agree (spec 40_chanspec.md R106, R108 to R111). -/

namespace Sys2Proof.Machine

/-- The bandwidth bits lie in bits 13:11 (R101). -/
theorem bwBits_field (bw : Bw) : bwBits bw = 2 ^ 11 * (bwBits bw / 2 ^ 11) ∧ bwBits bw < 2 ^ 14 := by
  cases bw <;> decide

/-- The band bits lie in bits 15:14 (R102). -/
theorem bandBits_field (band : Band) :
    bandBits band = 2 ^ 14 * (bandBits band / 2 ^ 14) ∧ bandBits band < 2 ^ 16 := by
  cases band <;> decide

/-- The parts of R110 lie in separate bits, so composing them is adding them. -/
theorem csCompose_toNat {c sb : Nat} (hc : c < 2 ^ 8) (hsb : sb < 2 ^ 3) (band : Band) (bw : Bw) :
    (csCompose c sb band bw).toNat = bandBits band + (bwBits bw + (2 ^ 8 * sb + c)) := by
  obtain ⟨hbw, hbwlt⟩ := bwBits_field bw
  obtain ⟨hband, hbandlt⟩ := bandBits_field band
  have hlow : sb <<< 8 ||| c = 2 ^ 8 * sb + c := by
    rw [Nat.shiftLeft_eq, Nat.mul_comm, Nat.two_pow_add_eq_or_of_lt hc]
  have hmid : bwBits bw ||| (2 ^ 8 * sb + c) = bwBits bw + (2 ^ 8 * sb + c) := by
    rw [hbw]; exact (Nat.two_pow_add_eq_or_of_lt (by omega) _).symm
  have hhigh : bandBits band ||| (bwBits bw + (2 ^ 8 * sb + c)) =
      bandBits band + (bwBits bw + (2 ^ 8 * sb + c)) := by
    rw [hband]; exact (Nat.two_pow_add_eq_or_of_lt (by omega) _).symm
  rw [csCompose, Nat.or_assoc, Nat.or_assoc, hlow, hmid, hhigh, BitVec.toNat_ofNat,
    Nat.mod_eq_of_lt (by omega)]

/-- A bandwidth and band that are legal together come back from their composition, with the center
and the sideband. -/
theorem csDecode_csCompose {c sb : Nat} {band : Band} {bw : Bw} (hc : c < 2 ^ 8)
    (hsb : sb < 2 ^ 3) (hl : bandAllows band bw = true) :
    csDecode (csCompose c sb band bw) =
      .ok { center := BitVec.ofNat 8 c, sideband := BitVec.ofNat 3 sb, band := band, bw := bw } := by
  obtain ⟨hbw, hbwlt⟩ := bwBits_field bw
  obtain ⟨hband, hbandlt⟩ := bandBits_field band
  have field (start len : Nat) : ((csCompose c sb band bw).extractLsb' start len).toNat =
      (bandBits band + (bwBits bw + (2 ^ 8 * sb + c))) / 2 ^ start % 2 ^ len := by
    rw [BitVec.extractLsb'_toNat, csCompose_toNat hc hsb, Nat.shiftRight_eq_div_pow]
  refine (csDecode_ok_iff _ _).2 ⟨?_, ?_, hl, ?_, ?_⟩
  · have : ((csCompose c sb band bw).extractLsb' 11 3).toNat = bwBits bw / 2 ^ 11 := by
      rw [field]; omega
    rw [bwOfField, this]
    cases bw <;> rfl
  · have : ((csCompose c sb band bw).extractLsb' 14 2).toNat = bandBits band / 2 ^ 14 := by
      rw [field]; omega
    rw [bandOfField, this]
    cases band <;> rfl
  · apply BitVec.eq_of_toNat_eq
    rw [field, BitVec.toNat_ofNat]; omega
  · apply BitVec.eq_of_toNat_eq
    rw [field, BitVec.toNat_ofNat]; omega

/-- What the search of R108 answers is composed from one of the candidates, with the sideband that
reaches the channel. -/
theorem csSearch_eq_some {ch : Nat} {band : Band} {bw : Bw} {v : Half} {table : List Nat}
    (h : csSearch ch band bw table = some v) :
    ∃ c ∈ table, ∃ sb < bw.mhz / 20, v = csCompose c sb band bw ∧
      (c : Int) - ((bw.mhz - 20) / 10 : Nat) + 4 * (sb : Int) = ch := by
  induction table with
  | nil => cases h
  | cons c cs ih =>
    simp only [csSearch] at h
    split at h
    next hfits =>
      cases h
      exact ⟨c, List.mem_cons_self, _, by omega, rfl, by omega⟩
    next =>
      obtain ⟨c', hmem, hrest⟩ := ih h
      exact ⟨c', List.mem_cons_of_mem c hmem, hrest⟩

theorem chanTable_lt (bw : Bw) : ∀ c ∈ chanTable bw, c < 2 ^ 8 := by
  cases bw <;> decide

/-- What the encoder of R108 accepts is composed from fields that fit, a legal band, and the
sideband that reaches the channel. At 20 MHz the channel is its own center. -/
theorem csEncode_eq_some {ch : Nat} {band : Band} {bw : Bw} {v : Half} (hch : ch < 256)
    (h : csEncode ch band bw = some v) :
    bandAllows band bw = true ∧ ∃ c < 2 ^ 8, ∃ sb < 2 ^ 3, v = csCompose c sb band bw ∧
      (c : Int) - ((bw.mhz - 20) / 10 : Nat) + 4 * (sb : Int) = ch := by
  unfold csEncode at h
  split at h
  next hl =>
    refine ⟨hl, ?_⟩
    split at h
    next hbw =>
      cases h
      subst hbw
      exact ⟨ch, hch, 0, by decide, rfl, by simp [Bw.mhz]⟩
    next =>
      obtain ⟨c, hmem, sb, hsb, hv, hlo⟩ := csSearch_eq_some h
      have : bw.mhz / 20 ≤ 2 ^ 3 := by cases bw <;> decide
      exact ⟨c, chanTable_lt bw c hmem, sb, by omega, hv, hlo⟩
  next => cases h

/-- Settles O25: an accepted value is composed of fields that fit, and those decode back. -/
theorem encodedChanspecDecodesBack : Obligations.EncodedChanspecDecodesBack := by
  intro ch band bw v hch h
  obtain ⟨hl, c, hc, sb, hsb, rfl, hlo⟩ := csEncode_eq_some hch h
  refine ⟨_, csDecode_csCompose hc hsb hl, rfl, rfl, ?_⟩
  simpa only [chanLo, BitVec.toNat_ofNat, Nat.mod_eq_of_lt hc, Nat.mod_eq_of_lt hsb] using hlo

end Sys2Proof.Machine
end

section
/-! O31 and O32. The tone plan (spec 40_chanspec.md R113 to R115). -/

namespace Sys2Proof.Machine

/-- The data range of R114 as a set of distances from the center. -/
def dataRange : Bw → Finset Nat
  | .mhz20 => .Icc 1 28
  | .mhz40 => .Icc 2 58
  | .mhz80 => .Icc 2 122
  | .mhz160 => .Icc 6 126 ∪ .Icc 130 250

theorem mem_dataRange (bw : Bw) (a : Nat) : a ∈ dataRange bw ↔ inDataRange bw a = true := by
  cases bw <;> simp [dataRange, inDataRange]

theorem pilots_subset_dataRange (bw : Bw) : (pilots bw).toFinset ⊆ dataRange bw := by
  cases bw <;> simp [pilots, dataRange, Finset.insert_subset_iff]

/-! ### The three classes -/

theorem scClass_eq_one_iff (bw : Bw) (k : Int) : scClass bw k = 1 ↔ k.natAbs ∈ pilots bw := by
  simp only [scClass, List.contains_iff_mem]
  split
  next h => simp [h]
  next h => split <;> simp [h]

theorem scClass_eq_two_iff (bw : Bw) (k : Int) :
    scClass bw k = 2 ↔ k.natAbs ∈ dataRange bw \ (pilots bw).toFinset := by
  simp only [scClass, List.contains_iff_mem, Finset.mem_sdiff, mem_dataRange, List.mem_toFinset]
  split
  next h => simp [h]
  next h => split <;> simp [*]

theorem scClass_eq_zero_of_notMem {bw : Bw} {k : Int} (h : k.natAbs ∉ dataRange bw) :
    scClass bw k = 0 := by
  have hp : k.natAbs ∉ pilots bw := fun hm =>
    h (pilots_subset_dataRange bw (List.mem_toFinset.2 hm))
  rw [mem_dataRange] at h
  simp [scClass, hp, h]

theorem scClass_le_two (bw : Bw) (k : Int) : scClass bw k ≤ 2 := by
  unfold scClass
  split
  · decide
  · split <;> decide

/-! ### The command -/

/-- SUBCARRIER_CLASS on a bandwidth operand of R82 answers the class of R114 in RES0. -/
theorem exec_subcarrierClass {bw : Bw} {s : State} (h : s.arg[0].toNat = bw.code) :
    exec .subcarrierClass s =
      .next (finish .done (setResults [asU32 (scClass bw s.arg[1].toInt)] s)) := by
  have hrsv : rsvSet s.arg[0] 2 = false := by
    rw [rsvSet_eq_false_iff, h]; cases bw <;> decide
  change complete (subcarrierClassBody s) = _
  rw [subcarrierClassBody, hrsv, bwOperand_eq h]
  rfl

/-- The rows of R114, as the statement of O31 writes them, are the model's. -/
theorem tonePlan_row {code : Nat} {pilotSet : List Nat} {ranges : List (Nat × Nat)}
    (h : (code, pilotSet, ranges) ∈
      [(0, [7, 21], [(1, 28)]), (1, [11, 25, 53], [(2, 58)]), (2, [11, 39, 75, 103], [(2, 122)]),
        (3, [25, 53, 89, 117, 139, 167, 203, 231], [(6, 126), (130, 250)])]) :
    ∃ bw : Bw, code = bw.code ∧ pilotSet = pilots bw ∧
      ∀ a, a ∈ dataRange bw ↔ ∃ r ∈ ranges, r.1 ≤ a ∧ a ≤ r.2 := by
  simp only [List.mem_cons, List.not_mem_nil, or_false, Prod.mk.injEq] at h
  rcases h with ⟨rfl, rfl, rfl⟩ | ⟨rfl, rfl, rfl⟩ | ⟨rfl, rfl, rfl⟩ | ⟨rfl, rfl, rfl⟩
  · exact ⟨.mhz20, rfl, rfl, by simp [dataRange]⟩
  · exact ⟨.mhz40, rfl, rfl, by simp [dataRange]⟩
  · exact ⟨.mhz80, rfl, rfl, by simp [dataRange]⟩
  · exact ⟨.mhz160, rfl, rfl, by simp [dataRange]⟩

/-- Settles O31: the command answers the class, and the class follows the row of R114. -/
theorem subcarrierClassFollowsTheTonePlan : Obligations.SubcarrierClassFollowsTheTonePlan := by
  intro s code pilotSet ranges hrow hcode
  obtain ⟨bw, rfl, rfl, hrange⟩ := tonePlan_row hrow
  refine ⟨_, exec_subcarrierClass hcode, writesResults_finish [_] s, ?_⟩
  have hres : (finish .done (setResults [asU32 (scClass bw s.arg[1].toInt)] s)).res[0].toNat =
      scClass bw s.arg[1].toInt := by
    have := scClass_le_two bw s.arg[1].toInt
    rw [finish_res, setResults_getElem _ _ 0 (by decide)]
    exact toNat_asU32 _ (by omega)
  rw [hres]
  refine ⟨fun hp => ?_, fun hp hr => ?_, fun hr => ?_⟩
  · exact (scClass_eq_one_iff bw _).2 hp
  · exact (scClass_eq_two_iff bw _).2
      (Finset.mem_sdiff.2 ⟨(hrange _).2 hr, mt List.mem_toFinset.1 hp⟩)
  · refine scClass_eq_zero_of_notMem fun hm => ?_
    obtain ⟨r, hmem, hlo, hhi⟩ := (hrange _).1 hm
    rcases hr r hmem with h | h <;> omega

/-! ### The counts -/

/-- Each distance from the center, other than 0, is taken by two indices. -/
theorem length_filter_natAbs_mem {P : Int → Prop} [DecidablePred P] {S : Finset Nat} {r : Nat}
    (hP : ∀ k, P k ↔ k.natAbs ∈ S) (hS : ∀ a ∈ S, 0 < a ∧ a + 1 < r) :
    ((List.range (2 * r - 1)).filter fun k : Nat => P ((k : Int) - r)).length = 2 * S.card := by
  have hsides : (Finset.range (2 * r - 1)).filter (fun k : Nat => P ((k : Int) - r)) =
      S.image (r - ·) ∪ S.image (r + ·) := by
    ext k
    simp only [Finset.mem_filter, Finset.mem_range, Finset.mem_union, Finset.mem_image, hP]
    constructor
    · rintro ⟨-, hk⟩
      rcases Nat.lt_or_ge k r with h | h
      · exact .inl ⟨_, hk, by omega⟩
      · exact .inr ⟨_, hk, by omega⟩
    · rintro (⟨a, ha, rfl⟩ | ⟨a, ha, rfl⟩) <;> obtain ⟨hpos, hlt⟩ := hS a ha
      · have : (((r - a : Nat) : Int) - r).natAbs = a := by omega
        exact ⟨by omega, this.symm ▸ ha⟩
      · have : (((r + a : Nat) : Int) - r).natAbs = a := by omega
        exact ⟨by omega, this.symm ▸ ha⟩
  have hdisj : Disjoint (S.image (r - ·)) (S.image (r + ·)) := by
    simp only [Finset.disjoint_left, Finset.mem_image]
    rintro k ⟨a, ha, rfl⟩ ⟨b, hb, hab⟩
    have := hS a ha
    omega
  have hleft : Set.InjOn (r - ·) (S : Set Nat) := by
    intro a ha b hb hab
    have := hS a ha
    have := hS b hb
    simp only at hab
    omega
  calc ((List.range (2 * r - 1)).filter fun k : Nat => P ((k : Int) - r)).length
      = (S.image (r - ·) ∪ S.image (r + ·)).card := by rw [← hsides]; rfl
    _ = S.card + S.card := by
      rw [Finset.card_union_of_disjoint hdisj, Finset.card_image_of_injOn hleft,
        Finset.card_image_of_injective S (add_right_injective r)]
    _ = 2 * S.card := (Nat.two_mul _).symm

theorem card_pilots (bw : Bw) : (pilots bw).toFinset.card = (pilots bw).length :=
  List.toFinset_card_of_nodup (by cases bw <;> decide)

/-- R115 from R114, over every span that holds the data range. -/
theorem subcarrier_counts {bw : Bw} {r : Nat} (hr : ∀ a ∈ dataRange bw, 0 < a ∧ a + 1 < r) :
    ((List.range (2 * r - 1)).filter fun k : Nat => scClass bw ((k : Int) - r) = 2).length =
        2 * ((dataRange bw).card - (pilots bw).length) ∧
      ((List.range (2 * r - 1)).filter fun k : Nat => scClass bw ((k : Int) - r) = 1).length =
        2 * (pilots bw).length := by
  have hsub := pilots_subset_dataRange bw
  rw [← card_pilots, ← Finset.card_sdiff_of_subset hsub]
  constructor
  · exact length_filter_natAbs_mem (scClass_eq_two_iff bw)
      fun a ha => hr a (Finset.mem_sdiff.1 ha).1
  · exact length_filter_natAbs_mem (fun k => (scClass_eq_one_iff bw k).trans List.mem_toFinset.symm)
      fun a ha => hr a (hsub ha)

theorem card_dataRange (bw : Bw) :
    (dataRange bw).card =
      match bw with
      | .mhz20 => 28
      | .mhz40 => 57
      | .mhz80 => 121
      | .mhz160 => 242 := by
  cases bw
  case mhz160 =>
    have hdisj : Disjoint (Finset.Icc 6 126) (Finset.Icc 130 250) := by
      simp only [Finset.disjoint_left, Finset.mem_Icc]; omega
    rw [dataRange, Finset.card_union_of_disjoint hdisj, Nat.card_Icc, Nat.card_Icc]
  all_goals rw [dataRange, Nat.card_Icc]

/-- The statement of O32 filters the indices after their cast to integers. -/
theorem length_filter_cast (q : Int → Bool) (l : List Nat) :
    (List.filter q do let k ← l; pure (k : Int)).length =
      (l.filter fun k : Nat => q k).length := by
  have hmap : (do let k ← l; pure (k : Int)) = l.map Nat.cast := List.flatMap_pure_eq_map _ l
  rw [hmap, List.filter_map, List.length_map]
  rfl

/-- Settles O32: two indices for each distance in the data range, less those for the pilots in it. -/
theorem subcarrierCountsAsDocumented : Obligations.SubcarrierCountsAsDocumented := by
  intro row hrow
  simp only [length_filter_cast]
  have hspan : ∀ a ∈ dataRange row.1, 0 < a ∧ a + 1 < row.2.1 := by
    intro a ha
    fin_cases hrow
    all_goals
      simp only [dataRange, Finset.mem_union, Finset.mem_Icc] at ha ⊢
      omega
  obtain ⟨hdata, hpilots⟩ := subcarrier_counts hspan
  rw [card_dataRange] at hdata
  rw [hdata, hpilots]
  fin_cases hrow <;> exact ⟨rfl, rfl⟩

end Sys2Proof.Machine
end

section
/-! O33. UNPACK_COMPLEX gives the exact values of every sample (spec 41_unpack.md R131 to R135). -/

namespace Sys2Proof.Machine

/-! ### A short integer is packed without rounding -/

/-- A significand of at most 53 bits is only shifted left: its quantum is not above its exponent. -/
theorem fFixAbs_fPack_exact {neg : Bool} {m : Nat} {e : Int} (hm : m ≠ 0) (hlog : Nat.log2 m ≤ 52)
    (he : -1074 ≤ e) (hfin : fIsFinite (fPack neg m e) = true) :
    fFixAbs (fPack neg m e) = m * 2 ^ (e + 1074).toNat := by
  have hq : packQuantum m e ≤ e ∧ -1074 ≤ packQuantum m e := by unfold packQuantum; omega
  rw [fFixAbs_fPack hm hfin, packMant, if_pos hq.1, Nat.shiftLeft_eq, Nat.mul_assoc, ← Nat.pow_add]
  congr 2
  omega

/-- An integer below `2 ^ 53` in magnitude, scaled inside binary64's range, is packed to its exact
value. -/
theorem fOfScaled_exact {z e : Int} (hz : z.natAbs < 2 ^ 53) (he : -1074 ≤ e) (he' : e ≤ 970) :
    fIsFinite (fOfScaled z e) = true ∧ fValue (fOfScaled z e) = (z : ℚ) * (2 : ℚ) ^ e := by
  by_cases h0 : z = 0
  · have hmag : fMag (fOfScaled z e) = 0 := by subst h0; exact fPack_zero _ e
    refine ⟨?_, ?_⟩
    · rw [fIsFinite, hmag]; rfl
    · rw [fValue_of_mag_zero hmag, h0, Int.cast_zero, zero_mul]
  · have hm : z.natAbs ≠ 0 := Int.natAbs_ne_zero.2 h0
    have hlog : Nat.log2 z.natAbs < 53 := (Nat.log2_lt hm).2 hz
    have hfin : fIsFinite (fOfScaled z e) = true := by
      rw [fIsFinite, fOfScaled, fMag_fPack, decide_eq_true_eq]
      have := fPackMag_le_of_log hm (e := e) (j := 2046) (by decide) (by omega)
      omega
    have hfix : fFix (fOfScaled z e) = z * 2 ^ (e + 1074).toNat := by
      have habs : fFixAbs (fOfScaled z e) = z.natAbs * 2 ^ (e + 1074).toNat :=
        fFixAbs_fPack_exact hm (by omega) he hfin
      rw [fFix_fOfScaled, habs]
      push_cast
      split
      next hneg => rw [abs_of_neg hneg, neg_mul, neg_neg]
      next hpos => rw [abs_of_nonneg (not_lt.1 hpos)]
    refine ⟨hfin, ?_⟩
    have hexp : (2 : ℚ) ^ (e + 1074).toNat = (2 : ℚ) ^ e * 2 ^ 1074 := by
      rw [← zpow_natCast, Int.toNat_of_nonneg (by omega), zpow_add₀ two_ne_zero]
      rfl
    rw [fValue, hfix]
    push_cast
    rw [hexp, ← mul_assoc, mul_div_cancel_right₀ _ (pow_ne_zero _ two_ne_zero)]

theorem fOfScaled_zero (e : Int) : fOfScaled 0 e = 0 := rfl

/-! ### The fields of a sample -/

/-- The exponent of R132 by the value of bits 5:0. -/
theorem packedExp_eq (raw : Word) :
    packedExp raw = if raw.toNat % 64 < 32 then ((raw.toNat % 64 : Nat) : Int)
      else ((raw.toNat % 64 : Nat) : Int) - 64 := by
  rw [packedExp, BitVec.toInt_eq_toNat_cond, BitVec.extractLsb'_toNat]
  simp only [Nat.shiftRight_zero]
  split <;> split <;> omega

/-- A mantissa of R133 by the values of its sign bit and its 12 magnitude bits. -/
theorem signedMant_field (raw : Word) (sign lo : Nat) :
    signedMant (raw.getLsbD sign) (raw.extractLsb' lo 12) =
      if raw.toNat / 2 ^ sign % 2 = 1 then -((raw.toNat / 2 ^ lo % 2 ^ 12 : Nat) : Int)
      else ((raw.toNat / 2 ^ lo % 2 ^ 12 : Nat) : Int) := by
  rw [signedMant, BitVec.getLsbD, Nat.testBit_eq_decide_div_mod_eq, BitVec.extractLsb'_toNat,
    Nat.shiftRight_eq_div_pow]
  simp only [decide_eq_true_eq]

theorem packedRe_eq (raw : Word) :
    packedRe raw = if raw.toNat / 2 ^ 31 = 1 then -((raw.toNat / 2 ^ 19 % 2 ^ 12 : Nat) : Int)
      else ((raw.toNat / 2 ^ 19 % 2 ^ 12 : Nat) : Int) := by
  have hbit : raw.toNat / 2 ^ 31 % 2 = raw.toNat / 2 ^ 31 := by
    have := raw.isLt
    omega
  rw [packedRe, signedMant_field, hbit]

theorem packedIm_eq (raw : Word) :
    packedIm raw = if raw.toNat / 2 ^ 18 % 2 = 1 then -((raw.toNat / 2 ^ 6 % 2 ^ 12 : Nat) : Int)
      else ((raw.toNat / 2 ^ 6 % 2 ^ 12 : Nat) : Int) :=
  signedMant_field raw 18 6

theorem packedExp_bounds (raw : Word) : -32 ≤ packedExp raw ∧ packedExp raw < 32 := by
  rw [packedExp_eq]
  split <;> omega

theorem natAbs_signedMant_lt (neg : Bool) (mag : BitVec 12) :
    (signedMant neg mag).natAbs < 2 ^ 12 := by
  have := mag.isLt
  unfold signedMant
  split <;> omega

theorem natAbs_packedRe_lt (raw : Word) : (packedRe raw).natAbs < 2 ^ 12 :=
  natAbs_signedMant_lt _ _

theorem natAbs_packedIm_lt (raw : Word) : (packedIm raw).natAbs < 2 ^ 12 :=
  natAbs_signedMant_lt _ _

/-! ### The numbers of a sample (R134) -/

/-- A mantissa of 12 bits with any exponent of a sample is packed exactly. -/
theorem fOfScaled_packedExp {z : Int} (hz : z.natAbs < 2 ^ 12) (raw : Word) :
    fIsFinite (fOfScaled z (packedExp raw)) = true ∧
      fValue (fOfScaled z (packedExp raw)) = (z : ℚ) * (2 : ℚ) ^ packedExp raw := by
  have := packedExp_bounds raw
  exact fOfScaled_exact (by omega) (by omega) (by omega)

theorem unpackComplex_re_eq_zero {raw : Word} (h : packedRe raw = 0) :
    (unpackComplex raw).re = 0 := by
  rw [unpackComplex, h, fOfScaled_zero]

theorem unpackComplex_im_eq_zero {raw : Word} (h : packedIm raw = 0) :
    (unpackComplex raw).im = 0 := by
  rw [unpackComplex, h, fOfScaled_zero]

/-! ### The command -/

/-- The two words of a binary64 number, high word first, are the number (20_memory.md R68). -/
theorem append_f64_words (v : F64) : v.extractLsb' 32 32 ++ v.extractLsb' 0 32 = v := by
  rw [BitVec.extractLsb'_append_extractLsb'_eq_extractLsb' (by rfl)]
  exact BitVec.extractLsb'_eq_self

/-- UNPACK_COMPLEX writes the results of R135 for every sample. -/
theorem exec_unpackComplex (s : State) :
    exec .unpackComplex s = .next (finish .done (setResults (unpackResults s.arg[0]) s)) := rfl

/-- RES0 to RES6 after UNPACK_COMPLEX (R135). -/
theorem res_unpackComplex (s : State) :
    let t := finish .done (setResults (unpackResults s.arg[0]) s)
    let z := unpackComplex s.arg[0]
    t.res[0] = z.re.extractLsb' 0 32 ∧ t.res[1] = z.re.extractLsb' 32 32 ∧
      t.res[2] = z.im.extractLsb' 0 32 ∧ t.res[3] = z.im.extractLsb' 32 32 ∧
      t.res[4] = asI32 (packedExp s.arg[0]) ∧ t.res[5] = asI32 (packedRe s.arg[0]) ∧
      t.res[6] = asI32 (packedIm s.arg[0]) := by
  simp only [finish_res]
  refine ⟨?_, ?_, ?_, ?_, ?_, ?_, ?_⟩
  all_goals
    rw [setResults_getElem _ _ _ (by decide)]
    rfl

/-- Settles O33: mantissas of 12 bits and exponents of 6 bits lie inside the range that packs
exactly. -/
theorem unpackComplexIsExact : Obligations.UnpackComplexIsExact := by
  rintro s _ _ _ _ rfl rfl rfl rfl
  rw [← packedExp_eq, ← packedRe_eq, ← packedIm_eq]
  have hexp := packedExp_bounds s.arg[0]
  have hre := natAbs_packedRe_lt s.arg[0]
  have him := natAbs_packedIm_lt s.arg[0]
  obtain ⟨hreFin, hreVal⟩ := fOfScaled_packedExp hre s.arg[0]
  obtain ⟨himFin, himVal⟩ := fOfScaled_packedExp him s.arg[0]
  obtain ⟨h0, h1, h2, h3, h4, h5, h6⟩ := res_unpackComplex s
  refine ⟨_, exec_unpackComplex s, ?_⟩
  rw [h0, h1, h2, h3, h4, h5, h6, append_f64_words, append_f64_words]
  refine ⟨hreFin, hreVal, himFin, himVal, fun h => ?_, fun h => ?_,
    toInt_asI32 _ (by omega) (by omega), toInt_asI32 _ (by omega) (by omega),
    toInt_asI32 _ (by omega) (by omega), writesResults_finish (unpackResults s.arg[0]) s⟩
  · rw [unpackComplex_re_eq_zero h]; decide
  · rw [unpackComplex_im_eq_zero h]; decide

end Sys2Proof.Machine
end

section
/-! The checks of DECODE_FRAME and what its two outcomes leave (spec 42_frame.md R151 to R161), for
the proofs of O36 to O38. -/

namespace Sys2Proof.Machine

/-! ### The bytes that the checks read -/

theorem magicStringOk_iff (s : State) :
    magicStringOk s = true ↔ ∀ i : Fin 6, inByte s (6 + i.val) = Config.magicString i :=
  decide_eq_true_iff

theorem magicBytesOk_iff (s : State) :
    magicBytesOk s = true ↔ ∀ i : Fin 2, inByte s (42 + i.val) = Config.magicBytes i :=
  decide_eq_true_iff

theorem frameWord16_lt (s : State) (a : Nat) : frameWord16 s a < 2 ^ 16 := by
  have := (inByte s a).isLt
  have := (inByte s (a + 1)).isLt
  unfold frameWord16
  omega

theorem toNat_ofNat_frameWord16 (s : State) (a : Nat) :
    (BitVec.ofNat 16 (frameWord16 s a)).toNat = frameWord16 s a := by
  rw [BitVec.toNat_ofNat, Nat.mod_eq_of_lt (frameWord16_lt s a)]

theorem memRead_two_eq_frameWord16 (s : State) (a : Nat) : memRead s a 2 = frameWord16 s a :=
  memRead_two s a

/-- A 16-bit register written from the frame holds the value of its two bytes. -/
theorem toNat_ofNat_memRead_two (s : State) (a : Nat) :
    (BitVec.ofNat 16 (memRead s a 2)).toNat = frameWord16 s a := by
  rw [memRead_two_eq_frameWord16, toNat_ofNat_frameWord16]

theorem memRead_four_eq_frameWord16 (s : State) (a : Nat) :
    memRead s a 4 = frameWord16 s a + 65536 * frameWord16 s (a + 2) := by
  rw [memRead_four, frameWord16, frameWord16, Nat.add_assoc a 2 1]
  omega

theorem frameChanspec_eq (s : State) :
    frameChanspec s = BitVec.ofNat 16 (frameWord16 s 56) := by
  rw [frameChanspec, memRead_two_eq_frameWord16]

theorem frameChip_toNat (s : State) : (frameChip s).toNat = frameWord16 s 58 :=
  toNat_ofNat_memRead_two s 58

theorem frameChip_eq_chipId_iff (s : State) :
    frameChip s = Config.chipId ↔ frameWord16 s 58 = 106 := by
  rw [← BitVec.toNat_inj, frameChip_toNat]
  rfl

/-! ### What the checks answer, in the order of R161 -/

theorem frameCheck_of_short {s : State} (h : s.inLen.toNat < 60) :
    frameCheck s = .error .notEnoughBytes :=
  if_pos h

theorem not_shorter_than_header {s : State} (h : 60 ≤ s.inLen.toNat) :
    ¬ inLength s < Config.hdrLen :=
  Nat.not_lt.2 h

theorem frameCheck_of_wrong_magicString {s : State} (hlen : 60 ≤ s.inLen.toNat)
    (h : ∃ i : Fin 6, inByte s (6 + i.val) ≠ Config.magicString i) :
    frameCheck s = .error .notANexmonPacket := by
  have hmagic : magicStringOk s = false := by
    rw [← Bool.not_eq_true, magicStringOk_iff]
    exact not_forall.2 h
  rw [frameCheck, if_neg (not_shorter_than_header hlen), hmagic]
  rfl

theorem frameCheck_of_wrong_magicBytes {s : State} (hlen : 60 ≤ s.inLen.toNat)
    (hstring : ∀ i : Fin 6, inByte s (6 + i.val) = Config.magicString i)
    (h : ∃ i : Fin 2, inByte s (42 + i.val) ≠ Config.magicBytes i) :
    frameCheck s = .error .missingMagicBytes := by
  have hmagic : magicBytesOk s = false := by
    rw [← Bool.not_eq_true, magicBytesOk_iff]
    exact not_forall.2 h
  rw [frameCheck, if_neg (not_shorter_than_header hlen), (magicStringOk_iff s).2 hstring, hmagic]
  rfl

theorem frameCheck_of_csDecode_error {s : State} {e : ErrCode} (h : headerAccepted s)
    (he : csDecode (frameChanspec s) = .error e) : frameCheck s = .error e := by
  obtain ⟨hlen, hstring, hbytes⟩ := h
  rw [frameCheck, if_neg (not_shorter_than_header hlen), (magicStringOk_iff s).2 hstring,
    (magicBytesOk_iff s).2 hbytes, he]
  rfl

/-- The last two checks, of a frame with an accepted header and a legal chanspec. -/
theorem frameCheck_of_csDecode_ok {s : State} {cs : Chanspec} (h : headerAccepted s)
    (hcs : csDecode (frameChanspec s) = .ok cs) :
    frameCheck s =
      if frameChip s ≠ Config.chipId then .error .unknownChip
      else if s.inLen.toNat - 60 < 4 * cs.bw.nsub then .error .notEnoughBytes
      else .ok cs.bw := by
  obtain ⟨hlen, hstring, hbytes⟩ := h
  rw [frameCheck, if_neg (not_shorter_than_header hlen), (magicStringOk_iff s).2 hstring,
    (magicBytesOk_iff s).2 hbytes, hcs]
  rfl

/-! ### The completion by the answer of the checks -/

theorem not_inLenTooLong {s : State} (h : s.inLen.toNat ≤ 4096) : ¬ inLenTooLong s = true :=
  mt (inLenTooLong_iff s).1 (Nat.not_lt.2 h)

theorem exec_decodeFrame_of_error {s : State} {e : ErrCode} (hlen : s.inLen.toNat ≤ 4096)
    (h : frameCheck s = .error e) :
    exec .decodeFrame s = .next (finish (.raise e) (setFrameValid false s)) := by
  change complete (decodeFrameBody s) = _
  rw [decodeFrameBody, if_neg (not_inLenTooLong hlen), h]
  rfl

theorem exec_decodeFrame_of_ok {s : State} {bw : Bw} (hlen : s.inLen.toNat ≤ 4096)
    (h : frameCheck s = .ok bw) :
    exec .decodeFrame s = .next (finish .done (frameWrites bw s)) := by
  change complete (decodeFrameBody s) = _
  rw [decodeFrameBody, if_neg (not_inLenTooLong hlen), h]
  rfl

/-- A failed check clears FRAME_VALID and leaves the rest alone (R160). -/
theorem frameRefused_finish (e : ErrCode) (s : State) :
    FrameRefused e s (finish (.raise e) (setFrameValid false s)) where
  status := ⟨rfl, rfl, rfl, rfl, rfl, rfl⟩
  cleared := rfl
  inputs := ⟨rfl, rfl, rfl, rfl, rfl, rfl⟩
  results := fun _ _ => rfl
  frm := rfl
  coefBuf := rfl
  group := ⟨rfl, rfl⟩
  snapshot := ⟨rfl, rfl⟩
  angles := ⟨rfl, rfl⟩

theorem decodeFrame_refuses {s : State} {e : ErrCode} (hlen : s.inLen.toNat ≤ 4096)
    (h : frameCheck s = .error e) :
    ∃ t, exec .decodeFrame s = .next t ∧ FrameRefused e s t :=
  ⟨_, exec_decodeFrame_of_error hlen h, frameRefused_finish e s⟩

end Sys2Proof.Machine
end

section
/-! O37. The errors of DECODE_FRAME in their order (spec 42_frame.md R161). -/

namespace Sys2Proof.Machine

/-- Settles O37: each clause is one answer of the checks, and every such answer is refused alike. -/
theorem decodeFrameErrorsInOrder : Obligations.DecodeFrameErrorsInOrder := by
  refine ⟨fun s hlong => ⟨_, exec_of_operandRefused hlong, onlyCompletes_raise .badOperand s⟩,
    fun s hlen => ⟨fun hshort => ?short, fun h60 hmagic => ?magicString,
      fun h60 hstring hmagic => ?magicBytes, fun hheader e he => ?chanspec,
      fun hheader cs hcs => ⟨fun hchip => ?chip, fun hchip hpayload => ?payload⟩⟩⟩
  all_goals apply decodeFrame_refuses hlen
  case short => exact frameCheck_of_short hshort
  case magicString => exact frameCheck_of_wrong_magicString h60 hmagic
  case magicBytes => exact frameCheck_of_wrong_magicBytes h60 hstring hmagic
  case chanspec =>
    rw [← frameChanspec_eq] at he
    exact frameCheck_of_csDecode_error hheader he
  case chip =>
    rw [← frameChanspec_eq] at hcs
    rw [frameCheck_of_csDecode_ok hheader hcs, if_pos (mt (frameChip_eq_chipId_iff s).1 hchip)]
  case payload =>
    rw [← frameChanspec_eq] at hcs
    have h60 : 60 ≤ s.inLen.toNat := hheader.1
    rw [frameCheck_of_csDecode_ok hheader hcs,
      if_neg (not_not.2 ((frameChip_eq_chipId_iff s).2 hchip)), if_pos (by omega)]

end Sys2Proof.Machine
end

section
/-! O36. DECODE_FRAME writes the frame (spec 42_frame.md R155 to R160). -/

namespace Sys2Proof.Machine

/-! ### A chanspec by the masks of R101 and R102 -/

theorem bandwidthRows_eq {field code mhz n : Nat} (h : (field, code, mhz, n) ∈ bandwidthRows) :
    ∃ bw : Bw, field = bwBits bw ∧ code = bw.code ∧ mhz = bw.mhz ∧ n = bw.nsub := by
  simp only [bandwidthRows, List.mem_cons, List.not_mem_nil, or_false, Prod.mk.injEq] at h
  rcases h with ⟨rfl, rfl, rfl, rfl⟩ | ⟨rfl, rfl, rfl, rfl⟩ | ⟨rfl, rfl, rfl, rfl⟩ |
    ⟨rfl, rfl, rfl, rfl⟩
  · exact ⟨.mhz20, rfl, rfl, rfl, rfl⟩
  · exact ⟨.mhz40, rfl, rfl, rfl, rfl⟩
  · exact ⟨.mhz80, rfl, rfl, rfl, rfl⟩
  · exact ⟨.mhz160, rfl, rfl, rfl, rfl⟩

/-- A field of `len` bits from `start` up is the masked value over `2 ^ start`. -/
theorem toNat_extractLsb'_eq_mask (v : Half) (start len : Nat) :
    (v.extractLsb' start len).toNat =
      (v.toNat &&& 2 ^ start * (2 ^ len - 1)) / 2 ^ start := by
  rw [Nat.and_div_two_pow, Nat.mul_div_cancel_left _ (Nat.two_pow_pos start),
    Nat.and_two_pow_sub_one_eq_mod, BitVec.extractLsb'_toNat, Nat.shiftRight_eq_div_pow]

theorem bwOfField_of_mask {v : Half} {bw : Bw} (h : v.toNat &&& 0x3800 = bwBits bw) :
    bwOfField (v.extractLsb' 11 3) = some bw := by
  have hfield : (v.extractLsb' 11 3).toNat = bwBits bw / 2 ^ 11 := by
    rw [← h]
    exact toNat_extractLsb'_eq_mask v 11 3
  rw [bwOfField, hfield]
  cases bw <;> rfl

theorem bandOfField_of_mask {v : Half} {band : Band} (h : v.toNat &&& 0xC000 = bandBits band) :
    bandOfField (v.extractLsb' 14 2) = some band := by
  have hfield : (v.extractLsb' 14 2).toNat = bandBits band / 2 ^ 14 := by
    rw [← h]
    exact toNat_extractLsb'_eq_mask v 14 2
  rw [bandOfField, hfield]
  cases band <;> rfl

/-- A value whose two fields are legal together decodes, to the bandwidth of its field. -/
theorem csDecode_of_masks {v : Half} {bw : Bw} (hbw : v.toNat &&& 0x3800 = bwBits bw)
    (hband : v.toNat &&& 0xC000 = 0xC000 ∨
      v.toNat &&& 0xC000 = 0 ∧ (bw.mhz = 20 ∨ bw.mhz = 40)) :
    ∃ cs, csDecode v = .ok cs ∧ cs.bw = bw := by
  have hlegal : ∃ band, v.toNat &&& 0xC000 = bandBits band ∧ bandAllows band bw = true := by
    rcases hband with h | ⟨h, hmhz⟩
    · exact ⟨.ghz5, h, rfl⟩
    · refine ⟨.ghz2, h, ?_⟩
      cases bw <;> simp [Bw.mhz, bandAllows] at hmhz ⊢
  obtain ⟨band, hband, hallows⟩ := hlegal
  exact ⟨⟨v.extractLsb' 0 8, v.extractLsb' 8 3, band, bw⟩,
    (csDecode_ok_iff _ _).2 ⟨bwOfField_of_mask hbw, bandOfField_of_mask hband, hallows, rfl, rfl⟩,
    rfl⟩

/-! ### The frame registers -/

/-- R156: the little-endian value, or the big-endian one where the former exceeds 63. -/
theorem frameConfig_eq (s : State) :
    frameConfig s =
      if 63 < frameWord16 s 54 then
        (256 * (inByte s 54).toNat + (inByte s 55).toNat, true)
      else (frameWord16 s 54, false) := by
  rw [frameConfig, memRead_two_eq_frameWord16, memReadBE_two]

theorem frameConfig_fst_lt (s : State) : (frameConfig s).1 < 2 ^ 16 := by
  have := (inByte s 54).isLt
  have := (inByte s 55).isLt
  have := frameWord16_lt s 54
  rw [frameConfig_eq]
  split <;> dsimp only <;> omega

theorem frameFields_config_toNat (s : State) (bw : Bw) :
    (frameFields s bw).config.toNat = (frameConfig s).1 := by
  rw [frameFields, BitVec.toNat_ofNat, Nat.mod_eq_of_lt (frameConfig_fst_lt s)]

theorem frameFields_core_toNat (s : State) (bw : Bw) :
    (frameFields s bw).core.toNat = (frameConfig s).1 % 8 := by
  rw [← frameFields_config_toNat s bw]
  exact BitVec.extractLsb'_toNat ..

theorem frameFields_spatial_toNat (s : State) (bw : Bw) :
    (frameFields s bw).spatial.toNat = (frameConfig s).1 / 8 % 8 := by
  rw [← frameFields_config_toNat s bw, ← Nat.shiftRight_eq_div_pow _ 3]
  exact BitVec.extractLsb'_toNat ..

theorem frameFields_rssi_toInt (s : State) (bw : Bw) :
    (frameFields s bw).rssi.toInt = (inByte s 44).toInt :=
  BitVec.toInt_signExtend_of_le (by decide)

theorem frameFields_macLo_toNat (s : State) (bw : Bw) :
    (frameFields s bw).macLo.toNat = frameWord16 s 46 + 65536 * frameWord16 s 48 := by
  have := frameWord16_lt s 46
  have := frameWord16_lt s 48
  have hread : memRead s 46 4 = frameWord16 s 46 + 65536 * frameWord16 s 48 :=
    memRead_four_eq_frameWord16 s 46
  rw [frameFields, hread, BitVec.toNat_ofNat, Nat.mod_eq_of_lt (by omega)]

theorem frameFields_macHi_toNat (s : State) (bw : Bw) :
    (frameFields s bw).macHi.toNat = frameWord16 s 50 :=
  toNat_ofNat_memRead_two s 50

theorem frameFields_seq_toNat (s : State) (bw : Bw) :
    (frameFields s bw).seq.toNat = frameWord16 s 52 :=
  toNat_ofNat_memRead_two s 52

theorem frameFields_chanspec_toNat (s : State) (bw : Bw) :
    (frameFields s bw).chanspec.toNat = frameWord16 s 56 :=
  toNat_ofNat_memRead_two s 56

theorem frameFields_chip_toNat (s : State) (bw : Bw) :
    (frameFields s bw).chip.toNat = frameWord16 s 58 :=
  frameChip_toNat s

theorem frameFields_nsub_toNat (s : State) (bw : Bw) :
    (frameFields s bw).nsub.toNat = bw.nsub := by
  cases bw <;> rfl

/-! ### The coefficients -/

/-- Entry `j` below `n` is wire sample `(j + n/2) mod n` of the payload (41_unpack.md R137). -/
theorem frameWrites_coefBuf_inside (s : State) (bw : Bw) {j : Nat} (h : j < bw.nsub) :
    Sparse.read? (frameWrites bw s).coefBuf j =
      some (unpackComplex (BitVec.ofNat 32
        (frameWord16 s (60 + 4 * ((j + bw.nsub / 2) % bw.nsub)) +
          65536 * frameWord16 s (62 + 4 * ((j + bw.nsub / 2) % bw.nsub))))) := by
  have hsecond : ∀ k, 60 + 4 * k + 2 = 62 + 4 * k := by omega
  rw [frameWrites_coefBuf, Sparse.read?_writeFrom, unpackCsi_length, if_pos (by omega),
    Nat.sub_zero, unpackCsi_getElem? _ _ _ _ h, memRead_four_eq_frameWord16, Config.hdrLen,
    hsecond]

/-- The entries from `n` up are kept. -/
theorem frameWrites_coefBuf_outside (s : State) (bw : Bw) {j : Nat} (h : bw.nsub ≤ j) :
    Sparse.read? (frameWrites bw s).coefBuf j = Sparse.read? s.coefBuf j := by
  rw [frameWrites_coefBuf]
  exact Sparse.read?_writeFrom_outside _ _ _ _ (.inr (by rw [unpackCsi_length]; omega))

/-! ### The command -/

theorem frameWrites_res_zero (s : State) (bw : Bw) :
    (frameWrites bw s).res[0].toNat = bw.nsub := by
  have := bw_nsub_le bw
  rw [frameWrites, setResults_getElem _ _ 0 (by decide)]
  exact toNat_asU32 _ (by omega)

theorem keepsResultsFrom_frameWrites (s : State) (bw : Bw) :
    KeepsResultsFrom 1 s (finish .done (frameWrites bw s)) :=
  keepsResultsFrom_setResults [_] _

/-- Settles O36: the frame passes every check, and its writes are those of R160. -/
theorem decodeFrameWritesTheFrame : Obligations.DecodeFrameWritesTheFrame := by
  intro s field code mhz n cfg be hrow hheader hlen hpayload hfield hband hchip hbe hcfg
  obtain ⟨bw, rfl, -, rfl, rfl⟩ := bandwidthRows_eq hrow
  obtain ⟨cs, hcs, rfl⟩ : ∃ cs, csDecode (frameChanspec s) = .ok cs ∧ cs.bw = bw := by
    rw [frameChanspec_eq]
    apply csDecode_of_masks
    all_goals rwa [toNat_ofNat_frameWord16]
  have hcheck : frameCheck s = .ok cs.bw := by
    rw [frameCheck_of_csDecode_ok hheader hcs,
      if_neg (not_not.2 ((frameChip_eq_chipId_iff s).2 hchip)), if_neg (by omega)]
  have hconfig : frameConfig s = (cfg, be) := by
    rw [frameConfig_eq, hcfg, hbe]
    split
    next hbig => simp [hbig]
    next hsmall => simp [hsmall]
  have hcfg' : (frameConfig s).1 = cfg := congrArg Prod.fst hconfig
  refine ⟨_, exec_decodeFrame_of_ok hlen hcheck, frameFields_rssi_toInt s _, rfl,
    frameFields_macLo_toNat s _, frameFields_macHi_toNat s _, frameFields_seq_toNat s _,
    hcfg' ▸ frameFields_config_toNat s _, congrArg Prod.snd hconfig,
    hcfg' ▸ frameFields_core_toNat s _, hcfg' ▸ frameFields_spatial_toNat s _,
    frameFields_chanspec_toNat s _, hchip ▸ frameFields_chip_toNat s _,
    frameFields_nsub_toNat s _, fun j => frameWrites_coefBuf_inside s _,
    fun j => frameWrites_coefBuf_outside s _, rfl, frameWrites_res_zero s _,
    completedWith_finish .done s _ rfl, ⟨rfl, rfl, rfl, rfl, rfl, rfl⟩,
    keepsResultsFrom_frameWrites s _, ⟨rfl, rfl⟩, ⟨rfl, rfl⟩, ⟨rfl, rfl⟩⟩

end Sys2Proof.Machine
end

section
/-! O38. The bytes of a frame without a meaning (spec 42_frame.md R163). -/

namespace Sys2Proof.Machine

/-! ### Reads of the other bytes -/

section
variable {s : State} {m : Memory}
  (h : ∀ a, 6 ≤ a → (a < 12 ∨ 42 ≤ a) → Sparse.read? m a = Sparse.read? s.inBuf a)
include h

theorem inByte_of_agree {a : Nat} (h6 : 6 ≤ a) (ha : a < 12 ∨ 42 ≤ a) :
    inByte { s with inBuf := m } a = inByte s a := by
  rw [inByte, h a h6 ha]
  rfl

theorem inBytes_of_agree {a : Nat} (n : Nat) (ha : 42 ≤ a) :
    inBytes { s with inBuf := m } a n = inBytes s a n :=
  List.map_congr_left fun _ _ => inByte_of_agree h (by omega) (by omega)

theorem memRead_of_agree {a : Nat} (n : Nat) (ha : 42 ≤ a) :
    memRead { s with inBuf := m } a n = memRead s a n :=
  congrArg leNat (inBytes_of_agree h n ha)

theorem memReadBE_of_agree {a : Nat} (n : Nat) (ha : 42 ≤ a) :
    memReadBE { s with inBuf := m } a n = memReadBE s a n :=
  congrArg (leNat ∘ List.reverse) (inBytes_of_agree h n ha)

theorem magicStringOk_of_agree : magicStringOk { s with inBuf := m } = magicStringOk s := by
  rw [Bool.eq_iff_iff, magicStringOk_iff, magicStringOk_iff]
  exact forall_congr' fun i => by rw [inByte_of_agree h (by omega) (by omega)]

theorem magicBytesOk_of_agree : magicBytesOk { s with inBuf := m } = magicBytesOk s := by
  rw [Bool.eq_iff_iff, magicBytesOk_iff, magicBytesOk_iff]
  exact forall_congr' fun i => by rw [inByte_of_agree h (by omega) (by omega)]

theorem frameChanspec_of_agree : frameChanspec { s with inBuf := m } = frameChanspec s := by
  rw [frameChanspec, memRead_of_agree h 2 (by decide), frameChanspec]

theorem frameChip_of_agree : frameChip { s with inBuf := m } = frameChip s := by
  rw [frameChip, memRead_of_agree h 2 (by decide), frameChip]

theorem frameConfig_of_agree : frameConfig { s with inBuf := m } = frameConfig s := by
  rw [frameConfig, memRead_of_agree h 2 (by decide), memReadBE_of_agree h 2 (by decide),
    frameConfig]

/-! ### The checks and the writes -/

theorem frameCheck_of_agree : frameCheck { s with inBuf := m } = frameCheck s := by
  rw [frameCheck, magicStringOk_of_agree h, magicBytesOk_of_agree h, frameChanspec_of_agree h,
    frameChip_of_agree h, frameCheck]
  rfl

theorem frameFields_of_agree (bw : Bw) :
    frameFields { s with inBuf := m } bw = frameFields s bw := by
  simp only [frameFields, frameConfig_of_agree h, frameChanspec_of_agree h, frameChip_of_agree h,
    memRead_of_agree h _ (show 42 ≤ 46 by decide), memRead_of_agree h _ (show 42 ≤ 50 by decide),
    memRead_of_agree h _ (show 42 ≤ 52 by decide),
    inByte_of_agree h (show 6 ≤ 44 by decide) (.inr (by decide)),
    inByte_of_agree h (show 6 ≤ 45 by decide) (.inr (by decide))]

theorem unpackCsi_of_agree (bw : Bw) {a : Nat} (ha : 42 ≤ a) :
    unpackCsi { s with inBuf := m } bw a = unpackCsi s bw a := by
  have hwire : wireSamples { s with inBuf := m } bw.nsub a = wireSamples s bw.nsub a :=
    List.map_congr_left fun i _ => by rw [memRead_of_agree h 4 (by omega)]
  rw [unpackCsi, hwire, unpackCsi]

theorem frameWrites_of_agree (bw : Bw) :
    frameWrites bw { s with inBuf := m } = { frameWrites bw s with inBuf := m } := by
  rw [frameWrites, frameFields_of_agree h, unpackCsi_of_agree h bw (by decide)]
  rfl

end

/-- Settles O38: the three outcomes of DECODE_FRAME depend on the checks and the writes only, and
neither reads a byte below 6 or from 12 to 41. -/
theorem unreadFrameBytesDoNotMatter : Obligations.UnreadFrameBytesDoNotMatter := by
  intro s m h
  have hcheck := frameCheck_of_agree h
  rcases Nat.lt_or_ge 4096 s.inLen.toNat with hlong | hlen
  · exact ⟨_, exec_of_operandRefused hlong, exec_of_operandRefused hlong⟩
  · cases hs : frameCheck s with
    | error e =>
      exact ⟨_, exec_decodeFrame_of_error hlen hs,
        exec_decodeFrame_of_error hlen (hcheck.trans hs)⟩
    | ok bw =>
      refine ⟨_, exec_decodeFrame_of_ok hlen hs,
        (exec_decodeFrame_of_ok (s := { s with inBuf := m }) hlen (hcheck.trans hs)).trans ?_⟩
      rw [frameWrites_of_agree h]
      rfl

end Sys2Proof.Machine
end

section
/-! O4, O9, O21. Words that are no command, the STATUS write and NOP (spec 45_control.md R223, R224,
R226). -/

namespace Sys2Proof.Machine

/-! ### A word that is no command's word (R84, R224) -/

/-- The opcode map of R83 lists each command under its own OPCODE only. -/
theorem eq_opcode_of_instrOfOpcode {n : Nat} {i : Instr} (h : instrOfOpcode n = some i) :
    n = (opcode i).toNat := by
  unfold instrOfOpcode at h
  split at h <;> cases h <;> rfl

/-- A command word is its RSV field above its OPCODE (R80). -/
theorem rsv_append_opcode (w : Word) : w.extractLsb' 8 24 ++ w.extractLsb' 0 8 = w := by
  rw [BitVec.extractLsb'_append_extractLsb'_eq_extractLsb' (Nat.zero_add 8).symm,
    BitVec.extractLsb'_eq_self]

/-- The decoder takes no word but the encodings. -/
theorem eq_encode_of_decode {w : Word} {i : Instr} (h : decode w = .ok i) : w = encode i := by
  unfold decode at h
  split at h
  · cases h
  next hrsv =>
    split at h
    next j hj =>
      cases h
      have hop : w.extractLsb' 0 8 = opcode i :=
        BitVec.eq_of_toNat_eq (eq_opcode_of_instrOfOpcode hj)
      rw [← rsv_append_opcode w, not_not.1 hrsv, hop, encode]
    · cases h

/-- A latched word that no command encodes to completes as `raise ILLEGAL_COMMAND`. -/
theorem runLatched_of_ne_encode {w : Word} (h : ∀ i, w ≠ encode i) (s : State) :
    runLatched w s = .next (finish (.raise .illegalCommand) s) := by
  rcases runLatched_eq w s with ⟨i, hi, -⟩ | ⟨-, -, hrun⟩
  · exact absurd (eq_encode_of_decode hi) (h i)
  · exact hrun

/-! ### Which rule a step is, by the sequencer's state -/

theorem step_of_idle {s : State} (h : s.seqr = .idle) : step s = hostCycle s := by
  rw [step, h]

theorem step_of_busy_zero {s : State} {w : Word} (h : s.seqr = .busy w 0) :
    step s = runLatched w s := by
  rw [step, h]

theorem hostCycle_of_script {s : State} {op : HostOp} {rest : List HostOp}
    (h : s.script = op :: rest) : hostCycle s = serve op { s with script := rest } := by
  rw [hostCycle, h]

/-! ### Register writes -/

theorem isBusy_of_idle {s : State} (h : s.seqr = .idle) : isBusy s = false := by
  rw [isBusy, h]

/-- A write to CMD while no command runs starts one, whatever the word (R220). -/
theorem writeEffect_cmd {s : State} (h : s.seqr = .idle) (w : Word) :
    writeEffect 0x008 .w32 w s = startCommand w s := by
  have hcmd : writeEffect 0x008 .w32 w s = unlessBusy (startCommand w) s := rfl
  rw [hcmd, unlessBusy, isBusy_of_idle h, if_neg Bool.false_ne_true]

/-- The step that serves a CMD write while no command runs. -/
theorem step_cmdWrite {s : State} {w : Word} {rest : List HostOp} (hidle : s.seqr = .idle)
    (hscript : s.script = .write 0x008 .w32 w :: rest) :
    step s = .next (nextDraw (startCommand w { s with script := rest })) := by
  rw [step_of_idle hidle, hostCycle_of_script hscript, serve_write w rfl,
    writeEffect_cmd (s := { s with script := rest }) hidle]

/-- A write to STATUS updates the status, BUSY or not (R226). -/
theorem busWrite_status (s : State) (v : Word) :
    busWrite s 0x004 .w32 v = .ok { s with status := clearStatus v s.status } := rfl

/-- STATUS after NOP in a state whose status is the reset one: DONE alone (R23, R223). -/
theorem statusWord_finish_done {s : State} (h : s.status = State.reset.status) :
    statusWord (finish .done s) = 0x00000002 := by
  have hbusy : isBusy (finish .done s) = false := isBusy_of_idle (finish_seqr .done s)
  rw [statusWord, hbusy, finish_status, h]
  decide

/-! ### The obligations -/

/-- Settles O4: the CMD write starts any word; a word that decodes is an encoding, so this one
completes with ILLEGAL_COMMAND. -/
theorem illegalWordCompletesWithItsError : Obligations.IllegalWordCompletesWithItsError := by
  refine ⟨rfl, fun s w hw => ⟨fun rest hidle hscript => ?_, fun hbusy => ?_⟩⟩
  · exact ⟨_, _, step_cmdWrite hidle hscript, rfl, rfl, rfl⟩
  · exact ⟨_, (step_of_busy_zero hbusy).trans (runLatched_of_ne_encode hw s),
      onlyCompletes_raise .illegalCommand s⟩

/-- Settles O9: the write is `clearStatus`, which masks DONE and OVERRUN and keeps the rest. -/
theorem statusWriteClearsDoneAndOverrun : Obligations.StatusWriteClearsDoneAndOverrun := by
  intro s v
  refine ⟨_, busWrite_status s v, ?done, ?overrun, rfl, rfl, rfl, rfl, rfl, rfl, rfl, ?irq⟩
  case done => simp [clearStatus]
  case overrun => simp [clearStatus]
  case irq => intro hv; simp [irq, clearStatus, hv]

/-- Settles O21: NOP is a completion with `done` and no write before it. -/
theorem nopOnlyCompletes : Obligations.NopOnlyCompletes :=
  ⟨rfl, fun s => ⟨finish .done s, rfl, onlyCompletes_done s, statusWord_finish_done⟩⟩

end Sys2Proof.Machine
end

section
/-! O1 to O3. The decoder and the encoder of command words (spec 30_encoding.md R80, R83, R84), and the
step of a latched word (45_control.md R221). -/

namespace Sys2Proof.Machine

theorem decode_encode (i : Instr) : decode (encode i) = .ok i := by
  cases i <;> rfl

/-- A word decodes to a command exactly when it is that command's word. -/
theorem decode_eq_ok_iff (w : Word) (i : Instr) : decode w = .ok i ↔ w = encode i :=
  ⟨eq_encode_of_decode, fun h => h ▸ decode_encode i⟩

theorem runLatched_of_decode {w : Word} {i : Instr} (h : decode w = .ok i) (s : State) :
    runLatched w s = exec i s := by
  rw [runLatched, h]

theorem decodeTableWord_eq_some_iff (nbits w : Nat) (i : Instr) :
    decodeTableWord nbits w = some i ↔ decode (BitVec.ofNat 32 (w % 2 ^ nbits)) = .ok i := by
  unfold decodeTableWord
  cases decode (BitVec.ofNat 32 (w % 2 ^ nbits)) <;> simp [Except.toOption]

theorem withFetchWord_seqr (s : State) (nbits w : Nat) :
    (s.withFetchWord nbits w).seqr = .busy (BitVec.ofNat 32 (w % 2 ^ nbits)) 0 := rfl

/-- Settles O1: the decoder takes each command's word to it, and no other word to any command. -/
theorem wordDecodesExactlyToItsCommand : Obligations.WordDecodesExactlyToItsCommand :=
  decode_eq_ok_iff

/-- Settles O2: the words written out are the encodings; the last two fail one check of R84 each. -/
theorem knownCommandWordsDecode : Obligations.KnownCommandWordsDecode :=
  ⟨decode_encode .nop, decode_encode .chanspecDecode, decode_encode .chanspecEncode,
    decode_encode .defaultDelay, decode_encode .subcarrierClass, decode_encode .unpackComplex,
    decode_encode .unpackCsi, decode_encode .decodeFrame, decode_encode .groupAdd,
    decode_encode .groupTake, decode_encode .aoa, decode_encode .tof, rfl, rfl⟩

/-- Settles O3: with no bus cycle left the step runs the latched word, and the host's fetch word is
latched that way. -/
theorem stepRunsTheLatchedCommand : Obligations.StepRunsTheLatchedCommand := by
  have hrun {s : State} {w : Word} {i : Instr} (hbusy : s.seqr = .busy w 0)
      (hi : decode w = .ok i) : step s = exec i s :=
    (step_of_busy_zero hbusy).trans (runLatched_of_decode hi s)
  exact ⟨fun s w i => hrun, fun s nbits w i hi =>
    hrun (withFetchWord_seqr s nbits w) ((decodeTableWord_eq_some_iff nbits w i).1 hi)⟩

end Sys2Proof.Machine
end

section
/-! O55 and O58 to O60. The inputs that no command writes, the invariant at reset and over every step,
and the scripts that never stop (spec 10_state.md R20 to R37; 20_memory.md R65; 44_estimator.md R190;
70_reset_and_hazards.md R250). -/

namespace Sys2Proof.Machine

/-! ### What the pseudocode of a command keeps -/

/-- The invariant but for the status clauses: what a command's pseudocode has to keep. -/
structure DataSound (s : State) : Prop where
  storage : StorageSound s
  frame : s.status.frameValid = true → FrameSound s
  group : s.status.groupActive = true → GridSound s.grp
  snapshot : s.status.snapValid = true → GridSound s.snap

theorem Inv.data {s : State} (h : Inv s) : DataSound s := ⟨h.storage, h.frame, h.group, h.snapshot⟩

/-- A frame in the same registers and the same buffer is as sound. -/
theorem FrameSound.of_same {s t : State} (h : FrameSound s) (hfrm : t.frm = s.frm)
    (hcoef : t.coefBuf = s.coefBuf) : FrameSound t := by
  refine ⟨?_, ?_, ?_, ?_, ?_⟩ <;> rw [hfrm]
  · exact h.decodes
  · exact h.chip
  · exact h.core
  · exact h.spatial
  · rw [hcoef]; exact h.stored

theorem DataSound.setResults {s : State} (h : DataSound s) (vs : List Word) :
    DataSound (setResults vs s) where
  storage := { h.storage with }
  frame := fun hv => (h.frame hv).of_same rfl rfl
  group := h.group
  snapshot := h.snapshot

theorem DataSound.setFrameInvalid {s : State} (h : DataSound s) :
    DataSound (setFrameValid false s) where
  storage := { h.storage with }
  frame := fun hv => absurd hv Bool.false_ne_true
  group := h.group
  snapshot := h.snapshot

theorem DataSound.unpackCsiWrites {s : State} (h : DataSound s) (bw : Bw) :
    DataSound (unpackCsiWrites bw s) where
  storage := { h.storage with coefBuf := coefBuf_wf_write h.storage.coefBuf s bw 0 }
  frame := fun hv => absurd hv Bool.false_ne_true
  group := h.group
  snapshot := h.snapshot

/-- The frame that DECODE_FRAME writes is one that it accepted. -/
theorem frameSound_frameWrites {s : State} {bw : Bw} (h : frameCheck s = .ok bw) :
    FrameSound (frameWrites bw s) := by
  obtain ⟨hchip, cs, hcs, rfl⟩ := frameCheck_ok h
  refine ⟨⟨cs, hcs, (frameFields_nsub_toNat s cs.bw).symm⟩, hchip, rfl, rfl, fun j hj => ?_⟩
  rw [frameWrites_frm, frameFields_nsub_toNat] at hj
  rw [frameWrites_coefBuf_inside s _ hj, Option.isSome_some]

theorem DataSound.frameWrites {s : State} {bw : Bw} (h : DataSound s)
    (hc : frameCheck s = .ok bw) : DataSound (frameWrites bw s) where
  storage := { h.storage with coefBuf := coefBuf_wf_write h.storage.coefBuf s bw Config.hdrLen }
  frame := fun _ => frameSound_frameWrites hc
  group := h.group
  snapshot := h.snapshot

theorem DataSound.aoaWrites {s : State} (h : DataSound s) (cs : Chanspec) :
    DataSound (aoaWrites cs s) where
  storage := { h.storage with
    aoa0 := aoa_wf_write h.storage.aoa0 s cs 12 0x4000
    aoa1 := aoa_wf_write h.storage.aoa1 s cs 4 0x5000 }
  frame := fun hv => (h.frame hv).of_same rfl rfl
  group := h.group
  snapshot := h.snapshot

/-! ### The grouper -/

/-- A flush leaves no group in progress, and emits a sound group only. -/
theorem DataSound.flush {s : State} (h : DataSound s) : DataSound (flush s).2 := by
  rcases flush_eq s with ⟨hactive, -, hf⟩ | ⟨-, hf⟩ <;> rw [hf]
  · exact {
      storage := { h.storage with snapGrid := emitted_wf s }
      frame := fun hv => (h.frame hv).of_same rfl rfl
      group := fun hv => absurd hv Bool.false_ne_true
      snapshot := fun _ => emitted_sound (h.group hactive) }
  · exact {
      storage := { h.storage with }
      frame := fun hv => (h.frame hv).of_same rfl rfl
      group := fun hv => absurd hv Bool.false_ne_true
      snapshot := h.snapshot }

theorem DataSound.startGroup_addSlot {s : State} (h : DataSound s)
    (hv : s.status.frameValid = true) (hs : slotOutOfRange s = false) :
    DataSound (addSlot (startGroup s)) where
  storage := { h.storage with
    grpGrid := addSlot_wf (s := startGroup s) h.storage.grpGrid (frameSlot_lt hs) }
  frame := fun hv => (h.frame hv).of_same rfl rfl
  group := fun _ => startGroup_sound (h.frame hv) hs
  snapshot := h.snapshot

theorem DataSound.addSlot {s : State} (h : DataSound s) (hv : s.status.frameValid = true)
    (hs : slotOutOfRange s = false) : DataSound (addSlot s) where
  storage := { h.storage with grpGrid := addSlot_wf h.storage.grpGrid (frameSlot_lt hs) }
  frame := fun hv => (h.frame hv).of_same rfl rfl
  group := fun hactive => by
    obtain ⟨hd, -, hl, he, hst⟩ := h.group hactive
    exact addSlot_sound (h.frame hv) hs hd hl he hst
  snapshot := h.snapshot

/-- What a flush leaves alone; the snapshot, where it emits, is valid. -/
theorem flush_keeps (s : State) :
    (flush s).2.frm = s.frm ∧ (flush s).2.status.frameValid = s.status.frameValid ∧
      (flush s).2.grp = s.grp ∧ KeepsInputs s (flush s).2 ∧
      ((flush s).1 = true → (flush s).2.status.snapValid = true) := by
  rcases flush_eq s with ⟨-, -, hf⟩ | ⟨-, hf⟩ <;> rw [hf]
  · exact ⟨rfl, rfl, rfl, ⟨rfl, rfl, rfl, rfl, rfl, rfl⟩, fun _ => rfl⟩
  · exact ⟨rfl, rfl, rfl, ⟨rfl, rfl, rfl, rfl, rfl, rfl⟩, fun h => absurd h Bool.false_ne_true⟩

theorem flush_slotOutOfRange (s : State) : slotOutOfRange (flush s).2 = slotOutOfRange s := by
  rw [slotOutOfRange, (flush_keeps s).1, slotOutOfRange]

/-- EMITTED is the ending of a flush exactly when the flush emitted. -/
theorem flushEnding_eq_doneEmitted {b : Bool}
    (h : (if b then Ending.doneEmitted else .absent) = .doneEmitted) : b = true := by
  cases b
  · cases h
  · rfl

/-! ### Completion -/

/-- A completion over sound data meets the invariant, where EMITTED comes with a valid snapshot. -/
theorem DataSound.finish {u : State} {e : Ending} (h : DataSound u)
    (he : e = .doneEmitted → u.status.snapValid = true) : Inv (finish e u) where
  storage := { h.storage with }
  status :=
    { running := fun hb => absurd hb Bool.false_ne_true
      bounded := fun _ _ hq => nomatch hq
      exclusive := fun ha => by
        obtain rfl : e = .absent := of_decide_eq_true ha
        rfl
      emission := fun hm => by
        obtain rfl : e = .doneEmitted := of_decide_eq_true hm
        exact ⟨rfl, rfl, he rfl⟩ }
  frame := fun hv => (h.frame hv).of_same rfl rfl
  group := h.group
  snapshot := h.snapshot

/-- Every command keeps the invariant. -/
theorem exec_inv {i : Instr} {s t : State} (hs : Inv s) (h : exec i s = .next t) : Inv t := by
  have hd := hs.data
  obtain ⟨hfrm, hvalid, -, -, hsnap⟩ := flush_keeps s
  rcases exec_cases h with ⟨e, he, rfl⟩ | ⟨vs, rfl⟩ | ⟨-, bw, rfl⟩ | ⟨-, e, -, rfl⟩ |
    ⟨-, bw, hc, rfl⟩ | ⟨-, hv, hslot, -, rfl⟩ | ⟨-, hv, hslot, -, rfl⟩ | ⟨-, rfl⟩ |
    ⟨-, -, cs, -, rfl⟩
  · exact hd.finish fun h => absurd h he
  · exact (hd.setResults vs).finish (by simp)
  · exact (hd.unpackCsiWrites bw).finish (by simp)
  · exact hd.setFrameInvalid.finish (by simp)
  · exact (hd.frameWrites hc).finish (by simp)
  · exact (hd.flush.startGroup_addSlot (hvalid.trans hv)
      ((flush_slotOutOfRange s).trans hslot)).finish fun h => hsnap (flushEnding_eq_doneEmitted h)
  · exact (hd.addSlot hv hslot).finish (by simp)
  · exact hd.flush.finish fun h => hsnap (flushEnding_eq_doneEmitted h)
  · exact (hd.aoaWrites cs).finish (by simp)

theorem runLatched_inv {w : Word} {s t : State} (hs : Inv s) (h : runLatched w s = .next t) :
    Inv t := by
  rcases runLatched_eq w s with ⟨i, -, hrun⟩ | ⟨-, -, hrun⟩ <;> rw [hrun] at h
  · exact exec_inv hs h
  · cases h
    exact hs.data.finish (by simp)

/-! ### The bus -/

/-- The invariant does not speak of these fields. -/
theorem Inv.withFields {s : State} (h : Inv s) (irqEn : Bool) (inLen : BitVec 13)
    (arg : Vector Word 4) (draws : Nat) (script : List HostOp) (log : List (String × Word)) :
    Inv { s with
      irqEn := irqEn, inLen := inLen, arg := arg, draws := draws, script := script, log := log }
    where
  storage := { h.storage with }
  status := { h.status with }
  frame := fun hv => (h.frame hv).of_same rfl rfl
  group := h.group
  snapshot := h.snapshot

theorem Inv.nextDraw {s : State} (h : Inv s) : Inv (nextDraw s) :=
  h.withFields s.irqEn s.inLen s.arg (s.draws + 1) s.script s.log

theorem Inv.withScript {s : State} (h : Inv s) (ops : List HostOp) :
    Inv { s with script := ops } :=
  h.withFields s.irqEn s.inLen s.arg s.draws ops s.log

/-- OVERRUN is free, and DONE where no command runs. -/
theorem Inv.withFlags {s : State} (h : Inv s) {d : Bool} (o : Bool)
    (hd : s.status.done = false → d = false) :
    Inv { s with status := { s.status with done := d, overrun := o } } where
  storage := { h.storage with }
  status :=
    { h.status with
      running := fun hb => by
        obtain ⟨hdone, hrest⟩ := h.status.running hb
        exact ⟨hd hdone, hrest⟩ }
  frame := fun hv => (h.frame hv).of_same rfl rfl
  group := h.group
  snapshot := h.snapshot

theorem Inv.startCommand {s : State} (h : Inv s) (w : Word) : Inv (startCommand w s) where
  storage := { h.storage with }
  status :=
    { running := fun _ => ⟨rfl, rfl, rfl, rfl⟩
      bounded := fun _ _ hq => by
        cases hq
        exact Nat.min_le_right _ _
      exclusive := fun _ => rfl
      emission := fun hm => absurd hm Bool.false_ne_true }
  frame := fun hv => (h.frame hv).of_same rfl rfl
  group := h.group
  snapshot := h.snapshot

/-- One of the bus cycles of a running command. -/
theorem Inv.oneCycleLess {s : State} (h : Inv s) {w : Word} {left : Nat}
    (hq : s.seqr = .busy w (left + 1)) : Inv { s with seqr := .busy w left } where
  storage := { h.storage with }
  status :=
    { h.status with
      running := fun _ => h.status.running (by rw [isBusy, hq])
      bounded := fun _ _ hq' => by
        cases hq'
        exact Nat.le_of_succ_le (h.status.bounded w (left + 1) hq) }
  frame := fun hv => (h.frame hv).of_same rfl rfl
  group := h.group
  snapshot := h.snapshot

theorem Inv.writeInBuf {s : State} (h : Inv s) {m : Memory} (hm : Memory.wf m) :
    Inv { s with inBuf := m } where
  storage := { h.storage with inBuf := hm }
  status := { h.status with }
  frame := fun hv => (h.frame hv).of_same rfl rfl
  group := h.group
  snapshot := h.snapshot

theorem inv_reset : Inv State.reset where
  storage := ⟨Sparse.wf_nil _, Sparse.wf_nil _, Sparse.wf_nil _, Sparse.wf_nil _, Sparse.wf_nil _,
    Sparse.wf_nil _⟩
  status := ⟨fun h => absurd h Bool.false_ne_true, fun _ _ h => (nomatch h), fun _ => rfl,
    fun h => absurd h Bool.false_ne_true⟩
  frame := fun h => absurd h Bool.false_ne_true
  group := fun h => absurd h Bool.false_ne_true
  snapshot := fun h => absurd h Bool.false_ne_true

theorem inv_resetBlock (s : State) : Inv (resetBlock s) :=
  inv_reset.withFields State.reset.irqEn State.reset.inLen State.reset.arg s.draws s.script s.log

theorem Inv.unlessBusy {f : State → State} {s : State} (h : Inv s) (hf : Inv (f s)) :
    Inv (unlessBusy f s) := by
  unfold Machine.unlessBusy
  split
  · exact h.withFlags true id
  · exact hf

theorem Inv.writeReg {s : State} (h : Inv s) (off : Nat) (v : Word) : Inv (writeReg off v s) := by
  unfold Machine.writeReg
  split
  · unfold writeCtrl
    split
    · exact inv_resetBlock _
    · exact h.withFields (v.getLsbD 0) s.inLen s.arg s.draws s.script s.log
  split
  · exact h.withFlags _ fun hd => by rw [hd, Bool.false_and]
  split
  · exact h.unlessBusy (h.startCommand v)
  split
  · exact h.unlessBusy (h.withFields s.irqEn (v.setWidth 13) s.arg s.draws s.script s.log)
  split
  · exact h.unlessBusy (h.withFields s.irqEn s.inLen _ s.draws s.script s.log)
  · exact h

theorem Inv.busWrite {s t : State} {off : Nat} {w : Width} {v : Word} (h : Inv s)
    (ht : busWrite s off w v = .ok t) : Inv t := by
  have hm := memory_wf_busWrite h.storage.inBuf ht
  unfold Machine.busWrite at ht
  split at ht <;> cases ht
  unfold writeEffect at hm ⊢
  split at hm
  · exact h.writeReg off v
  · unfold Machine.unlessBusy at hm ⊢
    by_cases hb : isBusy s = true
    · rw [if_pos hb]
      exact h.withFlags true id
    · rw [if_neg hb] at hm ⊢
      exact h.writeInBuf hm
  · exact h

theorem BusStop.outcome_ne_next (e : BusStop) (t : State) : e.outcome ≠ .next t := by
  cases e <;> simp [BusStop.outcome]

theorem serve_inv {op : HostOp} {s t : State} (hs : Inv s) (h : serve op s = .next t) : Inv t := by
  cases op with
  | write off w v =>
    simp only [serve] at h
    split at h
    · exact absurd h (BusStop.outcome_ne_next _ t)
    next u hu => cases h; exact (hs.busWrite hu).nextDraw
  | read off w name =>
    simp only [serve] at h
    split at h
    · exact absurd h (BusStop.outcome_ne_next _ t)
    next v _ =>
      cases h
      exact hs.withFields s.irqEn s.inLen s.arg (s.draws + 1) s.script ((name, v) :: s.log)
  | wait =>
    rw [serve_wait] at h
    cases h
    exact (hs.withScript _).nextDraw
  | idle => cases h; exact hs.nextDraw
  | resetInput => cases h; exact (inv_resetBlock s).nextDraw

theorem hostCycle_inv {s t : State} (hs : Inv s) (h : hostCycle s = .next t) : Inv t := by
  unfold hostCycle at h
  split at h
  · cases h; exact hs.nextDraw
  next op rest _ => exact serve_inv (hs.withScript rest) h

/-- Settles O58: at reset the flags promise nothing and the storage is empty. -/
theorem invariantHoldsAtReset : Obligations.InvariantHoldsAtReset :=
  fun ops => inv_reset.withScript ops

/-- Settles O59: a step is a bus cycle, a cycle of a running command, or a completion. -/
theorem everyStepKeepsTheInvariant : Obligations.EveryStepKeepsTheInvariant := by
  intro s t hs h
  rcases step_eq s with ⟨-, hstep⟩ | ⟨w, -, hstep⟩ | ⟨w, left, hq, hstep⟩ <;> rw [hstep] at h
  · exact hostCycle_inv hs h
  · exact runLatched_inv hs h
  · exact hostCycle_inv (hs.oneCycleLess hq) h

/-! ### The inputs that no command writes -/

/-- Settles O55: the cases of `exec_cases` write status, results and the block's own storage. -/
theorem noCommandWritesItsInputs : Obligations.NoCommandWritesItsInputs := by
  intro i s t h
  obtain ⟨-, -, -, hflush, -⟩ := flush_keeps s
  rcases exec_cases h with ⟨e, -, rfl⟩ | ⟨vs, rfl⟩ | ⟨-, bw, rfl⟩ | ⟨-, e, -, rfl⟩ |
    ⟨-, bw, -, rfl⟩ | ⟨-, -, -, -, rfl⟩ | ⟨-, -, -, -, rfl⟩ | ⟨-, rfl⟩ | ⟨-, -, cs, -, rfl⟩
  case inr.inr.inr.inr.inr.inl | inr.inr.inr.inr.inr.inr.inr.inl =>
    exact ⟨hflush.irqEn, hflush.inLen, hflush.arg, hflush.inBuf, hflush.script, hflush.log⟩
  all_goals exact ⟨rfl, rfl, rfl, rfl, rfl, rfl⟩

/-! ### Scripts of well-formed accesses -/

theorem accessStop_none_of_wellFormed {off : Nat} {w : Width}
    (h : (Access.inWindow off && Access.aligned off w && Access.widthTaken off w) = true) :
    accessStop off w = none := by
  simp only [Bool.and_eq_true, Access.inWindow, decide_eq_true_eq] at h
  obtain ⟨⟨hin, haligned⟩, hwidth⟩ := h
  rcases accessStop_cases off w hin with ⟨hnone, -⟩ | ⟨f, -, hbad⟩
  · exact hnone
  · exact absurd ⟨haligned, hwidth⟩ hbad

theorem unlessBusy_script {f : State → State} {s : State} (hf : (f s).script = s.script) :
    (unlessBusy f s).script = s.script := by
  unfold unlessBusy
  split
  · rfl
  · exact hf

theorem writeReg_script (off : Nat) (v : Word) (s : State) :
    (writeReg off v s).script = s.script := by
  unfold writeReg
  split
  · unfold writeCtrl
    split <;> rfl
  split
  · rfl
  split
  · exact unlessBusy_script rfl
  split
  · exact unlessBusy_script rfl
  split
  · exact unlessBusy_script rfl
  · rfl

/-- A host write leaves the pending operations alone. -/
theorem writeEffect_script (off : Nat) (w : Width) (v : Word) (s : State) :
    (writeEffect off w v s).script = s.script := by
  unfold writeEffect
  split
  · exact writeReg_script off v s
  · exact unlessBusy_script rfl
  · rfl

theorem scriptWellFormed_of_script {s t : State} (h : scriptWellFormed s)
    (ht : t.script = s.script) : scriptWellFormed t := by
  rw [scriptWellFormed, ht]
  exact h

/-- A well-formed operation is served, and what it leaves pending is well formed. -/
theorem serve_wellFormed {op : HostOp} {s : State} (hop : op.wellFormed = true)
    (hs : scriptWellFormed s) : ∃ t, serve op s = .next t ∧ scriptWellFormed t := by
  cases op with
  | write off w v =>
    exact ⟨_, serve_write v (accessStop_none_of_wellFormed hop),
      scriptWellFormed_of_script hs (writeEffect_script off w v s)⟩
  | read off w name =>
    simp only [serve, busRead, accessStop_none_of_wellFormed hop]
    exact ⟨_, rfl, hs⟩
  | wait =>
    refine ⟨_, serve_wait s, ?_⟩
    cases hd : s.status.done
    · exact List.forall_mem_cons.2 ⟨rfl, hs⟩
    · exact hs
  | idle => exact ⟨_, rfl, hs⟩
  | resetInput => exact ⟨_, rfl, hs⟩

theorem hostCycle_wellFormed {s : State} (hs : scriptWellFormed s) :
    ∃ t, hostCycle s = .next t ∧ scriptWellFormed t := by
  unfold hostCycle
  cases hscript : s.script with
  | nil => exact ⟨_, rfl, hs⟩
  | cons op rest =>
    rw [scriptWellFormed, hscript, List.forall_mem_cons] at hs
    exact serve_wellFormed hs.1 hs.2

/-- A command never stops in a state that meets the invariant: a valid snapshot decodes (R190). -/
theorem exec_next_of_inv {s : State} (hs : Inv s) (i : Instr) : ∃ t, exec i s = .next t := by
  refine exec_stops_only ?_
  rintro ⟨-, hv, e, he⟩
  obtain ⟨n, cs, hcs, -⟩ := (hs.snapshot hv).decodes
  rw [hcs] at he
  cases he

/-- Settles O60: commands always complete, and well-formed accesses are always served. -/
theorem wellFormedScriptsNeverStop : Obligations.WellFormedScriptsNeverStop := by
  intro s hs hscript
  rcases step_eq s with ⟨-, hstep⟩ | ⟨w, -, hstep⟩ | ⟨w, left, -, hstep⟩ <;> rw [hstep]
  · exact hostCycle_wellFormed hscript
  · rcases runLatched_eq w s with ⟨i, -, hrun⟩ | ⟨-, -, hrun⟩ <;> rw [hrun]
    · obtain ⟨t, ht⟩ := exec_next_of_inv hs i
      exact ⟨t, ht, scriptWellFormed_of_script hscript (noCommandWritesItsInputs i s t ht).script⟩
    · exact ⟨_, rfl, hscript⟩
  · exact hostCycle_wellFormed hscript

end Sys2Proof.Machine
end

section
/-! O11, O20, O56 and O57. Reset, the interrupt, and what holds of every command's completion (spec
10_state.md R23, R27, R36, R37; 45_control.md R222; 60_exceptions.md R234, R235;
70_reset_and_hazards.md R250). -/

namespace Sys2Proof.Machine

/-! ### The outcome flags are never read -/

/-- Other values of the flags that R37 names. -/
def withOutcomeFlags (d a em o : Bool) (e : ErrCode) (s : State) : State :=
  { s with status := { s.status with
      done := d, absent := a, emitted := em, overrun := o, err := e } }

/-- The pseudocode ends the same and writes the same under every value of the outcome flags. -/
def FlagBlind (body : State → Ending × State) : Prop :=
  ∀ (d a em o : Bool) (e : ErrCode) (s : State),
    body (withOutcomeFlags d a em o e s) =
      ((body s).1, withOutcomeFlags d a em o e (body s).2)

/-- A check of the pseudocode that reads none of the flags. -/
theorem FlagBlind.ite {c : State → Prop} {dec : DecidablePred c} {p q : State → Ending × State}
    (hc : ∀ (d a em o : Bool) (e : ErrCode) (s : State), c (withOutcomeFlags d a em o e s) ↔ c s)
    (hp : FlagBlind p) (hq : FlagBlind q) : FlagBlind fun s => if c s then p s else q s := by
  intro d a em o e s
  simp only [hc]
  split
  · exact hp d a em o e s
  · exact hq d a em o e s

theorem chanspecDecodeBody_flagBlind : FlagBlind chanspecDecodeBody := by
  refine .ite (fun _ _ _ _ _ _ => .rfl) (fun _ _ _ _ _ _ => rfl) fun d a em o e s => ?_
  change (match csDecode (s.arg[0].extractLsb' 0 16) with | .error e => _ | .ok cs => _) = _
  cases csDecode (s.arg[0].extractLsb' 0 16) <;> rfl

theorem chanspecEncodeBody_flagBlind : FlagBlind chanspecEncodeBody := by
  refine .ite (fun _ _ _ _ _ _ => .rfl) (fun _ _ _ _ _ _ => rfl) fun d a em o e s => ?_
  change (match csEncode (s.arg[0].extractLsb' 0 8).toNat (bandOfCode (s.arg[1].getLsbD 0))
    (bwOperand s.arg[2]) with | none => _ | some v => _) = _
  cases csEncode (s.arg[0].extractLsb' 0 8).toNat (bandOfCode (s.arg[1].getLsbD 0))
    (bwOperand s.arg[2]) <;> rfl

theorem defaultDelayBody_flagBlind : FlagBlind defaultDelayBody :=
  .ite (fun _ _ _ _ _ _ => .rfl) (fun _ _ _ _ _ _ => rfl) fun _ _ _ _ _ _ => rfl

theorem subcarrierClassBody_flagBlind : FlagBlind subcarrierClassBody :=
  .ite (fun _ _ _ _ _ _ => .rfl) (fun _ _ _ _ _ _ => rfl) fun _ _ _ _ _ _ => rfl

theorem unpackCsiBody_flagBlind : FlagBlind unpackCsiBody :=
  .ite (fun _ _ _ _ _ _ => .rfl) (fun _ _ _ _ _ _ => rfl)
    (.ite (fun _ _ _ _ _ _ => .rfl) (fun _ _ _ _ _ _ => rfl) fun _ _ _ _ _ _ => rfl)

theorem decodeFrameBody_flagBlind : FlagBlind decodeFrameBody := by
  refine .ite (fun _ _ _ _ _ _ => .rfl) (fun _ _ _ _ _ _ => rfl) fun d a em o e s => ?_
  change (match frameCheck s with | .error e => _ | .ok bw => _) = _
  cases frameCheck s <;> rfl

theorem flush_withOutcomeFlags (d a em o : Bool) (e : ErrCode) (s : State) :
    flush (withOutcomeFlags d a em o e s) =
      ((flush s).1, withOutcomeFlags d a em o e (flush s).2) := by
  have hcond : (withOutcomeFlags d a em o e s).status.groupActive = s.status.groupActive ∧
    (withOutcomeFlags d a em o e s).grp.mask = s.grp.mask := ⟨rfl, rfl⟩
  unfold flush
  rw [hcond.1, hcond.2]
  split <;> rfl

theorem groupAddBody_flagBlind : FlagBlind groupAddBody := by
  refine .ite (fun _ _ _ _ _ _ => .rfl) (fun _ _ _ _ _ _ => rfl)
    (.ite (fun _ _ _ _ _ _ => .rfl) (fun _ _ _ _ _ _ => rfl)
    (.ite (fun _ _ _ _ _ _ => .rfl) (fun d a em o e s => ?_) fun _ _ _ _ _ _ => rfl))
  rw [flush_withOutcomeFlags]
  rfl

theorem groupTakeBody_flagBlind : FlagBlind groupTakeBody := by
  intro d a em o e s
  rw [groupTakeBody, flush_withOutcomeFlags]
  rfl

theorem aoaBody_flagBlind (cs : Chanspec) : FlagBlind (aoaBody cs) :=
  .ite (fun _ _ _ _ _ _ => .rfl) (fun _ _ _ _ _ _ => rfl)
    (.ite (fun _ _ _ _ _ _ => .rfl) (fun _ _ _ _ _ _ => rfl) fun _ _ _ _ _ _ => rfl)

theorem tofBody_flagBlind (cs : Chanspec) : FlagBlind (tofBody cs) :=
  .ite (fun _ _ _ _ _ _ => .rfl) (fun _ _ _ _ _ _ => rfl) fun _ _ _ _ _ _ => rfl

/-- A completion overwrites four of the flags and keeps OVERRUN. -/
theorem FlagBlind.complete {body : State → Ending × State} (h : FlagBlind body) {s t : State}
    (ht : complete (body s) = .next t) (d a em o : Bool) (e : ErrCode) :
    complete (body (withOutcomeFlags d a em o e s)) =
      .next { t with status := { t.status with overrun := o } } := by
  cases ht
  rw [h d a em o e s]
  rfl

theorem FlagBlind.withSnapshot {body : Chanspec → State → Ending × State}
    (h : ∀ cs, FlagBlind (body cs)) {s t : State} (ht : withSnapshot s body = .next t)
    (d a em o : Bool) (e : ErrCode) :
    withSnapshot (withOutcomeFlags d a em o e s) body =
      .next { t with status := { t.status with overrun := o } } := by
  have hcond : (withOutcomeFlags d a em o e s).status.snapValid = s.status.snapValid ∧
    (withOutcomeFlags d a em o e s).snap = s.snap := ⟨rfl, rfl⟩
  unfold Machine.withSnapshot at ht ⊢
  rw [hcond.1, hcond.2]
  split at ht
  next hv =>
    rw [if_pos hv]
    cases ht
    rfl
  next hv =>
    rw [if_neg hv]
    split at ht
    · cases ht
    next cs _ => exact (h cs).complete ht d a em o e

/-- Settles O57: no check and no write of a command's pseudocode reads one of the five flags. -/
theorem noCommandReadsTheOutcomeFlags : Obligations.NoCommandReadsTheOutcomeFlags := by
  intro i s t d a em o e h
  change exec i (withOutcomeFlags d a em o e s) = _
  cases i
  case nop => exact FlagBlind.complete (body := fun s => (.done, s)) (fun _ _ _ _ _ _ => rfl) h ..
  case chanspecDecode => exact chanspecDecodeBody_flagBlind.complete h ..
  case chanspecEncode => exact chanspecEncodeBody_flagBlind.complete h ..
  case defaultDelay => exact defaultDelayBody_flagBlind.complete h ..
  case subcarrierClass => exact subcarrierClassBody_flagBlind.complete h ..
  case unpackComplex =>
    exact FlagBlind.complete (body := unpackComplexBody) (fun _ _ _ _ _ _ => rfl) h ..
  case unpackCsi => exact unpackCsiBody_flagBlind.complete h ..
  case decodeFrame => exact decodeFrameBody_flagBlind.complete h ..
  case groupAdd => exact groupAddBody_flagBlind.complete h ..
  case groupTake => exact groupTakeBody_flagBlind.complete h ..
  case aoa => exact FlagBlind.withSnapshot aoaBody_flagBlind h ..
  case tof => exact FlagBlind.withSnapshot tofBody_flagBlind h ..

/-! ### Failed commands -/

theorem flush_keepsFrame (s : State) :
    (flush s).2.res = s.res ∧ KeepsFrame s (flush s).2 ∧ KeepsAngles s (flush s).2 := by
  rcases flush_eq s with ⟨-, -, hf⟩ | ⟨-, hf⟩ <;> rw [hf] <;>
    exact ⟨rfl, ⟨rfl, rfl, rfl⟩, ⟨rfl, rfl⟩⟩

/-- Settles O56: an error is an ending without a write, but for DECODE_FRAME's clear; ABSENT is one
without a write, or one that writes the grouper only. -/
theorem failedCommandsWriteNothing : Obligations.FailedCommandsWriteNothing := by
  intro i s t h
  obtain ⟨hres, hframe, hangles⟩ := flush_keepsFrame s
  rcases exec_cases h with ⟨e, -, rfl⟩ | ⟨vs, rfl⟩ | ⟨-, bw, rfl⟩ | ⟨hi, e, -, rfl⟩ |
    ⟨-, bw, -, rfl⟩ | ⟨-, -, -, -, rfl⟩ | ⟨-, -, -, -, rfl⟩ | ⟨-, rfl⟩ | ⟨-, -, cs, -, rfl⟩
  · refine ⟨fun _ => ⟨rfl, rfl, rfl, ⟨rfl, rfl⟩, ⟨rfl, rfl⟩, ⟨rfl, rfl⟩, .inl rfl⟩, fun ha => ?_⟩
    obtain rfl : e = .absent := of_decide_eq_true ha
    exact ⟨rfl, ⟨rfl, rfl, rfl⟩, ⟨rfl, rfl⟩, rfl⟩
  · exact ⟨fun he => absurd rfl he, nofun⟩
  · exact ⟨fun he => absurd rfl he, nofun⟩
  · exact ⟨fun _ => ⟨rfl, rfl, rfl, ⟨rfl, rfl⟩, ⟨rfl, rfl⟩, ⟨rfl, rfl⟩, .inr ⟨hi, rfl⟩⟩, nofun⟩
  · exact ⟨fun he => absurd rfl he, nofun⟩
  · exact ⟨fun he => absurd (flushEnding_err _) he, fun _ => ⟨hres,
      ⟨hframe.frm, hframe.coefBuf, hframe.valid⟩, ⟨hangles.aoa0, hangles.aoa1⟩, flushEnding_err _⟩⟩
  · exact ⟨fun he => absurd rfl he, fun _ => ⟨rfl, ⟨rfl, rfl, rfl⟩, ⟨rfl, rfl⟩, rfl⟩⟩
  · exact ⟨fun he => absurd (flushEnding_err _) he, fun _ => ⟨hres,
      ⟨hframe.frm, hframe.coefBuf, hframe.valid⟩, ⟨hangles.aoa0, hangles.aoa1⟩, flushEnding_err _⟩⟩
  · exact ⟨fun he => absurd rfl he, nofun⟩

/-! ### The interrupt -/

/-- Every completion sets DONE. -/
theorem exec_done {i : Instr} {s t : State} (h : exec i s = .next t) : t.status.done = true := by
  rcases exec_cases h with ⟨e, -, rfl⟩ | ⟨vs, rfl⟩ | ⟨-, bw, rfl⟩ | ⟨-, e, -, rfl⟩ |
    ⟨-, bw, -, rfl⟩ | ⟨-, -, -, -, rfl⟩ | ⟨-, -, -, -, rfl⟩ | ⟨-, rfl⟩ | ⟨-, -, cs, -, rfl⟩
  all_goals rfl

theorem irq_of_done {t : State} (h : t.status.done = true) : irq t = t.irqEn := by
  rw [irq, h, Bool.and_true]

theorem irq_exec {i : Instr} {s t : State} (h : exec i s = .next t) : irq t = s.irqEn :=
  (irq_of_done (exec_done h)).trans (noCommandWritesItsInputs i s t h).irqEn

/-- Settles O20: irq is IRQ_EN and DONE; a completion sets DONE and a start clears it. -/
theorem interruptFollowsDoneAndEnable : Obligations.InterruptFollowsDoneAndEnable := by
  refine ⟨fun i s t => irq_exec, fun s t w hbusy h => ?_, fun s => ?_, fun s w => ?_⟩
  · rw [step_of_busy_zero hbusy] at h
    rcases runLatched_eq w s with ⟨i, -, hrun⟩ | ⟨-, -, hrun⟩ <;> rw [hrun] at h
    · exact ⟨exec_done h, irq_exec h⟩
    · cases h
      exact ⟨rfl, irq_of_done rfl⟩
  · exact ⟨{ s with irqEn := true }, rfl, Bool.true_and _⟩
  · exact Bool.and_false _

/-- Settles O11: every field of the reset state is 0 and every buffer is empty. -/
theorem resetStateAsSpecified : Obligations.ResetStateAsSpecified :=
  ⟨rfl, rfl, rfl, by decide, by decide, by decide, by decide, by decide, rfl, rfl,
    fun _ => ⟨rfl, rfl, rfl, rfl, rfl, rfl⟩⟩

end Sys2Proof.Machine
end

section
/-! O5 and O6. Command start and the run of a command to its completion (spec 45_control.md R220,
R221; 30_encoding.md R90; 70_reset_and_hazards.md R262). -/

namespace Sys2Proof.Machine

/-- Settles O5: the step that serves the CMD write is `startCommand`. -/
theorem cmdWriteStartsACommand : Obligations.CmdWriteStartsACommand := fun s _ _ hidle hscript =>
  ⟨_, latency s.draws, step_cmdWrite hidle hscript, rfl, Nat.min_le_right _ _, rfl, rfl, rfl, rfl,
    rfl, rfl, rfl, rfl, rfl, rfl, rfl, rfl, ⟨rfl, rfl, rfl⟩, ⟨rfl, rfl⟩, ⟨rfl, rfl⟩, ⟨rfl, rfl⟩⟩

/-! ### Runs -/

theorem runSteps_one (s : State) : runSteps 1 s = step s := by
  unfold runSteps
  cases step s <;> rfl

theorem runSteps_succ {k : Nat} {s t : State} (h : step s = .next t) :
    runSteps (k + 1) s = runSteps k t := by
  rw [runSteps, h]

/-- A run goes on from where its first part ends. -/
theorem runSteps_add {a b : Nat} {s t : State} (h : runSteps a s = .next t) :
    runSteps (a + b) s = runSteps b t := by
  induction a generalizing s with
  | zero => cases h; rw [Nat.zero_add]
  | succ a ih =>
    cases hs : step s with
    | next u =>
      rw [runSteps_succ hs] at h
      rw [Nat.add_right_comm, runSteps_succ hs, ih h]
    | fault f => rw [runSteps, hs] at h; cases h
    | refused r => rw [runSteps, hs] at h; cases h

/-! ### The host while a command runs -/

/-- The host issues nothing, or waits for a DONE that is still 0. -/
def HostQuiet (s : State) : Prop :=
  s.script = [] ∨ s.status.done = false ∧ ∃ rest, s.script = .wait :: rest

/-- A bus cycle of a quiet host only passes. -/
theorem hostCycle_of_quiet {s : State} (h : HostQuiet s) : hostCycle s = .next (nextDraw s) := by
  rcases h with hempty | ⟨hdone, rest, hwait⟩
  · rw [hostCycle, hempty]
  · rw [hostCycle_of_script hwait, serve_wait]
    dsimp only
    rw [hdone, if_neg Bool.false_ne_true, ← hwait]

theorem step_of_busy_succ {s : State} {w : Word} {left : Nat} (h : s.seqr = .busy w (left + 1)) :
    step s = hostCycle { s with seqr := .busy w left } := by
  rw [step, h]

/-- With a quiet host a running word counts its bus cycles down and then runs. -/
theorem runSteps_countdown {w : Word} {left : Nat} {s : State} (h : s.seqr = .busy w left)
    (hq : HostQuiet s) :
    runSteps (left + 1) s = runLatched w { s with seqr := .busy w 0, draws := s.draws + left } := by
  induction left generalizing s with
  | zero => rw [runSteps_one, step_of_busy_zero h, Nat.add_zero, ← h]
  | succ left ih =>
    have hstep : step s = .next (nextDraw { s with seqr := .busy w left }) := by
      rw [step_of_busy_succ h]
      exact hostCycle_of_quiet hq
    have hdraws : s.draws + 1 + left = s.draws + (left + 1) := by omega
    rw [runSteps_succ hstep, ih (s := nextDraw { s with seqr := .busy w left }) rfl hq,
      nextDraw_draws, hdraws]
    rfl

/-- The frame of a completion does not speak of the cycles left or of the draws. -/
theorem OnlyCompletes.of_sequencer {e : ErrCode} {absent : Bool} {s t : State} {q : Sequencer}
    {n : Nat} (h : OnlyCompletes e absent { s with seqr := q, draws := n } t) :
    OnlyCompletes e absent s t where
  status := { h.status with }
  inputs := { h.inputs with }
  results := h.results
  frame := { h.frame with }
  group := { h.group with }
  snapshot := { h.snapshot with }
  angles := { h.angles with }

/-! ### A wait -/

theorem step_wait {s : State} {rest : List HostOp} (hidle : s.seqr = .idle)
    (hscript : s.script = .wait :: rest) :
    step s = .next
      { s with script := if s.status.done then rest else s.script, draws := s.draws + 1 } := by
  rw [step_of_idle hidle, hostCycle_of_script hscript, serve_wait, hscript]
  rfl

/-- Every completion leaves the sequencer idle. -/
theorem exec_idle {i : Instr} {s t : State} (h : exec i s = .next t) : t.seqr = .idle := by
  rcases exec_cases h with ⟨e, -, rfl⟩ | ⟨vs, rfl⟩ | ⟨-, bw, rfl⟩ | ⟨-, e, -, rfl⟩ |
    ⟨-, bw, -, rfl⟩ | ⟨-, -, -, -, rfl⟩ | ⟨-, -, -, -, rfl⟩ | ⟨-, rfl⟩ | ⟨-, -, cs, -, rfl⟩
  all_goals rfl

/-- After a completion with `wait` pending, the next step serves it. -/
theorem step_wait_of_exec {i : Instr} {s t : State} {rest : List HostOp}
    (hscript : s.script = .wait :: rest) (h : exec i s = .next t) :
    step t = .next { t with script := rest, draws := t.draws + 1 } := by
  have hkeeps := (noCommandWritesItsInputs i s t h).script
  rw [step_wait (exec_idle h) (hkeeps.trans hscript), exec_done h]
  rfl

/-- Settles O6: the cycles are counted down while the host is quiet, then the word runs; a pending
`wait` keeps the host quiet until DONE is 1. -/
theorem runningCommandCompletesInTime : Obligations.RunningCommandCompletesInTime := by
  refine ⟨fun s w left hbusy hq => ⟨fun i hi => ?command, fun hw => ?illegal⟩,
    fun s rest hidle hscript => step_wait hidle hscript, fun s w i rest hidle hscript hi => ?started⟩
  case command => rw [runSteps_countdown hbusy hq, runLatched_of_decode hi]
  case illegal =>
    refine ⟨_, ?_, (onlyCompletes_raise .illegalCommand
      { s with seqr := .busy w 0, draws := s.draws + left }).of_sequencer⟩
    rw [runSteps_countdown hbusy hq, runLatched_of_ne_encode hw]
  case started =>
    refine ⟨_, latency s.draws, step_cmdWrite hidle hscript, rfl, Nat.min_le_right _ _, rfl,
      fun t ht => ?_⟩
    have hrun := runSteps_countdown (left := latency s.draws)
      (s := nextDraw (startCommand w { s with script := .wait :: rest })) rfl (.inr ⟨rfl, rest, rfl⟩)
    rw [runLatched_of_decode hi, ht] at hrun
    rw [runSteps_succ (step_cmdWrite hidle hscript), runSteps_add (b := 1) hrun, runSteps_one]
    exact step_wait_of_exec rfl ht

end Sys2Proof.Machine
end

section
/-! O7, O8, O10, O12 to O19. The host bus (spec 10_state.md R21 to R34; 20_memory.md R60 to R68;
45_control.md R225, R227; 70_reset_and_hazards.md R250, R252). -/

namespace Sys2Proof.Machine

/-! ### Writes that a running command drops -/

theorem unlessBusy_of_busy {f : State → State} {s : State} (h : isBusy s = true) :
    unlessBusy f s = setOverrun s := by
  rw [unlessBusy, if_pos h]

theorem unlessBusy_of_not_busy {f : State → State} {s : State} (h : isBusy s = false) :
    unlessBusy f s = f s := by
  rw [unlessBusy, h, if_neg Bool.false_ne_true]

theorem busWrite_cmd (s : State) (v : Word) :
    busWrite s 0x008 .w32 v = .ok (unlessBusy (startCommand v) s) := rfl

theorem busWrite_inLen (s : State) (v : Word) :
    busWrite s 0x00C .w32 v =
      .ok (unlessBusy (fun s => { s with inLen := v.setWidth 13 }) s) := rfl

theorem busWrite_arg (s : State) (k : Fin 4) (v : Word) :
    busWrite s (0x010 + 4 * k.val) .w32 v = .ok (unlessBusy (writeArg k.val v) s) := by
  fin_cases k <;> rfl

/-- An aligned write to IN_BUF, before BUSY is looked at. -/
theorem busWrite_inBuf_unlessBusy {off : Nat} {w : Width} (h1 : 0x1000 ≤ off) (h2 : off < 0x2000)
    (ha : off % w.bytes = 0) (s : State) (v : Word) :
    busWrite s off w v =
      .ok (unlessBusy (fun s =>
        { s with inBuf := Sparse.writeFrom s.inBuf (off - 0x1000) (writeBytes w v) }) s) := by
  have hregion : regionOf off = .inBuf := (regionOf_interval off).2.1 h1 h2
  rw [busWrite, accessStop_none (by omega) ha (.inr ⟨h1, h2⟩), writeEffect, hregion]

/-- Settles O7: each of these writes goes through `unlessBusy`. -/
theorem writesWhileBusyAreDropped : Obligations.WritesWhileBusyAreDropped := by
  rintro s off w v hbusy (⟨hoff, rfl⟩ | ⟨h1, h2, ha⟩)
  · have harg (k : Fin 4) : busWrite s (0x010 + 4 * k.val) .w32 v = .ok (setOverrun s) := by
      rw [busWrite_arg, unlessBusy_of_busy hbusy]
    simp only [List.mem_cons, List.not_mem_nil, or_false] at hoff
    rcases hoff with rfl | rfl | rfl | rfl | rfl | rfl
    · rw [busWrite_cmd, unlessBusy_of_busy hbusy]; rfl
    · rw [busWrite_inLen, unlessBusy_of_busy hbusy]; rfl
    · exact harg 0
    · exact harg 1
    · exact harg 2
    · exact harg 3
  · rw [busWrite_inBuf_unlessBusy h1 h2 ha, unlessBusy_of_busy hbusy]; rfl

/-! ### Operand registers -/

theorem writeArg_same (k : Fin 4) (v : Word) (s : State) : (writeArg k.val v s).arg[k] = v := by
  simp

theorem writeArg_other {j k : Fin 4} (h : j ≠ k) (v : Word) (s : State) :
    (writeArg k.val v s).arg[j] = s.arg[j] := by
  simp [Fin.val_ne_of_ne h]

/-- The word of ARG `k`. -/
theorem regWord_arg (s : State) (k : Fin 4) : regWord s (0x010 + 4 * k.val) = s.arg[k] := by
  have hk := k.isLt
  unfold regWord
  simp (disch := omega) only [if_neg, if_pos]
  rw [show (0x010 + 4 * k.val - 0x010) / 4 = k.val by omega, getD_toList]

theorem busRead_arg (s : State) (k : Fin 4) :
    busRead s (0x010 + 4 * k.val) .w32 = .ok s.arg[k] := by
  have := k.isLt
  rw [busRead_steady (by omega) (by omega), regWord_arg]

theorem busRead_inLen (s : State) : busRead s 0x00C .w32 = .ok (BitVec.ofNat 32 s.inLen.toNat) := by
  rw [busRead_steady (by decide) (by decide), BitVec.ofNat_toNat]
  rfl

/-- Settles O8: while no command runs the write is `writeArg`, or the store of bits 12:0. -/
theorem operandWritesReadBack : Obligations.OperandWritesReadBack := by
  intro s v hidle
  refine ⟨fun k => ⟨writeArg k.val v s, ?_, writeArg_same k v s, fun j h => writeArg_other h v s, ?_,
    rfl⟩, { s with inLen := v.setWidth 13 }, ?_, BitVec.toNat_setWidth 13 v, ?_, rfl⟩
  · rw [busWrite_arg, unlessBusy_of_not_busy hidle]
  · rw [busRead_arg, writeArg_same]
  · rw [busWrite_inLen, unlessBusy_of_not_busy hidle]
  · rw [busRead_inLen, BitVec.toNat_setWidth]

/-! ### CTRL and reset -/

theorem busWrite_ctrl (s : State) (v : Word) : busWrite s 0x000 .w32 v = .ok (writeCtrl v s) := rfl

theorem hostCycle_resetInput {s : State} {rest : List HostOp}
    (h : s.script = .resetInput :: rest) :
    hostCycle s = .next { State.reset with draws := s.draws + 1, script := rest, log := s.log } := by
  rw [hostCycle_of_script h]
  rfl

/-- A step that serves the host: the sequencer is idle, or a command has bus cycles left. -/
theorem step_of_serving {s : State}
    (h : s.seqr = .idle ∨ ∃ w left, s.seqr = .busy w (left + 1)) :
    ∃ q, step s = hostCycle { s with seqr := q } ∧ (s.seqr = .idle → q = .idle) ∧
      ∀ w left, s.seqr = .busy w (left + 1) → q = .busy w left := by
  rcases h with hidle | ⟨w, left, hbusy⟩
  · refine ⟨.idle, ?_, fun _ => rfl, fun w left hb => ?_⟩
    · rw [step_of_idle hidle, ← hidle]
    · rw [hidle] at hb; cases hb
  · refine ⟨.busy w left, step_of_busy_succ hbusy, fun hi => ?_, fun w' left' hb => ?_⟩
    · rw [hbusy] at hi; cases hi
    · rw [hbusy] at hb; cases hb; rfl

/-- Settles O10: SOFT_RESET and the reset input are both `resetBlock`. -/
theorem ctrlWriteEnablesOrResets : Obligations.CtrlWriteEnablesOrResets := by
  refine ⟨fun s v => ⟨_, busWrite_ctrl s v, fun hv => ?_, fun hv => ?_⟩,
    fun s rest hscript hserving => ?_⟩
  · rw [writeCtrl, hv, if_neg Bool.false_ne_true]
  · rw [writeCtrl, if_pos hv]
    exact ⟨rfl, rfl, rfl, rfl⟩
  · obtain ⟨q, hstep, -⟩ := step_of_serving hserving
    rw [hstep]
    exact hostCycle_resetInput (s := { s with seqr := q }) hscript

/-! ### Accesses -/

theorem busWrite_of_stop {off : Nat} {w : Width} {e : BusStop} (h : accessStop off w = some e)
    (s : State) (v : Word) : busWrite s off w v = .error e := by
  rw [busWrite, h]

theorem busRead_of_stop {off : Nat} {w : Width} {e : BusStop} (h : accessStop off w = some e)
    (s : State) : busRead s off w = .error e := by
  rw [busRead, h]

theorem busWrite_of_none {off : Nat} {w : Width} (h : accessStop off w = none) (s : State)
    (v : Word) : busWrite s off w v = .ok (writeEffect off w v s) := by
  rw [busWrite, h]

theorem busRead_of_none {off : Nat} {w : Width} (h : accessStop off w = none) (s : State) :
    busRead s off w = .ok (readValue s off w) := by
  rw [busRead, h]

theorem accessStop_outside {off : Nat} (h : 0x30000 ≤ off) (w : Width) :
    accessStop off w = some (.refused .platformAddress) := by
  rw [accessStop, if_pos h]

/-- A bus cycle whose operation is an access that a check stops. -/
theorem hostCycle_stop {s : State} {off : Nat} {w : Width} {v : Word} {name : String}
    {rest : List HostOp} {e : BusStop}
    (h : s.script = .write off w v :: rest ∨ s.script = .read off w name :: rest)
    (he : accessStop off w = some e) : hostCycle s = e.outcome := by
  rcases h with h | h <;> rw [hostCycle_of_script h]
  · exact (serve_stop v name he).1
  · exact (serve_stop v name he).2

theorem hostCycle_write {s : State} {off : Nat} {w : Width} {v : Word} {rest : List HostOp}
    (h : s.script = .write off w v :: rest) (he : accessStop off w = none) :
    hostCycle s = .next (nextDraw (writeEffect off w v { s with script := rest })) := by
  rw [hostCycle_of_script h, serve_write v he]

/-- Settles O12: `accessStop` decides every access before the state is looked at. -/
theorem busAccessesAreServedOrFault : Obligations.BusAccessesAreServedOrFault := by
  refine ⟨fun s off w v hin => ?answers, fun s off w v name rest hscript hserving => ?stops,
    fun s off w v rest hscript hwf => ?writes⟩
  case answers =>
    rcases accessStop_cases off w hin with ⟨hnone, hgood⟩ | ⟨f, hstop, hbad⟩
    · rw [busWrite_of_none hnone, busRead_of_none hnone]
      exact ⟨⟨nofun, fun hbad => absurd hgood hbad⟩, ⟨nofun, fun hbad => absurd hgood hbad⟩,
        fun r => ⟨nofun, nofun⟩⟩
    · rw [busWrite_of_stop hstop, busRead_of_stop hstop]
      exact ⟨⟨fun _ => hbad, fun _ => ⟨f, rfl⟩⟩, ⟨fun _ => hbad, fun _ => ⟨f, rfl⟩⟩,
        fun r => ⟨nofun, nofun⟩⟩
  case stops =>
    obtain ⟨q, hstep, -⟩ := step_of_serving hserving
    rw [hstep]
    refine ⟨fun hin hbad => ?_, fun hout => ?_⟩
    · rcases accessStop_cases off w hin with ⟨-, hgood⟩ | ⟨f, hstop, -⟩
      · exact absurd hgood hbad
      · exact ⟨f, busWrite_of_stop hstop s v, busRead_of_stop hstop s,
          hostCycle_stop (s := { s with seqr := q }) hscript hstop⟩
    · exact hostCycle_stop (s := { s with seqr := q }) hscript (accessStop_outside hout w)
  case writes =>
    have hnone := accessStop_none_of_wellFormed hwf
    refine ⟨fun hidle => ⟨_, busWrite_of_none hnone _ v, ?_⟩,
      fun word left hbusy => ⟨_, busWrite_of_none hnone _ v, ?_⟩⟩
    · rw [step_of_idle hidle]
      exact hostCycle_write hscript hnone
    · rw [step_of_busy_succ hbusy]
      exact hostCycle_write (s := { s with seqr := .busy word left }) hscript hnone

/-- Settles O17: the value read depends neither on the script nor on the bus cycles left. -/
theorem readsHaveNoSideEffect : Obligations.ReadsHaveNoSideEffect := by
  intro s off w name rest hscript hwf
  have hnone := accessStop_none_of_wellFormed hwf
  refine ⟨_, busRead_of_none hnone s, fun hidle => ?_, fun word left hbusy => ?_⟩
  · rw [step_of_idle hidle, hostCycle_of_script hscript, serve, busRead_of_none hnone]
    rfl
  · rw [step_of_busy_succ hbusy, hostCycle_of_script (s := { s with seqr := .busy word left }) hscript,
      serve, busRead_of_none hnone, ← readValue_left hbusy left off w]
    rfl

/-! ### IN_BUF -/

theorem memRead_one (s : State) (a : Nat) : memRead s a 1 = (inByte s a).toNat := by
  simp [memRead, inBytes, leNat]

/-- Byte `k` of a word. -/
theorem byte_eq_ofNat (v : Word) (k : Nat) :
    v.extractLsb' (8 * k) 8 = BitVec.ofNat 8 (v.toNat / 256 ^ k) := by
  apply BitVec.eq_of_toNat_eq
  rw [BitVec.extractLsb'_toNat, BitVec.toNat_ofNat, Nat.shiftRight_eq_div_pow, Nat.pow_mul]

/-- A write names the bytes of its width. -/
theorem read?_writeBytes_inside (m : Memory) (a : Nat) (v : Word) {w : Width} {k : Nat}
    (hk : k < w.bytes) :
    Sparse.read? (Sparse.writeFrom m a (writeBytes w v)) (a + k) =
      some (BitVec.ofNat 8 (v.toNat / 256 ^ k)) := by
  rw [read?_writeBytes, if_pos (by omega), Nat.add_sub_cancel_left, byte_eq_ofNat]

theorem read?_writeBytes_outside (m : Memory) (v : Word) {a b : Nat} {w : Width}
    (h : b < a ∨ a + w.bytes ≤ b) :
    Sparse.read? (Sparse.writeFrom m a (writeBytes w v)) b = Sparse.read? m b := by
  rw [read?_writeBytes, if_neg (by omega)]

/-- A word is the sum of its bytes (20_memory.md R67). -/
theorem memRead_four_of_bytes {s : State} {a : Nat} {v : Word}
    (h : ∀ k < 4, (inByte s (a + k)).toNat = v.toNat / 256 ^ k % 256) :
    memRead s a 4 = v.toNat := by
  have hv := v.isLt
  have h0 : (inByte s a).toNat = v.toNat / 256 ^ 0 % 256 := h 0 (by decide)
  rw [memRead_four, h0, h 1 (by decide), h 2 (by decide), h 3 (by decide)]
  omega

/-- Settles O13: the write stores the four bytes of the word, which the reads put together again. -/
theorem inBufWordWriteReadsBackByBytes : Obligations.InBufWordWriteReadsBackByBytes := by
  intro s a v hidle ha hlt
  have haligned : (0x1000 + a) % 4 = 0 := by omega
  refine ⟨_, busWrite_inBuf v hidle hlt haligned, ?_⟩
  generalize ht : { s with inBuf := Sparse.writeFrom s.inBuf a (writeBytes .w32 v) } = t
  have hbyte : ∀ k < 4, (inByte t (a + k)).toNat = v.toNat / 256 ^ k % 256 := fun k hk => by
    rw [← ht, inByte_of_read? (read?_writeBytes_inside s.inBuf a v (w := .w32) hk),
      BitVec.toNat_ofNat]
  refine ⟨fun k hk => ?_, ?_, fun b hb => ?_, ?_⟩
  · rw [Nat.add_assoc, busRead_inBuf (by omega) (Nat.mod_one _), Width.bytes, memRead_one,
      hbyte k hk]
  · rw [busRead_inBuf (w := .w32) hlt haligned, Width.bytes, memRead_four_of_bytes hbyte, BitVec.ofNat_toNat,
      BitVec.setWidth_eq]
  · rw [← ht]
    exact read?_writeBytes_outside s.inBuf v (w := .w32) hb
  · rw [← ht]

/-- Settles O14: a write stores the bytes of its width and no other. -/
theorem narrowInBufWritesNameTheirBytes : Obligations.NarrowInBufWritesNameTheirBytes := by
  intro s a v hidle hlt
  have hfirst (w : Width) (hw : 0 < w.bytes) :
      Sparse.read? (Sparse.writeFrom s.inBuf a (writeBytes w v)) a =
        some (BitVec.ofNat 8 v.toNat) := by
    have := read?_writeBytes_inside s.inBuf a v hw
    rwa [Nat.pow_zero, Nat.div_one] at this
  have haligned (h : a % 2 = 0) : (0x1000 + a) % 2 = 0 := by omega
  refine ⟨⟨_, busWrite_inBuf v hidle hlt (Nat.mod_one _), ?_, fun b hb => ?_, rfl⟩, fun ha =>
    ⟨_, busWrite_inBuf v hidle hlt (haligned ha), hfirst .w16 (by decide), ?_, fun b hb hb' => ?_,
      rfl⟩⟩
  · rw [← BitVec.ofNat_toNat]
    exact hfirst .w8 (by decide)
  · exact read?_writeBytes_outside s.inBuf v (w := .w8) (show b < a ∨ a + 1 ≤ b by omega)
  · exact read?_writeBytes_inside s.inBuf a v (w := .w16) (k := 1) (by decide)
  · exact read?_writeBytes_outside s.inBuf v (w := .w16) (show b < a ∨ a + 2 ≤ b by omega)

/-! ### Read-only and reserved offsets -/

/-- Only the registers below RES0 and IN_BUF take a write. -/
theorem writeEffect_of_not_writable {off : Nat}
    (h : 0x020 ≤ off ∧ off < 0x1000 ∨ 0x2000 ≤ off) (w : Width) (v : Word) (s : State) :
    writeEffect off w v s = s := by
  unfold writeEffect
  split
  · unfold writeReg
    simp (disch := omega) only [if_neg]
  next hin =>
    have := offset_of_regionOf_inBuf hin
    omega
  · rfl

/-- Settles O15: the effect of a write looks at no offset of these ranges. -/
theorem readOnlyAndReservedWritesIgnored : Obligations.ReadOnlyAndReservedWritesIgnored := by
  intro s off v ha h
  rw [busWrite_of_none (accessStop_none (by omega) ha (.inl rfl)),
    writeEffect_of_not_writable (by omega)]

theorem regionOf_reserved {off : Nat}
    (h : 0x100 ≤ off ∧ off < 0x1000 ∨ 0x6000 ≤ off ∧ off < 0x10000) :
    regionOf off = .reserved := by
  unfold regionOf
  rcases h with h | h
  · rw [if_neg (by omega), if_pos (by omega)]
  · simp (disch := omega) only [if_neg, if_pos]

theorem regWord_reserved (s : State) {off : Nat}
    (h : 0x06C ≤ off ∧ off < 0x080 ∨ 0x0A0 ≤ off ∧ off < 0x0C0) : regWord s off = 0 := by
  unfold regWord
  rcases h with h | h <;> simp (disch := omega) only [if_neg, if_pos]

theorem isResultReg_reserved {off : Nat}
    (h : 0x06C ≤ off ∧ off < 0x080 ∨ 0x0A0 ≤ off ∧ off < 0x0C0) : isResultReg off = false := by
  simp only [isResultReg, Bool.or_eq_false_iff, decide_eq_false_iff_not]
  omega

theorem readValue_reserved (s : State) {off : Nat}
    (h : 0x06C ≤ off ∧ off < 0x080 ∨ 0x0A0 ≤ off ∧ off < 0x0C0 ∨
      0x100 ≤ off ∧ off < 0x1000 ∨ 0x6000 ≤ off ∧ off < 0x10000) (w : Width) :
    readValue s off w = 0 := by
  by_cases hreg : off < 0x100
  · rw [readValue, (regionOf_interval off).1 hreg, isResultReg_reserved (by omega), Bool.and_false]
    exact regWord_reserved s (by omega)
  · rw [readValue, regionOf_reserved (by omega)]

/-- Settles O16: CMD has the word 0, and the reserved offsets read 0 wherever they lie. -/
theorem cmdAndReservedOffsetsReadZero : Obligations.CmdAndReservedOffsetsReadZero := by
  rintro s off ha (rfl | h)
  · exact busRead_steady (by decide) (by decide)
  · rw [busRead_of_none (accessStop_none (by omega) ha (.inl rfl)), readValue_reserved s h]

end Sys2Proof.Machine
end

section
/-! O18 and O19. What the registers, the windows and STATUS read as (spec 10_state.md R21 to R33;
20_memory.md R60, R68; 30_encoding.md R88). -/

namespace Sys2Proof.Machine

/-! ### The windows of binary64 numbers -/

/-- Word `c` of stored entry `j` of COEF_BUF. -/
theorem busRead_coefBuf_word {s : State} {off j c : Nat} {z : Cplx} (hb : isBusy s = false)
    (hj : j < 512) (hz : Sparse.read? s.coefBuf j = some z) (hc : c < 4)
    (h : off = 0x2000 + 16 * j + 4 * c) :
    busRead s off .w32 = .ok (f64Half (if c < 2 then z.re else z.im) (decide (c % 2 = 1))) := by
  rw [busRead_coefBuf hb (by omega) (by omega) (by omega), cplxWindowWord_eq hz hc h]

/-- Word `c` of a stored entry of SNAP_GRID, by its key. -/
theorem busRead_snapGrid_word {s : State} {off a c : Nat} {z : Cplx} (hb : isBusy s = false)
    (ha : a < 8192) (hz : Sparse.read? s.snap.grid a = some z) (hc : c < 4)
    (h : off = 0x10000 + 16 * a + 4 * c) :
    busRead s off .w32 = .ok (f64Half (if c < 2 then z.re else z.im) (decide (c % 2 = 1))) := by
  rw [busRead_snapGrid hb (by omega) (by omega) (by omega), cplxWindowWord_eq hz hc h]

/-- Word `c` of stored entry `j` of AOA0. -/
theorem busRead_aoa0_word {s : State} {off j c : Nat} {v : F64} (hb : isBusy s = false)
    (hj : j < 512) (hv : Sparse.read? s.aoa0 j = some v) (hc : c < 2)
    (h : off = 0x4000 + 8 * j + 4 * c) :
    busRead s off .w32 = .ok (f64Half v (decide (c = 1))) := by
  rw [busRead_aoa0 hb (by omega) (by omega) (by omega), f64WindowWord_eq hv hc h]

/-- Word `c` of stored entry `j` of AOA1. -/
theorem busRead_aoa1_word {s : State} {off j c : Nat} {v : F64} (hb : isBusy s = false)
    (hj : j < 512) (hv : Sparse.read? s.aoa1 j = some v) (hc : c < 2)
    (h : off = 0x5000 + 8 * j + 4 * c) :
    busRead s off .w32 = .ok (f64Half v (decide (c = 1))) := by
  rw [busRead_aoa1 hb (by omega) (by omega) (by omega), f64WindowWord_eq hv hc h]

/-! ### The registers -/

theorem ctrlWord_eq (s : State) : ctrlWord s = if s.irqEn then 1 else 0 := by
  rw [ctrlWord, bitAt]
  split <;> rfl

theorem busRead_res {s : State} (hb : isBusy s = false) (k : Fin 8) :
    busRead s (0x020 + 4 * k.val) .w32 = .ok s.res[k] := by
  have := k.isLt
  rw [busRead_register hb (by omega) (by omega), regWord_res]

theorem busRead_snapLen {s : State} (hb : isBusy s = false) (k : Fin 16) :
    busRead s (0x0C0 + 4 * k.val) .w32 = .ok (s.snap.len[k].setWidth 32) := by
  have := k.isLt
  rw [busRead_register hb (by omega) (by omega), regWord_snapLen]

/-- Settles O18: each register has its word, and each stored entry the words of its numbers. -/
theorem windowsShowStoredNumbers : Obligations.WindowsShowStoredNumbers := by
  intro s hb
  simp only [BitVec.ofNat_toNat]
  have reg {off : Nat} (h : off % 4 = 0) (h1 : off < 0x100) :
      busRead s off .w32 = .ok (regWord s off) := busRead_register hb h h1
  refine ⟨⟨?ctrl, busRead_res hb⟩, ?frm, ?grp, ?snap, ?coef, ?grid, ?aoa0, ?aoa1⟩
  case ctrl => rw [reg (by decide) (by decide), ← ctrlWord_eq]; rfl
  case frm =>
    exact ⟨reg (by decide) (by decide), reg (by decide) (by decide), reg (by decide) (by decide),
      reg (by decide) (by decide), reg (by decide) (by decide), reg (by decide) (by decide),
      reg (by decide) (by decide), reg (by decide) (by decide), reg (by decide) (by decide),
      reg (by decide) (by decide), reg (by decide) (by decide)⟩
  case grp =>
    exact ⟨reg (by decide) (by decide), reg (by decide) (by decide), reg (by decide) (by decide),
      reg (by decide) (by decide)⟩
  case snap =>
    exact ⟨reg (by decide) (by decide), reg (by decide) (by decide), reg (by decide) (by decide),
      reg (by decide) (by decide), busRead_snapLen hb⟩
  case coef =>
    intro j z hj hz
    exact ⟨busRead_coefBuf_word (c := 0) hb hj hz (by decide) (by omega),
      busRead_coefBuf_word (c := 1) hb hj hz (by decide) (by omega),
      busRead_coefBuf_word (c := 2) hb hj hz (by decide) (by omega),
      busRead_coefBuf_word (c := 3) hb hj hz (by decide) (by omega)⟩
  case grid =>
    intro k j z hj hz
    have hkey : 512 * k.val + j < 8192 := by omega
    exact ⟨busRead_snapGrid_word (c := 0) hb hkey hz (by decide) (by omega),
      busRead_snapGrid_word (c := 1) hb hkey hz (by decide) (by omega),
      busRead_snapGrid_word (c := 2) hb hkey hz (by decide) (by omega),
      busRead_snapGrid_word (c := 3) hb hkey hz (by decide) (by omega)⟩
  case aoa0 =>
    intro j v hj hv
    exact ⟨busRead_aoa0_word (c := 0) hb hj hv (by decide) (by omega),
      busRead_aoa0_word (c := 1) hb hj hv (by decide) (by omega)⟩
  case aoa1 =>
    intro j v hj hv
    exact ⟨busRead_aoa1_word (c := 0) hb hj hv (by decide) (by omega),
      busRead_aoa1_word (c := 1) hb hj hv (by decide) (by omega)⟩

/-! ### STATUS -/

theorem bitAt_eq (b : Bool) (k : Nat) : bitAt b k = b.toNat * 2 ^ k := by
  cases b <;> simp [bitAt]

/-- STATUS as the sum of its fields at their places (10_state.md R23). -/
theorem statusWord_toNat (s : State) :
    (statusWord s).toNat = (isBusy s).toNat + 2 * s.status.done.toNat + 4 * s.status.absent.toNat +
      8 * s.status.emitted.toNat + 16 * s.status.overrun.toNat +
      256 * (errCode s.status.err).toNat + 65536 * s.status.frameValid.toNat +
      131072 * s.status.groupActive.toNat + 262144 * s.status.snapValid.toNat := by
  have := (errCode s.status.err).isLt
  have := (isBusy s).toNat_lt
  have := s.status.done.toNat_lt
  have := s.status.absent.toNat_lt
  have := s.status.emitted.toNat_lt
  have := s.status.overrun.toNat_lt
  have := s.status.frameValid.toNat_lt
  have := s.status.groupActive.toNat_lt
  have := s.status.snapValid.toNat_lt
  simp only [statusWord, bitAt_eq, BitVec.toNat_ofNat]
  omega

/-- A bit of a word is given by the parity of the word over its place. -/
theorem getLsbD_eq_of_div {v : Word} {k : Nat} {b : Bool} (h : v.toNat / 2 ^ k % 2 = b.toNat) :
    v.getLsbD k = b := by
  rw [BitVec.getLsbD, Nat.testBit_eq_decide_div_mod_eq, h]
  cases b <;> rfl

/-- A field of a word is given by the word over its place. -/
theorem extractLsb'_eq_of_div {v : Word} {start len : Nat} {f : BitVec len}
    (h : v.toNat / 2 ^ start % 2 ^ len = f.toNat) : v.extractLsb' start len = f := by
  apply BitVec.eq_of_toNat_eq
  rw [BitVec.extractLsb'_toNat, Nat.shiftRight_eq_div_pow, h]

theorem extractLsb'_eq_zero_of_div {v : Word} {start len : Nat}
    (h : v.toNat / 2 ^ start % 2 ^ len = 0) : v.extractLsb' start len = 0 :=
  extractLsb'_eq_of_div (h.trans BitVec.toNat_zero.symm)

theorem errCode_mem_errorCodes (e : ErrCode) : (e, errCode e) ∈ errorCodes := by
  cases e <;> decide

/-- Settles O19: the fields of STATUS stand at places that do not overlap. -/
theorem statusReadsEachFlagInItsBit : Obligations.StatusReadsEachFlagInItsBit := by
  intro s
  have herr := (errCode s.status.err).isLt
  have h0 := (isBusy s).toNat_lt
  have h1 := s.status.done.toNat_lt
  have h2 := s.status.absent.toNat_lt
  have h3 := s.status.emitted.toNat_lt
  have h4 := s.status.overrun.toNat_lt
  have h16 := s.status.frameValid.toNat_lt
  have h17 := s.status.groupActive.toNat_lt
  have h18 := s.status.snapValid.toNat_lt
  have hword := statusWord_toNat s
  refine ⟨statusWord s, busRead_steady (by decide) (by decide), getLsbD_eq_of_div ?_,
    getLsbD_eq_of_div ?_, getLsbD_eq_of_div ?_, getLsbD_eq_of_div ?_, getLsbD_eq_of_div ?_,
    extractLsb'_eq_zero_of_div ?_, ?code, getLsbD_eq_of_div ?_, getLsbD_eq_of_div ?_,
    getLsbD_eq_of_div ?_, extractLsb'_eq_zero_of_div ?_⟩
  case code =>
    have hcode : (statusWord s).extractLsb' 8 8 = errCode s.status.err :=
      extractLsb'_eq_of_div (by omega)
    rw [hcode]
    exact errCode_mem_errorCodes _
  all_goals
    rw [hword]
    omega

end Sys2Proof.Machine
end

section
/-! O23, O24 and O26. The decoder of chanspecs and CHANSPEC_DECODE (spec 40_chanspec.md R100 to
R106, R110). -/

namespace Sys2Proof.Machine

/-! ### The fields of a chanspec -/

/-- A masked value is the field under the mask, at its place. -/
theorem and_mask_eq (v : Half) (start len : Nat) :
    v.toNat &&& 2 ^ start * (2 ^ len - 1) = 2 ^ start * (v.extractLsb' start len).toNat := by
  rw [toNat_extractLsb'_eq_mask, Nat.mul_div_cancel']
  refine (Nat.dvd_iff_mod_eq_zero ..).2 ?_
  rw [Nat.and_mod_two_pow, Nat.mul_mod_right, Nat.and_zero]

/-- A field of a chanspec by division. -/
theorem toNat_chanspecField (v : Half) (start len : Nat) :
    (v.extractLsb' start len).toNat = v.toNat / 2 ^ start % 2 ^ len := by
  rw [BitVec.extractLsb'_toNat, Nat.shiftRight_eq_div_pow]

/-- The bandwidth fields that R101 takes, by the bits of R110. -/
theorem bwOfField_eq_some_iff (f : BitVec 3) (bw : Bw) :
    bwOfField f = some bw ↔ 2 ^ 11 * f.toNat = bwBits bw := by
  cases bw <;> revert f <;> decide

/-- The band fields that R102 takes, by the bits of R110. -/
theorem bandOfField_eq_some_iff (f : BitVec 2) (band : Band) :
    bandOfField f = some band ↔ 2 ^ 14 * f.toNat = bandBits band := by
  cases band <;> revert f <;> decide

theorem bwBits_mem (bw : Bw) : bwBits bw ∈ [0x1000, 0x1800, 0x2000, 0x2800] := by
  cases bw <;> decide

theorem bandBits_mem (band : Band) : bandBits band ∈ [0, 0xC000] := by
  cases band <;> decide

theorem eq_bwBits_of_mem {n : Nat} (h : n ∈ [0x1000, 0x1800, 0x2000, 0x2800]) :
    ∃ bw, n = bwBits bw := by
  simp only [List.mem_cons, List.not_mem_nil, or_false] at h
  rcases h with rfl | rfl | rfl | rfl
  · exact ⟨.mhz20, rfl⟩
  · exact ⟨.mhz40, rfl⟩
  · exact ⟨.mhz80, rfl⟩
  · exact ⟨.mhz160, rfl⟩

theorem bwOfField_eq_none_of_mask {v : Half}
    (h : v.toNat &&& 0x3800 ∉ [0x1000, 0x1800, 0x2000, 0x2800]) :
    bwOfField (v.extractLsb' 11 3) = none := by
  refine Option.eq_none_iff_forall_not_mem.2 fun bw hbw => h ?_
  have hmask : v.toNat &&& 0x3800 = bwBits bw :=
    (and_mask_eq v 11 3).trans ((bwOfField_eq_some_iff _ bw).1 hbw)
  rw [hmask]
  exact bwBits_mem bw

theorem bandOfField_eq_none_of_mask {v : Half} (h : v.toNat &&& 0xC000 ∉ [0, 0xC000]) :
    bandOfField (v.extractLsb' 14 2) = none := by
  refine Option.eq_none_iff_forall_not_mem.2 fun band hband => h ?_
  have hmask : v.toNat &&& 0xC000 = bandBits band :=
    (and_mask_eq v 14 2).trans ((bandOfField_eq_some_iff _ band).1 hband)
  rw [hmask]
  exact bandBits_mem band

/-- What a legal chanspec decodes to, by the masks of R101 and R102. -/
theorem csDecode_fields {v : Half} {bw : Bw} {band : Band} (hbw : v.toNat &&& 0x3800 = bwBits bw)
    (hband : v.toNat &&& 0xC000 = bandBits band) (h : bandAllows band bw = true) :
    ∃ cs, csDecode v = .ok cs ∧ cs.center.toNat = v.toNat % 2 ^ 8 ∧
      cs.sideband.toNat = v.toNat / 2 ^ 8 % 8 ∧ cs.band = band ∧ cs.bw = bw :=
  ⟨⟨v.extractLsb' 0 8, v.extractLsb' 8 3, band, bw⟩,
    (csDecode_ok_iff _ _).2 ⟨bwOfField_of_mask hbw, bandOfField_of_mask hband, h, rfl, rfl⟩,
    (toNat_chanspecField v 0 8).trans (by rw [Nat.pow_zero, Nat.div_one]),
    toNat_chanspecField v 8 3, rfl, rfl⟩

/-! ### The order of the decoder's errors (R106) -/

theorem csDecode_of_bw_none {v : Half} (h : bwOfField (v.extractLsb' 11 3) = none) :
    csDecode v = .error .invalidBandwidth := by
  rw [csDecode, h]

theorem csDecode_of_band_none {v : Half} {bw : Bw}
    (hbw : bwOfField (v.extractLsb' 11 3) = some bw)
    (hband : bandOfField (v.extractLsb' 14 2) = none) :
    csDecode v = .error .invalidBand := by
  rw [csDecode, hbw, hband]

theorem csDecode_of_not_allowed {v : Half} {bw : Bw} {band : Band}
    (hbw : bwOfField (v.extractLsb' 11 3) = some bw)
    (hband : bandOfField (v.extractLsb' 14 2) = some band) (h : bandAllows band bw = false) :
    csDecode v = .error .invalidBandwidth := by
  rw [csDecode, hbw, hband]
  exact if_neg (by rw [h]; exact Bool.false_ne_true)

/-- Settles O26: the four fields of a chanspec that decodes make up its 16 bits. -/
theorem decodedChanspecComposesBack : Obligations.DecodedChanspecComposesBack := by
  intro v cs h
  obtain ⟨hbw, hband, -, hcenter, hsideband⟩ := (csDecode_ok_iff v cs).1 h
  have hv := v.isLt
  apply BitVec.eq_of_toNat_eq
  rw [csCompose_toNat cs.center.isLt cs.sideband.isLt, ← (bwOfField_eq_some_iff _ _).1 hbw,
    ← (bandOfField_eq_some_iff _ _).1 hband, hcenter, hsideband]
  simp only [toNat_chanspecField]
  omega

/-! ### The command -/

/-- The chanspec operand of CHANSPEC_DECODE. -/
theorem toNat_chanspecOperand {s : State} {v : Nat} (hv : v < 2 ^ 16) (h : s.arg[0].toNat = v) :
    (s.arg[0].extractLsb' 0 16).toNat = v := by
  rw [BitVec.extractLsb'_toNat, Nat.shiftRight_zero, h, Nat.mod_eq_of_lt hv]

theorem exec_chanspecDecode_of_ok {s : State} {cs : Chanspec} (h : s.arg[0].toNat < 2 ^ 16)
    (hcs : csDecode (s.arg[0].extractLsb' 0 16) = .ok cs) :
    exec .chanspecDecode s = .next (finish .done (setResults (decodeResults cs) s)) := by
  change complete (chanspecDecodeBody s) = _
  rw [chanspecDecodeBody, (rsvSet_eq_false_iff _ 16).2 h, hcs]
  rfl

theorem chanspecDecode_raises {s : State} {e : ErrCode} (h : s.arg[0].toNat < 2 ^ 16)
    (he : csDecode (s.arg[0].extractLsb' 0 16) = .error e) :
    ∃ t, exec .chanspecDecode s = .next t ∧ OnlyCompletes e false s t := by
  refine ⟨finish (.raise e) s, ?_, onlyCompletes_raise e s⟩
  change complete (chanspecDecodeBody s) = _
  rw [chanspecDecodeBody, (rsvSet_eq_false_iff _ 16).2 h, he]
  rfl

/-- Settles O24: each clause fails one check of the decoder, in its order. -/
theorem chanspecDecodeErrorsInOrder : Obligations.ChanspecDecodeErrorsInOrder := by
  intro s v hv harg
  have hw := toNat_chanspecOperand hv harg
  rw [← harg] at hv
  rw [← hw]
  refine ⟨fun hbw => ?_, fun hbw hband => ?_, fun hbw hband => ?_⟩ <;>
    apply chanspecDecode_raises hv
  · exact csDecode_of_bw_none (bwOfField_eq_none_of_mask hbw)
  · obtain ⟨bw, hbw⟩ := eq_bwBits_of_mem hbw
    exact csDecode_of_band_none (bwOfField_of_mask hbw) (bandOfField_eq_none_of_mask hband)
  · obtain ⟨bw, hbw', hwide⟩ : ∃ bw, (s.arg[0].extractLsb' 0 16).toNat &&& 0x3800 = bwBits bw ∧
        bandAllows .ghz2 bw = false := by
      simp only [List.mem_cons, List.not_mem_nil, or_false] at hbw
      rcases hbw with h | h
      · exact ⟨.mhz80, h, rfl⟩
      · exact ⟨.mhz160, h, rfl⟩
    exact csDecode_of_not_allowed (bwOfField_of_mask hbw') (bandOfField_of_mask (band := .ghz2) hband)
      hwide

/-- A result register written with a number, after the completion. -/
theorem toNat_res_of_asU32 {e : Ending} {vs : List Word} {s : State} {k n : Nat} (hk : k < 8)
    (hv : vs.getD k s.res[k] = asU32 n) (hn : n < 2 ^ 32) :
    (finish e (setResults vs s)).res[k].toNat = n := by
  rw [finish_res, setResults_getElem vs s k hk, hv, toNat_asU32 n hn]

/-- A result register written with a signed number, after the completion. -/
theorem toInt_res_of_asI32 {e : Ending} {vs : List Word} {s : State} {k : Nat} {n : Int}
    (hk : k < 8) (hv : vs.getD k s.res[k] = asI32 n) (h1 : -2 ^ 31 ≤ n) (h2 : n < 2 ^ 31) :
    (finish e (setResults vs s)).res[k].toInt = n := by
  rw [finish_res, setResults_getElem vs s k hk, hv, toInt_asI32 n h1 h2]

theorem chanLo_eq (cs : Chanspec) :
    chanLo cs = (cs.center.toNat : Int) - ((cs.bw.mhz : Int) - 20) / 10 := by
  unfold chanLo
  cases cs.bw <;> rfl

theorem chanLo_bounds (cs : Chanspec) : -14 ≤ chanLo cs ∧ chanLo cs < 256 := by
  have := cs.center.isLt
  rw [chanLo_eq]
  cases cs.bw <;> simp only [Bw.mhz] <;> omega

theorem bw_code_lt (bw : Bw) : bw.code < 4 := by cases bw <;> decide

theorem bw_mhz_le (bw : Bw) : bw.mhz ≤ 160 := by cases bw <;> decide

theorem band_code_lt (band : Band) : band.code < 2 := by cases band <;> decide

/-- RES0 to RES7 after CHANSPEC_DECODE (R105), as numbers. -/
theorem res_chanspecDecode (cs : Chanspec) (s : State) :
    let t := finish .done (setResults (decodeResults cs) s)
    t.res[0].toNat = cs.center.toNat ∧ t.res[1].toNat = cs.sideband.toNat ∧
      t.res[2].toNat = cs.band.code ∧ t.res[3].toNat = cs.bw.code ∧ t.res[4].toNat = cs.bw.mhz ∧
      t.res[5].toNat = cs.bw.nsub ∧ t.res[6].toInt = chanLo cs ∧
      t.res[7].toNat = 5000 + 5 * cs.center.toNat := by
  have := cs.center.isLt
  have := cs.sideband.isLt
  have := band_code_lt cs.band
  have := bw_code_lt cs.bw
  have := bw_mhz_le cs.bw
  have := bw_nsub_le cs.bw
  have := chanLo_bounds cs
  exact ⟨toNat_res_of_asU32 (by decide) rfl (by omega),
    toNat_res_of_asU32 (by decide) rfl (by omega), toNat_res_of_asU32 (by decide) rfl (by omega),
    toNat_res_of_asU32 (by decide) rfl (by omega), toNat_res_of_asU32 (by decide) rfl (by omega),
    toNat_res_of_asU32 (by decide) rfl (by omega),
    toInt_res_of_asI32 (by decide) rfl (by omega) (by omega),
    toNat_res_of_asU32 (by decide) rfl (by omega)⟩

/-- Settles O23: the masks give the fields of the decoded chanspec, and the results are theirs. -/
theorem chanspecDecodeGivesTheFields : Obligations.ChanspecDecodeGivesTheFields := by
  intro s v field code mhz nsub five hrow hv harg hfield hband hlegal
  obtain ⟨bw, rfl, rfl, rfl, rfl⟩ := bandwidthRows_eq hrow
  obtain ⟨band, hbits, hcode, hallows⟩ : ∃ band : Band, v &&& 0xC000 = bandBits band ∧
      band.code = (if five then 1 else 0) ∧ bandAllows band bw = true := by
    cases five
    · refine ⟨.ghz2, hband, rfl, ?_⟩
      cases bw <;> simp [Bw.mhz, bandAllows] at hlegal ⊢
    · exact ⟨.ghz5, hband, rfl, rfl⟩
  have hw := toNat_chanspecOperand hv harg
  rw [← hw] at hfield hbits
  obtain ⟨cs, hcs, hcenter, hsideband, rfl, rfl⟩ := csDecode_fields hfield hbits hallows
  rw [hw] at hcenter hsideband
  obtain ⟨h0, h1, h2, h3, h4, h5, h6, h7⟩ := res_chanspecDecode cs s
  rw [chanLo_eq, hcenter] at h6
  rw [hcenter] at h7
  exact ⟨_, exec_chanspecDecode_of_ok (harg ▸ hv) hcs, h0.trans hcenter, h1.trans hsideband,
    h2.trans hcode, h3, h4, h5, h6, h7, writesResults_finish (decodeResults cs) s⟩

end Sys2Proof.Machine
end

section
/-! O27 to O30. CHANSPEC_ENCODE and DEFAULT_DELAY (spec 40_chanspec.md R107 to R112). -/

namespace Sys2Proof.Machine

/-! ### The operands -/

theorem bandOfCode_eq {w : Word} {band : Band} (h : w.toNat = band.code) :
    bandOfCode (w.getLsbD 0) = band := by
  rw [BitVec.getLsbD, h]
  cases band <;> rfl

theorem band_of_lt_two {b : Nat} (h : b < 2) :
    ∃ band : Band, b = band.code ∧ bandBits band = 0xC000 * b := by
  obtain rfl | rfl : b = 0 ∨ b = 1 := by omega
  · exact ⟨.ghz2, rfl, rfl⟩
  · exact ⟨.ghz5, rfl, rfl⟩

/-- CHANSPEC_ENCODE on legal operands (R107). -/
theorem exec_chanspecEncode {s : State} {ch : Nat} {band : Band} {bw : Bw} (hch : ch < 256)
    (h0 : s.arg[0].toNat = ch) (h1 : s.arg[1].toNat = band.code) (h2 : s.arg[2].toNat = bw.code) :
    exec .chanspecEncode s = complete (match csEncode ch band bw with
      | none => (.absent, s)
      | some v => (.done, setResults (encodeResults v) s)) := by
  have hr0 : rsvSet s.arg[0] 8 = false := (rsvSet_eq_false_iff _ 8).2 (h0 ▸ hch)
  have hr1 : rsvSet s.arg[1] 1 = false := (rsvSet_eq_false_iff _ 1).2 (h1 ▸ band_code_lt band)
  have hr2 : rsvSet s.arg[2] 2 = false := (rsvSet_eq_false_iff _ 2).2 (h2 ▸ bw_code_lt bw)
  have hop : (s.arg[0].extractLsb' 0 8).toNat = ch := by
    rw [BitVec.extractLsb'_toNat, Nat.shiftRight_zero, h0, Nat.mod_eq_of_lt hch]
  change complete (chanspecEncodeBody s) = _
  rw [chanspecEncodeBody, hr0, hr1, hr2, hop, bandOfCode_eq h1, bwOperand_eq h2]
  rfl

/-! ### The results -/

/-- RES0 to RES3 after an accepted channel (R107, R110). -/
theorem chanspecEncode_accepts {s : State} {ch c sb : Nat} {band : Band} {bw : Bw}
    (hch : ch < 256) (h0 : s.arg[0].toNat = ch) (h1 : s.arg[1].toNat = band.code)
    (h2 : s.arg[2].toNat = bw.code) (hc : c < 2 ^ 8) (hsb : sb < 2 ^ 3)
    (hl : bandAllows band bw = true) (h : csEncode ch band bw = some (csCompose c sb band bw)) :
    ∃ t, exec .chanspecEncode s = .next t ∧
      t.res[0].toNat = bandBits band + (bwBits bw + (2 ^ 8 * sb + c)) ∧ t.res[1].toNat = c ∧
      t.res[2].toNat = sb ∧ t.res[3].toInt = (c : Int) - ((bw.mhz : Int) - 20) / 10 ∧
      WritesResults 4 s t := by
  have hv := csCompose_toNat hc hsb band bw
  have hcs := csDecode_csCompose (band := band) (bw := bw) hc hsb hl
  have hres : encodeResults (csCompose c sb band bw) =
      [asU32 (csCompose c sb band bw).toNat, asU32 c, asU32 sb,
        asI32 ((c : Int) - ((bw.mhz : Int) - 20) / 10)] := by
    rw [encodeResults, hcs]
    simp only [chanLo_eq, BitVec.toNat_ofNat, Nat.mod_eq_of_lt hc, Nat.mod_eq_of_lt hsb]
  have hlt := (csCompose c sb band bw).isLt
  have hmhz := bw_mhz_le bw
  refine ⟨finish .done (setResults (encodeResults (csCompose c sb band bw)) s), ?_, ?_⟩
  · rw [exec_chanspecEncode hch h0 h1 h2, h]
    rfl
  · rw [hres, ← hv]
    exact ⟨toNat_res_of_asU32 (by decide) rfl (by omega),
      toNat_res_of_asU32 (by decide) rfl (by omega), toNat_res_of_asU32 (by decide) rfl (by omega),
      toInt_res_of_asI32 (by decide) rfl (by omega) (by omega),
      writesResults_finish [_, _, _, _] s⟩

theorem chanspecEncode_absent {s : State} {ch : Nat} {band : Band} {bw : Bw} (hch : ch < 256)
    (h0 : s.arg[0].toNat = ch) (h1 : s.arg[1].toNat = band.code) (h2 : s.arg[2].toNat = bw.code)
    (h : csEncode ch band bw = none) :
    ∃ t, exec .chanspecEncode s = .next t ∧ OnlyCompletes .ok true s t := by
  refine ⟨finish .absent s, ?_, onlyCompletes_absent s⟩
  rw [exec_chanspecEncode hch h0 h1 h2, h]
  rfl

/-! ### The search (R108, R109) -/

theorem candidateOffset_eq (ch c : Nat) (bw : Bw) :
    candidateOffset ch bw.mhz c = (ch : Int) - ((c : Int) - ((bw.mhz - 20) / 10 : Nat)) := by
  unfold candidateOffset
  cases bw <;> rfl

/-- The condition of the search is the fit of R108. -/
theorem candidateFits_iff (ch c : Nat) (bw : Bw) :
    candidateFits ch bw.mhz c ↔
      0 ≤ (ch : Int) - ((c : Int) - ((bw.mhz - 20) / 10 : Nat)) ∧
        ((ch : Int) - ((c : Int) - ((bw.mhz - 20) / 10 : Nat))) % 4 = 0 ∧
        ((ch : Int) - ((c : Int) - ((bw.mhz - 20) / 10 : Nat))) / 4 < (bw.mhz / 20 : Nat) := by
  rw [← candidateOffset_eq]
  rfl

theorem csSearch_cons_fits {ch c : Nat} {band : Band} {bw : Bw} {table : List Nat}
    (h : candidateFits ch bw.mhz c) :
    csSearch ch band bw (c :: table) =
      some (csCompose c (candidateOffset ch bw.mhz c / 4).toNat band bw) := by
  rw [candidateOffset_eq]
  exact if_pos ((candidateFits_iff ch c bw).1 h)

theorem csSearch_cons_skips {ch c : Nat} {band : Band} {bw : Bw} {table : List Nat}
    (h : ¬ candidateFits ch bw.mhz c) :
    csSearch ch band bw (c :: table) = csSearch ch band bw table :=
  if_neg (mt (candidateFits_iff ch c bw).2 h)

/-- Candidates that do not take the channel are passed over. -/
theorem csSearch_append {ch : Nat} {band : Band} {bw : Bw} {before rest : List Nat}
    (h : ∀ b ∈ before, ¬ candidateFits ch bw.mhz b) :
    csSearch ch band bw (before ++ rest) = csSearch ch band bw rest := by
  induction before with
  | nil => rfl
  | cons b before ih =>
    obtain ⟨hb, hrest⟩ := List.forall_mem_cons.1 h
    rw [List.cons_append, csSearch_cons_skips hb, ih hrest]

theorem candidateTable_eq (bw : Bw) : candidateTable bw.mhz = chanTable bw := by
  cases bw <;> rfl

theorem csEncode_wide {ch : Nat} {band : Band} {bw : Bw} (hl : bandAllows band bw = true)
    (hbw : bw ≠ .mhz20) :
    csEncode ch band bw = csSearch ch band bw (candidateTable bw.mhz) := by
  rw [csEncode, if_pos hl, if_neg hbw, candidateTable_eq]

/-- Settles O27: at 20 MHz the channel is its own center. -/
theorem chanspecEncodeTakesEveryTwentyMhzChannel :
    Obligations.ChanspecEncodeTakesEveryTwentyMhzChannel := by
  intro s ch b hch hb h0 h1 h2
  obtain ⟨band, rfl, hbits⟩ := band_of_lt_two hb
  have hl : bandAllows band .mhz20 = true := by cases band <;> rfl
  obtain ⟨t, ht, hr0, hr1, hr2, hr3, hw⟩ := chanspecEncode_accepts (bw := .mhz20) hch h0 h1 h2 hch
    (show 0 < 2 ^ 3 by decide) hl (by rw [csEncode, if_pos hl, if_pos rfl])
  refine ⟨t, ht, ?_, hr1, hr2, ?_, hw⟩
  · rw [hr0, hbits, bwBits]
    omega
  · rw [BitVec.toInt_eq_toNat_cond] at hr3
    simp only [Bw.mhz] at hr3
    split at hr3 <;> omega

/-- Settles O28: the search passes over the candidates before, and takes this one. -/
theorem chanspecEncodeTakesTheFirstCandidate :
    Obligations.ChanspecEncodeTakesTheFirstCandidate := by
  intro s ch b field code mhz nsub c before after hrow hch hb h0 h1 h2 hwide htable hbefore hfits
  obtain ⟨bw, rfl, rfl, rfl, rfl⟩ := bandwidthRows_eq hrow
  obtain ⟨band, rfl, hbits⟩ := band_of_lt_two hb
  have hbw : bw ≠ .mhz20 := by
    rintro rfl
    cases before <;> cases htable
  have hl : bandAllows band bw = true := by
    cases band
    · obtain rfl : bw = .mhz40 := by cases bw <;> simp [Bw.mhz, Band.code] at hwide ⊢
      rfl
    · rfl
  have hc : c < 2 ^ 8 := by
    refine chanTable_lt bw c ?_
    rw [← candidateTable_eq, htable]
    exact List.mem_append_right _ List.mem_cons_self
  have hsearch : csEncode ch band bw =
      some (csCompose c (candidateOffset ch bw.mhz c / 4).toNat band bw) := by
    rw [csEncode_wide hl hbw, htable, csSearch_append hbefore, csSearch_cons_fits hfits]
  obtain ⟨hpos, -, hlt⟩ := hfits
  have hmhz := bw_mhz_le bw
  obtain ⟨t, ht, hr0, hr1, hr2, hr3, hw⟩ := chanspecEncode_accepts hch h0 h1 h2 hc
    (show (candidateOffset ch bw.mhz c / 4).toNat < 2 ^ 3 by omega) hl hsearch
  exact ⟨t, ht, by rw [hr0, hbits]; omega, hr1, by rw [hr2]; omega, hr3, hw⟩

/-- Settles O29: the encoder answers nothing where the band forbids the bandwidth, and the search
passes over a whole table of which no candidate fits. -/
theorem chanspecEncodeAbsentWithoutCandidate :
    Obligations.ChanspecEncodeAbsentWithoutCandidate := by
  intro s ch b field code mhz nsub hrow hch hb h0 h1 h2 hnone
  obtain ⟨bw, rfl, rfl, rfl, rfl⟩ := bandwidthRows_eq hrow
  obtain ⟨band, rfl, -⟩ := band_of_lt_two hb
  refine chanspecEncode_absent hch h0 h1 h2 ?_
  rcases hnone with ⟨hband, hmhz⟩ | ⟨hmhz, hfits⟩
  · have hl : bandAllows band bw = false := by
      cases band <;> cases bw <;> simp [Band.code, Bw.mhz] at hband hmhz <;> rfl
    rw [csEncode, hl, if_neg Bool.false_ne_true]
  · unfold csEncode
    split
    · have hbw : bw ≠ .mhz20 := fun h => hmhz (by rw [h]; rfl)
      have hsearch := csSearch_append (band := band) (rest := []) hfits
      rw [List.append_nil, candidateTable_eq] at hsearch
      rw [if_neg hbw, hsearch]
      rfl
    · rfl

/-! ### DEFAULT_DELAY -/

/-- The popcount of a mask is the number of its set bits. -/
theorem popcount4_eq (m : BitVec 4) :
    popcount4 m = ((List.range 4).filter m.toNat.testBit).length := by
  revert m
  decide

theorem popcount4_le (m : BitVec 4) : popcount4 m ≤ 4 := by
  revert m
  decide

theorem exec_defaultDelay {s : State} (h0 : s.arg[0].toNat < 16) (h1 : s.arg[1].toNat < 16) :
    exec .defaultDelay s = .next (finish .done (setResults
      [asU32 (settlingDelay
        (popcount4 (s.arg[0].extractLsb' 0 4) * popcount4 (s.arg[1].extractLsb' 0 4))),
      asU32 (popcount4 (s.arg[0].extractLsb' 0 4) * popcount4 (s.arg[1].extractLsb' 0 4))] s)) := by
  change complete (defaultDelayBody s) = _
  rw [defaultDelayBody, (rsvSet_eq_false_iff _ 4).2 h0, (rsvSet_eq_false_iff _ 4).2 h1]
  rfl

/-- Settles O30: RES1 is the product of the popcounts, and RES0 its settling delay. -/
theorem defaultDelayCountsMasks : Obligations.DefaultDelayCountsMasks := by
  rintro s cores streams p hcores hstreams rfl rfl hp
  have hmask (w : Word) (hw : w.toNat < 16) : popcount4 (w.extractLsb' 0 4) =
      ((List.range 4).filter w.toNat.testBit).length := by
    rw [popcount4_eq, BitVec.extractLsb'_toNat, Nat.shiftRight_zero, Nat.mod_eq_of_lt hw]
  have hle : p ≤ 4 * 4 := by
    rw [hp, ← hmask _ hcores, ← hmask _ hstreams]
    exact Nat.mul_le_mul (popcount4_le _) (popcount4_le _)
  have hexec := exec_defaultDelay hcores hstreams
  rw [hmask _ hcores, hmask _ hstreams, ← hp] at hexec
  refine ⟨_, hexec, ?_, toNat_res_of_asU32 (by decide) rfl (by omega), writesResults_finish [_, _] s⟩
  have hdelay : settlingDelay p = if 12 ≤ p then 50 else 0 := rfl
  rw [hdelay]
  exact toNat_res_of_asU32 (by decide) rfl (by split <;> decide)

end Sys2Proof.Machine
end

section
/-! O34 and O35. UNPACK_CSI (spec 41_unpack.md R136 to R138). -/

namespace Sys2Proof.Machine

/-- The bandwidth operand is below 4, so it is not refused. -/
theorem rsvSet_bwOperand {w : Word} {bw : Bw} (h : w.toNat = bw.code) : rsvSet w 2 = false :=
  (rsvSet_eq_false_iff _ 2).2 (h ▸ bw_code_lt bw)

theorem exec_unpackCsi_of_long {s : State} {bw : Bw} (h0 : s.arg[0].toNat = bw.code)
    (hlong : 4 * bw.nsub ≤ s.inLen.toNat) (hlen : s.inLen.toNat ≤ 4096) :
    exec .unpackCsi s = .next (finish .done (unpackCsiWrites bw s)) := by
  have htoo : inLenTooLong s = false := Bool.eq_false_iff.2 (not_inLenTooLong hlen)
  change complete (unpackCsiBody s) = _
  rw [unpackCsiBody, rsvSet_bwOperand h0, htoo, bwOperand_eq h0, if_neg (by decide),
    inLength, if_neg (Nat.not_lt.2 hlong)]
  rfl

theorem exec_unpackCsi_of_short {s : State} {bw : Bw} (h0 : s.arg[0].toNat = bw.code)
    (hshort : s.inLen.toNat < 4 * bw.nsub) :
    exec .unpackCsi s = .next (finish (.raise .notEnoughBytes) s) := by
  have hn := bw_nsub_le bw
  have htoo : inLenTooLong s = false := Bool.eq_false_iff.2 (not_inLenTooLong (by omega))
  change complete (unpackCsiBody s) = _
  rw [unpackCsiBody, rsvSet_bwOperand h0, htoo, bwOperand_eq h0, if_neg (by decide),
    inLength, if_pos hshort]
  rfl

/-- Entry `j` below `n` is wire sample `(j + n/2) mod n` of the payload (R137). -/
theorem unpackCsiWrites_coefBuf_inside (s : State) (bw : Bw) {j : Nat} (h : j < bw.nsub) :
    Sparse.read? (unpackCsiWrites bw s).coefBuf j =
      some (unpackComplex (BitVec.ofNat 32
        (memRead s (4 * ((j + bw.nsub / 2) % bw.nsub)) 4))) := by
  rw [unpackCsiWrites_coefBuf, Sparse.read?_writeFrom, unpackCsi_length, if_pos (by omega),
    Nat.sub_zero, unpackCsi_getElem? _ _ _ _ h, Nat.zero_add]

/-- The entries from `n` up are kept. -/
theorem unpackCsiWrites_coefBuf_outside (s : State) (bw : Bw) {j : Nat} (h : bw.nsub ≤ j) :
    Sparse.read? (unpackCsiWrites bw s).coefBuf j = Sparse.read? s.coefBuf j := by
  rw [unpackCsiWrites_coefBuf]
  exact Sparse.read?_writeFrom_outside _ _ _ _ (.inr (by rw [unpackCsi_length]; omega))

theorem unpackCsiWrites_res_zero (s : State) (bw : Bw) :
    (unpackCsiWrites bw s).res[0].toNat = bw.nsub := by
  have := bw_nsub_le bw
  rw [unpackCsiWrites, setResults_getElem _ _ 0 (by decide)]
  exact toNat_asU32 _ (by omega)

/-- Settles O34: the payload is unpacked from byte 0 and rotated by half its length. -/
theorem unpackCsiRotatesThePayload : Obligations.UnpackCsiRotatesThePayload := by
  intro s field code mhz n hrow h0 hlong hlen
  obtain ⟨bw, -, rfl, -, rfl⟩ := bandwidthRows_eq hrow
  refine ⟨_, exec_unpackCsi_of_long h0 hlong hlen, fun j hj => ?_,
    fun j => unpackCsiWrites_coefBuf_outside s bw, rfl, rfl, unpackCsiWrites_res_zero s bw,
    completedWith_finish .done s _ rfl, ⟨rfl, rfl, rfl, rfl, rfl, rfl⟩,
    keepsResultsFrom_setResults [_] _, ⟨rfl, rfl⟩, ⟨rfl, rfl⟩, ⟨rfl, rfl⟩⟩
  rw [finish_coefBuf, unpackCsiWrites_coefBuf_inside s bw hj, memRead_four]
  rfl

/-- Settles O35: the length is checked before anything is written. -/
theorem unpackCsiRefusesShortPayloads : Obligations.UnpackCsiRefusesShortPayloads := by
  intro s field code mhz n hrow h0 hshort
  obtain ⟨bw, -, rfl, -, rfl⟩ := bandwidthRows_eq hrow
  exact ⟨_, exec_unpackCsi_of_short h0 hshort, onlyCompletes_raise .notEnoughBytes s⟩

end Sys2Proof.Machine
end

section
/-! O39 to O44. The frame grouper (spec 43_grouper.md R170 to R176). -/

namespace Sys2Proof.Machine

/-! ### The flush (R171) -/

theorem flush_of_empty {s : State} (h : s.status.groupActive = false ∨ s.grp.mask = 0) :
    flush s = (false, setGroupActive false s) := by
  rcases flush_eq s with ⟨hactive, hmask, -⟩ | ⟨-, hf⟩
  · rcases h with h | h
    · rw [h] at hactive; cases hactive
    · exact absurd h hmask
  · exact hf

theorem flush_of_populated {s : State} (hactive : s.status.groupActive = true)
    (hmask : s.grp.mask ≠ 0) : flush s = (true, setGroupActive false (emit s)) := by
  rcases flush_eq s with ⟨-, -, hf⟩ | ⟨h | h, -⟩
  · exact hf
  · rw [h] at hactive; cases hactive
  · exact absurd h hmask

/-- A state with the emitted group as its snapshot (R172). -/
theorem snapshotIsGroup_of_emitted {s t : State} (hvalid : t.status.snapValid = true)
    (hsnap : t.snap = emitted s) (hlen : ∀ k : Fin 16, s.grp.len[k].toNat ≤ 512) :
    SnapshotIsGroup s t where
  valid := hvalid
  seq := by rw [hsnap, emitted_seq]
  mask := by rw [hsnap, emitted_mask]
  chanspec := by rw [hsnap, emitted_chanspec]
  rssi := by rw [hsnap, emitted_rssi]
  len := fun k => by rw [hsnap]; exact emitted_len s k
  entries := fun k j hk hj => by
    have := hlen k
    rw [hsnap, read?_emitted s k j (by omega), entryCount_eq (hlen k), if_pos ⟨hk, hj⟩]
  others := fun k j hj hout => by
    rw [hsnap, read?_emitted s k j hj, entryCount_eq (hlen k), if_neg]
    rintro ⟨hk, hlt⟩
    have := hout hk
    omega

/-! ### The slot of the frame (R173) -/

theorem slotOutOfRange_eq_false_iff (s : State) : slotOutOfRange s = false ↔ frameHasSlot s := by
  rw [← Bool.not_eq_true, slotOutOfRange_iff, frameHasSlot]
  omega

/-- The frame stands in its slot after the slot is written. -/
theorem slotHoldsFrame_addSlot (s : State) (e : Ending) (h : s.frm.nsub.toNat ≤ 512) :
    SlotHoldsFrame s (finish e (addSlot s)) where
  entries := fun j hj => by
    change Sparse.read? (addSlot s).grp.grid (512 * frameSlot s + j) = _
    rw [read?_addSlot, entryCount_eq h, if_pos (by omega), Nat.add_sub_cancel_left]
  others := fun a ha => by
    change a < 512 * frameSlot s ∨ 512 * frameSlot s + s.frm.nsub.toNat ≤ a at ha
    rw [finish_grp, read?_addSlot, entryCount_eq h, if_neg (by omega)]

/-- A fresh group with the frame's slot alone. -/
theorem groupStartedByFrame_addSlot (s : State) (e : Ending) :
    GroupStartedByFrame s (finish e (addSlot (startGroup s))) where
  active := rfl
  seq := rfl
  chanspec := rfl
  rssi := rfl
  mask := by
    change 0#16 ||| BitVec.twoPow 16 (frameSlot s) = BitVec.ofNat 16 (2 ^ frameSlot s)
    rw [BitVec.zero_or]
    apply BitVec.eq_of_toNat_eq
    rw [BitVec.toNat_twoPow, BitVec.toNat_ofNat]
  len := fun k => by
    rw [finish_grp, addSlot_len, startGroup_grp]
    simp only [Fin.getElem_fin, Vector.getElem_replicate]
    rfl

/-! ### GROUP_ADD by its branches -/

theorem exec_groupAdd_of_start {s : State} (hv : s.status.frameValid = true)
    (hs : frameHasSlot s) (hg : startsGroup s = true) :
    exec .groupAdd s = .next (finish (if (flush s).1 then .doneEmitted else .absent)
      (addSlot (startGroup (flush s).2))) := by
  change complete (groupAddBody s) = _
  rw [groupAddBody, hv, (slotOutOfRange_eq_false_iff s).2 hs, hg]
  rfl

theorem exec_groupAdd_of_same {s : State} (hv : s.status.frameValid = true)
    (hs : frameHasSlot s) (hg : startsGroup s = false) :
    exec .groupAdd s = .next (finish .absent (addSlot s)) := by
  change complete (groupAddBody s) = _
  rw [groupAddBody, hv, (slotOutOfRange_eq_false_iff s).2 hs, hg]
  rfl

theorem exec_groupTake (s : State) :
    exec .groupTake s =
      .next (finish (if (flush s).1 then .doneEmitted else .absent) (flush s).2) := rfl

theorem startsGroup_iff (s : State) :
    startsGroup s = true ↔ s.status.groupActive = false ∨ s.frm.seq ≠ s.grp.seq := by
  simp [startsGroup]

/-- Settles O39: nothing is flushed, and the frame starts a group. -/
theorem groupAddStartsTheFirstGroup : Obligations.GroupAddStartsTheFirstGroup := by
  intro s hv hs hlen hempty
  have hstart : startsGroup s = true := (startsGroup_iff s).2 (hempty.imp_right And.left)
  have hexec := exec_groupAdd_of_start hv hs hstart
  rw [flush_of_empty (hempty.imp_right And.right)] at hexec
  exact ⟨_, hexec, ⟨rfl, rfl, rfl, rfl, rfl, rfl⟩,
    { groupStartedByFrame_addSlot (setGroupActive false s) .absent with },
    { slotHoldsFrame_addSlot (startGroup (setGroupActive false s)) .absent hlen.1 with },
    ⟨rfl, rfl⟩, ⟨rfl, rfl, rfl⟩, fun _ _ => rfl, ⟨rfl, rfl⟩, ⟨rfl, rfl, rfl, rfl, rfl, rfl⟩⟩

/-- Settles O40: the frame's slot is written into the group in progress. -/
theorem groupAddKeepsTheGeneration : Obligations.GroupAddKeepsTheGeneration := by
  intro s hv hs hlen hactive hseq
  have hsame : startsGroup s = false := by
    rw [← Bool.not_eq_true, startsGroup_iff, hactive]
    simp [hseq]
  exact ⟨_, exec_groupAdd_of_same hv hs hsame, ⟨rfl, rfl, rfl, rfl, rfl, rfl⟩, hactive, rfl, rfl,
    rfl, addSlot_maskBit s, addSlot_len s, slotHoldsFrame_addSlot s .absent hlen.1, ⟨rfl, rfl⟩,
    ⟨rfl, rfl, rfl⟩, fun _ _ => rfl, ⟨rfl, rfl⟩, ⟨rfl, rfl, rfl, rfl, rfl, rfl⟩⟩

/-- Settles O41: the old group is emitted before the frame starts a fresh one. -/
theorem groupAddEmitsTheOldGeneration : Obligations.GroupAddEmitsTheOldGeneration := by
  intro s hv hs hlen hactive hseq hmask
  have hexec := exec_groupAdd_of_start hv hs ((startsGroup_iff s).2 (.inr hseq))
  rw [flush_of_populated hactive hmask] at hexec
  exact ⟨_, hexec, ⟨rfl, rfl, rfl, rfl, rfl, rfl⟩, snapshotIsGroup_of_emitted rfl rfl hlen.2,
    { groupStartedByFrame_addSlot (setGroupActive false (emit s)) .doneEmitted with },
    { slotHoldsFrame_addSlot (startGroup (setGroupActive false (emit s))) .doneEmitted hlen.1 with },
    ⟨rfl, rfl, rfl⟩, fun _ _ => rfl, ⟨rfl, rfl⟩, ⟨rfl, rfl, rfl, rfl, rfl, rfl⟩⟩

/-- Settles O42: both checks come before any write. -/
theorem groupAddRefusesBadFrames : Obligations.GroupAddRefusesBadFrames := by
  refine fun s => ⟨fun hv => ⟨finish (.raise .noFrame) s, ?_, onlyCompletes_raise .noFrame s⟩,
    fun hv hs => ⟨finish (.raise .slotRange) s, ?_, onlyCompletes_raise .slotRange s⟩⟩ <;>
    change complete (groupAddBody s) = _
  · rw [groupAddBody, hv]
    rfl
  · have hout : slotOutOfRange s = true := by
      rw [← Bool.not_eq_false, slotOutOfRange_eq_false_iff]
      exact hs
    rw [groupAddBody, hv, hout]
    rfl

/-- Settles O43: GROUP_TAKE is a flush that emits. -/
theorem groupTakeEmitsTheGroup : Obligations.GroupTakeEmitsTheGroup := by
  intro s hactive hmask hlen
  have hexec := exec_groupTake s
  rw [flush_of_populated hactive hmask] at hexec
  exact ⟨_, hexec, ⟨rfl, rfl, rfl, rfl, rfl, rfl⟩, snapshotIsGroup_of_emitted rfl rfl hlen.2, rfl,
    rfl, ⟨rfl, rfl, rfl⟩, fun _ _ => rfl, ⟨rfl, rfl⟩, ⟨rfl, rfl, rfl, rfl, rfl, rfl⟩⟩

/-- Settles O44: GROUP_TAKE is a flush with nothing to emit. -/
theorem groupTakeAbsentWhenEmpty : Obligations.GroupTakeAbsentWhenEmpty := by
  intro s hempty
  have hexec := exec_groupTake s
  rw [flush_of_empty hempty] at hexec
  exact ⟨_, hexec, ⟨rfl, rfl, rfl, rfl, rfl, rfl⟩, rfl, rfl, ⟨rfl, rfl⟩, ⟨rfl, rfl, rfl⟩,
    fun _ _ => rfl, ⟨rfl, rfl⟩, ⟨rfl, rfl, rfl, rfl, rfl, rfl⟩⟩

end Sys2Proof.Machine
end

section
/-! O54. The arithmetic of binary64 numbers (spec 00_scope.md R13; item G1, log 18). -/

namespace Sys2Proof.Machine

/-! ### Kinds of numbers -/

theorem fIsFinite_eq_not (a : F64) : fIsFinite a = (!fIsNaN a && !fIsInf a) := by
  unfold fIsFinite fIsNaN fIsInf
  by_cases h : fMag a < 0x7FF0000000000000
  · simp [h, h.le.not_gt, h.ne]
  · simp [h]
    omega

theorem fIsNaN_of_fIsInf {a : F64} (h : fIsInf a = true) : fIsNaN a = false := by
  unfold fIsInf at h
  unfold fIsNaN
  simp only [decide_eq_true_eq, decide_eq_false_iff_not] at h ⊢
  omega

theorem fIsFinite_of_fIsZero {a : F64} (h : fIsZero a = true) : fIsFinite a = true := by
  unfold fIsZero at h
  unfold fIsFinite
  simp only [decide_eq_true_eq] at h ⊢
  omega

theorem fIsZero_of_fIsInf {a : F64} (h : fIsInf a = true) : fIsZero a = false := by
  unfold fIsInf at h
  unfold fIsZero
  simp only [decide_eq_true_eq, decide_eq_false_iff_not] at h ⊢
  omega

/-- A number is its sign and its magnitude. -/
theorem fWithSign_fNeg_fMag (a : F64) : fWithSign (fNeg a) (fMag a) = a := by
  apply BitVec.eq_of_toNat_eq
  have ha := a.isLt
  rw [fWithSign, fNeg, fMag, BitVec.toNat_ofNat, BitVec.msb_eq_decide]
  by_cases h : 2 ^ (64 - 1) ≤ a.toNat
  · rw [decide_eq_true h, if_pos rfl]
    omega
  · rw [decide_eq_false h, if_neg Bool.false_ne_true]
    omega

theorem eq_of_sign_of_mag {a b : F64} (hn : fNeg a = fNeg b) (hm : fMag a = fMag b) : a = b := by
  rw [← fWithSign_fNeg_fMag a, hn, hm, fWithSign_fNeg_fMag b]

/-- Infinities of one sign are one number. -/
theorem eq_of_fIsInf {a b : F64} (ha : fIsInf a = true) (hb : fIsInf b = true)
    (hn : fNeg a = fNeg b) : a = b :=
  eq_of_sign_of_mag hn ((of_decide_eq_true ha).trans (of_decide_eq_true hb).symm)

/-! ### Opposites -/

@[simp] theorem fMag_fOpp (a : F64) : fMag (fOpp a) = fMag a := fMag_withSign _ (fMag_lt a)

@[simp] theorem fNeg_fOpp (a : F64) : fNeg (fOpp a) = !fNeg a := fNeg_withSign _ (fMag_lt a)

@[simp] theorem fIsNaN_fOpp (a : F64) : fIsNaN (fOpp a) = fIsNaN a := by
  rw [fIsNaN, fMag_fOpp, fIsNaN]

@[simp] theorem fIsInf_fOpp (a : F64) : fIsInf (fOpp a) = fIsInf a := by
  rw [fIsInf, fMag_fOpp, fIsInf]

@[simp] theorem fIsFinite_fOpp (a : F64) : fIsFinite (fOpp a) = fIsFinite a := by
  rw [fIsFinite, fMag_fOpp, fIsFinite]

@[simp] theorem fIsZero_fOpp (a : F64) : fIsZero (fOpp a) = fIsZero a := by
  rw [fIsZero, fMag_fOpp, fIsZero]

/-- Subtraction adds the opposite, NaN or not. -/
theorem fSub_eq_fAdd (a b : F64) : fSub a b = fAdd a (fOpp b) := by
  unfold fSub
  split
  next h => rw [fAdd, if_pos (.inr (by rw [fIsNaN_fOpp, h]))]
  next => rfl

theorem fValue_fOpp {b : F64} (hb : fIsFinite b = true) : fValue (fOpp b) = -fValue b := by
  rw [fValue, (fFix_fOpp b hb).2, fValue, Int.cast_neg, neg_div]

/-! ### NaN and the infinities -/

@[simp] theorem fIsNaN_fNaN : fIsNaN fNaN = true := by decide

/-- An infinity with a sign. -/
@[simp] theorem fIsInf_withSign (neg : Bool) : fIsInf (fWithSign neg 0x7FF0000000000000) = true := by
  cases neg <;> decide

@[simp] theorem fNeg_inf (neg : Bool) : fNeg (fWithSign neg 0x7FF0000000000000) = neg :=
  fNeg_withSign neg (by decide)

/-- A zero with a sign. -/
@[simp] theorem fIsZero_withSign (neg : Bool) : fIsZero (fWithSign neg 0) = true := by
  cases neg <;> decide

@[simp] theorem fNeg_zero (neg : Bool) : fNeg (fWithSign neg 0) = neg :=
  fNeg_withSign neg (by decide)

theorem fAdd_nan {a b : F64} (h : fIsNaN a = true ∨ fIsNaN b = true) : fAdd a b = fNaN := if_pos h

theorem fMul_nan {a b : F64} (h : fIsNaN a = true ∨ fIsNaN b = true) : fMul a b = fNaN := if_pos h

theorem fDiv_nan {a b : F64} (h : fIsNaN a = true ∨ fIsNaN b = true) : fDiv a b = fNaN := if_pos h

theorem fAdd_inf {a b : F64} (ha : fIsInf a = true) (hb : fIsNaN b = false) :
    fAdd a b = if fIsInf b ∧ fNeg a ≠ fNeg b then fNaN else a := by
  rw [fAdd, if_neg (by simp [fIsNaN_of_fIsInf ha, hb]), if_pos ha]

/-- The sum with an infinity on the right. -/
theorem fAdd_finite_inf {a b : F64} (ha : fIsFinite a = true) (hb : fIsInf b = true) :
    fAdd a b = b := by
  obtain ⟨han, hai⟩ := finite_special ha
  rw [fAdd, if_neg (by simp [han, fIsNaN_of_fIsInf hb]), if_neg (by simp [hai]), if_pos hb]

/-- A product with an infinity in either place. -/
theorem fMul_inf {a b : F64} (ha : fIsNaN a = false) (hb : fIsNaN b = false)
    (h : fIsInf a = true ∨ fIsInf b = true) :
    fMul a b = if fIsZero a ∨ fIsZero b then fNaN
      else fWithSign (fNeg a != fNeg b) 0x7FF0000000000000 := by
  rw [fMul, if_neg (by simp [ha, hb]), if_pos h]

theorem fDiv_inf {a b : F64} (ha : fIsInf a = true) (hb : fIsNaN b = false) :
    fDiv a b = if fIsInf b then fNaN else fWithSign (fNeg a != fNeg b) 0x7FF0000000000000 := by
  rw [fDiv, if_neg (by simp [fIsNaN_of_fIsInf ha, hb]), if_pos ha]

theorem fDiv_by_inf {a b : F64} (ha : fIsFinite a = true) (hb : fIsInf b = true) :
    fDiv a b = fWithSign (fNeg a != fNeg b) 0 := by
  obtain ⟨han, hai⟩ := finite_special ha
  rw [fDiv, if_neg (by simp [han, fIsNaN_of_fIsInf hb]), if_neg (by simp [hai]), if_pos hb]

theorem fDiv_by_zero {a b : F64} (ha : fIsFinite a = true) (hb : fIsZero b = true) :
    fDiv a b = if fIsZero a then fNaN
      else fWithSign (fNeg a != fNeg b) 0x7FF0000000000000 := by
  obtain ⟨han, hai⟩ := finite_special ha
  obtain ⟨hbn, hbi⟩ := finite_special (fIsFinite_of_fIsZero hb)
  rw [fDiv, if_neg (by simp [han, hbn]), if_neg (by simp [hai]), if_neg (by simp [hbi]), if_pos hb]

theorem fNeg_fDiv {a b : F64} (ha : fIsFinite a = true) (hb : fIsFinite b = true)
    (hz : fIsZero b = false) : fNeg (fDiv a b) = (fNeg a != fNeg b) := by
  obtain ⟨han, hai⟩ := finite_special ha
  obtain ⟨hbn, hbi⟩ := finite_special hb
  rw [fDiv, if_neg (by simp [han, hbn]), if_neg (by simp [hai]), if_neg (by simp [hbi]),
    if_neg (by simp [hz])]
  exact fNeg_fPack ..

/-! ### Finite operands -/

/-- The encoding of a signed zero. -/
theorem withSign_zero (neg : Bool) :
    fWithSign neg 0 = if neg then 0x8000000000000000 else 0 := by
  cases neg <;> rfl

theorem fAdd_eq_zero {a b : F64} (ha : fIsFinite a = true) (hb : fIsFinite b = true)
    (h : fValue a + fValue b = 0) :
    fAdd a b = if fNeg a && fNeg b then 0x8000000000000000 else 0 := by
  have hfix : fFix a + fFix b = 0 := by
    rw [fValue, fValue, ← add_div, div_eq_zero_iff] at h
    rcases h with h | h
    · exact_mod_cast h
    · exact absurd h (by positivity)
  rw [fAdd_finite ha hb, if_pos hfix, withSign_zero]

theorem finiteArithmetic {a b : F64} (ha : fIsFinite a = true) (hb : fIsFinite b = true) :
    FiniteArithmetic a b where
  add := roundedTo_fAdd ha hb
  sub := by
    have h := roundedTo_fAdd ha ((fIsFinite_fOpp b).trans hb)
    rwa [fValue_fOpp hb, Rat.cast_neg, ← sub_eq_add_neg, ← fSub_eq_fAdd] at h
  mul := roundedTo_fMul ha hb
  div := roundedTo_fDiv ha hb
  sqrt := roundedTo_fSqrt ha
  addZero := fAdd_eq_zero ha hb
  subZero := fun h => by
    rw [sub_eq_add_neg, ← fValue_fOpp hb] at h
    rw [fSub_eq_fAdd, fAdd_eq_zero ha ((fIsFinite_fOpp b).trans hb) h, fNeg_fOpp]
  mulSign := by
    rw [fMul_finite ha hb]
    exact fNeg_fPack ..
  divSign := fNeg_fDiv ha hb
  sqrtZero := fun hz => by rw [fSqrt, if_neg (by simp [finite_special ha]), if_pos hz]

/-! ### The special operands -/

theorem fAdd_inf_of_agree {a b : F64} (ha : fIsInf a = true)
    (hb : fIsFinite b = true ∨ fIsInf b = true ∧ fNeg b = fNeg a) :
    fAdd a b = a ∧ fAdd b a = a := by
  rcases hb with hb | ⟨hb, hn⟩
  · obtain ⟨hbn, hbi⟩ := finite_special hb
    exact ⟨by rw [fAdd_inf ha hbn, if_neg (by simp [hbi])], fAdd_finite_inf hb ha⟩
  · obtain rfl := eq_of_fIsInf hb ha hn
    rw [fAdd_inf ha (fIsNaN_of_fIsInf ha), if_neg (by simp)]
    exact ⟨rfl, rfl⟩

theorem fIsNaN_fAdd_opposite {a b : F64} (ha : fIsInf a = true) (hb : fIsInf b = true)
    (hn : fNeg b ≠ fNeg a) : fIsNaN (fAdd a b) = true := by
  rw [fAdd_inf ha (fIsNaN_of_fIsInf hb), if_pos ⟨hb, hn.symm⟩, fIsNaN_fNaN]

theorem specialArithmetic (a b : F64) : SpecialArithmetic a b where
  nan := fun h => by
    have h' : fIsNaN a = true ∨ fIsNaN (fOpp b) = true := by rwa [fIsNaN_fOpp]
    rw [fSub_eq_fAdd, fAdd_nan h, fAdd_nan h', fMul_nan h, fDiv_nan h]
    exact ⟨rfl, rfl, rfl, rfl⟩
  sqrtNan := fun h => by
    by_cases ha : fIsNaN a = true
    · rw [fSqrt, if_pos ha, fIsNaN_fNaN]
    · obtain ⟨hn, hz⟩ := h.resolve_left ha
      rw [fSqrt, if_neg ha, if_neg (by simp [hz]), if_pos hn, fIsNaN_fNaN]
  addInf := fAdd_inf_of_agree
  addOpposite := fIsNaN_fAdd_opposite
  subInf := fun ha hb => by
    have hopp : fIsFinite (fOpp b) = true ∨ fIsInf (fOpp b) = true ∧ fNeg (fOpp b) = fNeg a := by
      rw [fIsFinite_fOpp, fIsInf_fOpp, fNeg_fOpp]
      simpa [Bool.eq_not] using hb
    have hopp' : fIsFinite b = true ∨ fIsInf b = true ∧ fNeg b = fNeg (fOpp a) := by
      rw [fNeg_fOpp]
      simpa [Bool.eq_not] using hb
    rw [fSub_eq_fAdd, fSub_eq_fAdd, (fAdd_inf_of_agree ha hopp).1,
      (fAdd_inf_of_agree ((fIsInf_fOpp a).trans ha) hopp').2, fIsInf_fOpp, fNeg_fOpp]
    exact ⟨rfl, ha, rfl⟩
  subSame := fun ha hb hn => by
    rw [fSub_eq_fAdd]
    exact fIsNaN_fAdd_opposite ha ((fIsInf_fOpp b).trans hb) (by simp [hn])
  mulInf := fun ha hb hz => by
    have hz' := fIsZero_of_fIsInf ha
    have han := fIsNaN_of_fIsInf ha
    rw [fMul_inf han hb (.inl ha), fMul_inf hb han (.inr ha), if_neg (by simp [hz, hz']),
      if_neg (by simp [hz, hz']), fIsInf_withSign, fIsInf_withSign, fNeg_inf, fNeg_inf]
    exact ⟨⟨rfl, rfl⟩, rfl, bne_comm⟩
  mulInfZero := fun ha hz => by
    have han := fIsNaN_of_fIsInf ha
    have hbn := (finite_special (fIsFinite_of_fIsZero hz)).1
    rw [fMul_inf han hbn (.inl ha), fMul_inf hbn han (.inr ha), if_pos (.inr hz), if_pos (.inl hz)]
    exact ⟨rfl, rfl⟩
  divInf := fun ha hb => by
    obtain ⟨hbn, hbi⟩ := finite_special hb
    rw [fDiv_inf ha hbn, if_neg (by simp [hbi]), fIsInf_withSign, fNeg_inf]
    exact ⟨rfl, rfl⟩
  divByInf := fun ha hb => by
    rw [fDiv_by_inf ha hb, fIsZero_withSign, fNeg_zero]
    exact ⟨rfl, rfl⟩
  divByZero := fun ha hz hb => by
    rw [fDiv_by_zero ha hb, if_neg (by simp [hz]), fIsInf_withSign, fNeg_inf]
    exact ⟨rfl, rfl⟩
  divNan := fun h => by
    rcases h with ⟨ha, hb⟩ | ⟨ha, hb⟩
    · rw [fDiv_inf ha (fIsNaN_of_fIsInf hb), if_pos hb, fIsNaN_fNaN]
    · rw [fDiv_by_zero (fIsFinite_of_fIsZero ha) hb, if_pos ha, fIsNaN_fNaN]
  sqrtInf := fun ha hn => by
    rw [fSqrt, if_neg (by simp [fIsNaN_of_fIsInf ha]), if_neg (by simp [fIsZero_of_fIsInf ha]),
      if_neg (by simp [hn]), if_pos ha]

/-- Settles O54: packing and the five operations round, and each special operand has its branch. -/
theorem arithmeticRoundsToNearestEven : Obligations.ArithmeticRoundsToNearestEven := by
  refine ⟨fun neg m e => ?_, fun a b => finiteArithmetic, specialArithmetic⟩
  rw [mul_assoc]
  exact roundedTo_fPack_self neg m e

end Sys2Proof.Machine
end

section
/-! O48 and O49. The conventions of ATAN2 and ASIN (spec 44_estimator.md R193). -/

namespace Sys2Proof.Machine

/-! ### Ranges -/

/-- Every choice of the model is at most the cap, the whole list of candidates and the number that
stands in for an empty one. -/
theorem pickWithinUlp_le_cap (t : Nat) (cap : F64) (pick : Nat) :
    pickWithinUlp t cap pick ≤ fMag cap := by
  by_cases hnil : withinUlp t cap = []
  · rw [pickWithinUlp, hnil]
    exact Nat.min_le_right _ _
  · have hmem := pickWithinUlp_mem pick hnil
    simp only [withinUlp, List.mem_filter, Bool.and_eq_true, decide_eq_true_eq] at hmem
    exact hmem.2.2

/-! ### The order of numbers -/

theorem fGt_iff (a b : F64) :
    fGt a b = true ↔ fIsNaN a = false ∧ fIsNaN b = false ∧ fKey b < fKey a := by
  simp [fGt, and_assoc]

theorem fLe_iff (a b : F64) :
    fLe a b = true ↔ fIsNaN a = false ∧ fIsNaN b = false ∧ fKey a ≤ fKey b := by
  simp [fLe, and_assoc]

theorem natAbs_fKey (a : F64) : (fKey a).natAbs = fMag a := by
  unfold fKey
  split <;> omega

theorem fKey_of_not_neg {a : F64} (h : fNeg a = false) : fKey a = fMag a := by
  rw [fKey, h, if_neg Bool.false_ne_true]

theorem fKey_fOpp_of_not_neg {a : F64} (h : fNeg a = false) : fKey (fOpp a) = -(fMag a : Int) := by
  rw [fKey, fNeg_fOpp, h, fMag_fOpp]
  rfl

theorem fKey_one : fKey 0x3FF0000000000000 = (fMag fOne : Int) := by decide

theorem fKey_minusOne : fKey 0xBFF0000000000000 = -(fMag fOne : Int) := by decide

/-- A magnitude up to that of a positive cap gives, with either sign, a number between the cap's
opposite and the cap. -/
theorem fLe_withSign {cap : F64} {mag : Nat} (neg : Bool) (hcap : fNeg cap = false)
    (hnan : fIsNaN cap = false) (h : mag ≤ fMag cap) :
    fLe (fOpp cap) (fWithSign neg mag) = true ∧ fLe (fWithSign neg mag) cap = true := by
  have hmag := fMag_withSign neg (h.trans_lt (fMag_lt cap))
  have hn : fIsNaN (fWithSign neg mag) = false :=
    decide_eq_false (hmag.symm ▸ (h.trans (not_lt.1 (of_decide_eq_false hnan))).not_gt)
  have hkey := natAbs_fKey (fWithSign neg mag)
  rw [hmag] at hkey
  rw [fLe_iff, fLe_iff, fIsNaN_fOpp, fKey_of_not_neg hcap, fKey_fOpp_of_not_neg hcap]
  exact ⟨⟨hnan, hn, by omega⟩, hn, hnan, by omega⟩

theorem fLe_pi {mag : Nat} (neg : Bool) (h : mag ≤ fMag fPi) :
    fLe 0xC00921FB54442D18 (fWithSign neg mag) = true ∧
      fLe (fWithSign neg mag) 0x400921FB54442D18 = true :=
  fLe_withSign (cap := fPi) neg (by decide) (by decide) h

theorem fLe_halfPi {mag : Nat} (neg : Bool) (h : mag ≤ fMag fHalfPi) :
    fLe 0xBFF921FB54442D18 (fWithSign neg mag) = true ∧
      fLe (fWithSign neg mag) 0x3FF921FB54442D18 = true :=
  fLe_withSign (cap := fHalfPi) neg (by decide) (by decide) h

/-! ### ATAN2 -/

theorem fAtan2_nan {y x : F64} (h : fIsNaN y = true ∨ fIsNaN x = true) : fAtan2 y x = fNaN := if_pos h

theorem fAtan2_of_y_zero {y x : F64} (hy : fIsZero y = true) (hx : fIsNaN x = false) :
    fAtan2 y x = fWithSign (fNeg y) (if fNeg x then fMag fPi else 0) := by
  have hyn := (finite_special (fIsFinite_of_fIsZero hy)).1
  rw [fAtan2, if_neg (by simp [hyn, hx]), if_pos hy]
  split <;> rfl

theorem fAtan2_of_x_zero {y x : F64} (hy : fIsNaN y = false) (hz : fIsZero y = false)
    (hx : fIsZero x = true) : fAtan2 y x = fWithSign (fNeg y) (fMag fHalfPi) := by
  have hxn := (finite_special (fIsFinite_of_fIsZero hx)).1
  rw [fAtan2, if_neg (by simp [hy, hxn]), if_neg (by simp [hz]), if_pos hx]

/-- Where R193 states the range only, the free value is kept in it. -/
theorem fAtan2_of_inf {y x : F64} (hy : fIsNaN y = false) (hx : fIsNaN x = false)
    (hz : fIsZero y = false) (hx0 : fIsZero x = false) (h : fIsInf y = true ∨ fIsInf x = true) :
    fAtan2 y x = if fLe (fOpp fPi) (Config.atan2Free y x) && fLe (Config.atan2Free y x) fPi then
      Config.atan2Free y x else 0 := by
  rw [fAtan2, if_neg (by simp [hy, hx]), if_neg (by simp [hz]), if_neg (by simp [hx0]), if_pos h]

/-- The range of ATAN2 (R193 item 1). -/
theorem fAtan2_range {y x : F64} (hy : fIsNaN y = false) (hx : fIsNaN x = false) :
    fLe 0xC00921FB54442D18 (fAtan2 y x) = true ∧ fLe (fAtan2 y x) 0x400921FB54442D18 = true := by
  cases hz : fIsZero y
  case true =>
    rw [fAtan2_of_y_zero hz hx]
    exact fLe_pi _ (by split <;> decide)
  case false =>
    cases hx0 : fIsZero x
    case true =>
      rw [fAtan2_of_x_zero hy hz hx0]
      exact fLe_pi _ (by decide)
    case false =>
      by_cases hinf : fIsInf y = true ∨ fIsInf x = true
      · rw [fAtan2_of_inf hy hx hz hx0 hinf]
        split
        next h => exact Bool.and_eq_true_iff.1 h
        next => decide
      · obtain ⟨hyi, hxi⟩ := not_or.1 hinf
        rw [fAtan2_eq (by rw [fIsFinite_eq_not]; simp [hy, hyi])
          (by rw [fIsFinite_eq_not]; simp [hx, hxi]) hz hx0]
        exact fLe_pi _ (pickWithinUlp_le_cap _ _ _)

/-- Settles O48: the axes have values of their own, the rest is a choice below PI64 within an ulp. -/
theorem atan2KeepsItsConventions : Obligations.Atan2KeepsItsConventions := by
  intro y x
  refine ⟨fun h => ?nan, fAtan2_range, fun hx hn => ?right, fun hx hn => ?left,
    fun hy hz hx => ?up, fAtan2_withinUlp⟩
  case nan => rw [fAtan2_nan h, fIsNaN_fNaN]
  case right =>
    rw [fAtan2_of_y_zero (by decide) hx, fAtan2_of_y_zero (by decide) hx, hn]
    decide
  case left =>
    rw [fAtan2_of_y_zero (by decide) hx, fAtan2_of_y_zero (by decide) hx, hn]
    decide
  case up =>
    rw [fAtan2_of_x_zero hy hz hx]
    cases fNeg y <;> decide

/-! ### ASIN -/

theorem fAsin_nan {a : F64} (h : fIsNaN a = true) : fAsin a = fNaN := if_pos h

theorem fAsin_above_one {a : F64} (h : fMag fOne < fMag a) : fAsin a = fNaN := by
  by_cases hn : fIsNaN a = true
  · exact fAsin_nan hn
  · rw [fAsin, if_neg hn, if_pos h]

theorem fAsin_zero {a : F64} (h : fIsZero a = true) : fAsin a = a := by
  have hn := (finite_special (fIsFinite_of_fIsZero h)).1
  have hm : fMag a = 0 := of_decide_eq_true h
  rw [fAsin, if_neg (by simp [hn]), if_neg (by rw [hm]; decide), if_pos h]

theorem fAsin_one {a : F64} (h : fMag a = fMag fOne) :
    fAsin a = fWithSign (fNeg a) (fMag fHalfPi) := by
  have hn : fIsNaN a = false := by rw [fIsNaN, h]; decide
  have hz : fIsZero a = false := by rw [fIsZero, h]; decide
  rw [fAsin, if_neg (by simp [hn]), if_neg (by rw [h]; exact lt_irrefl _), if_neg (by simp [hz]),
    if_pos h]

/-- A number above 1 or below -1 has a magnitude above that of 1. -/
theorem fMag_one_lt_of_outside {a : F64}
    (h : fGt a 0x3FF0000000000000 = true ∨ fGt 0xBFF0000000000000 a = true) :
    fMag fOne < fMag a := by
  have hmag := natAbs_fKey a
  rw [fGt_iff, fGt_iff, fKey_one, fKey_minusOne] at h
  omega

/-- A number from -1 to 1 has a magnitude up to that of 1. -/
theorem fMag_le_one_of_inside {a : F64} (h1 : fLe 0xBFF0000000000000 a = true)
    (h2 : fLe a 0x3FF0000000000000 = true) : fMag a ≤ fMag fOne := by
  have hmag := natAbs_fKey a
  rw [fLe_iff, fKey_minusOne] at h1
  rw [fLe_iff, fKey_one] at h2
  omega

/-- A zero is its own arcsine. -/
theorem zero_withinUlp {a : F64} (h : fIsZero a = true) :
    WithinUlp (Real.arcsin (fValue a)) a := by
  have hv : fValue a = 0 := fValue_of_mag_zero (of_decide_eq_true h)
  refine ⟨fIsFinite_of_fIsZero h, -1250, ?_, ?_⟩ <;>
    rw [hv, Rat.cast_zero, Real.arcsin_zero]
  · rw [abs_zero, zero_add]
  · rw [sub_zero, abs_zero]
    positivity

/-- The range of ASIN and its ulp, from -1 to 1 (R193 item 4). -/
theorem fAsin_inside {a : F64} (h : fMag a ≤ fMag fOne) :
    fLe 0xBFF921FB54442D18 (fAsin a) = true ∧ fLe (fAsin a) 0x3FF921FB54442D18 = true ∧
      WithinUlp (Real.arcsin (fValue a)) (fAsin a) := by
  cases hz : fIsZero a
  case true =>
    rw [fAsin_zero hz]
    have hle : fMag a ≤ fMag fHalfPi := by
      rw [of_decide_eq_true hz]
      exact Nat.zero_le _
    have hrange := fLe_halfPi (fNeg a) hle
    rw [fWithSign_fNeg_fMag] at hrange
    exact ⟨hrange.1, hrange.2, zero_withinUlp hz⟩
  case false =>
    have hulp := fAsin_withinUlp h hz
    rw [← and_assoc]
    refine ⟨?_, hulp⟩
    rcases Nat.lt_or_eq_of_le h with hlt | heq
    · rw [fAsin_eq hlt hz]
      exact fLe_halfPi _ (pickWithinUlp_le_cap _ _ _)
    · rw [fAsin_one heq]
      exact fLe_halfPi _ le_rfl

/-- Settles O49: 0 and plus or minus 1 have values of their own, the rest is a choice below PI64 / 2
within an ulp. -/
theorem asinKeepsItsConventions : Obligations.AsinKeepsItsConventions := by
  intro a
  refine ⟨fun h => ?_, fun h1 h2 => fAsin_inside (fMag_le_one_of_inside h1 h2), fAsin_zero, ?_, ?_⟩
  · rcases h with h | h
    · rw [fAsin_nan h, fIsNaN_fNaN]
    · rw [fAsin_above_one (fMag_one_lt_of_outside h), fIsNaN_fNaN]
  · exact (fAsin_one (by decide)).trans (by decide)
  · exact (fAsin_one (by decide)).trans (by decide)

end Sys2Proof.Machine
end

section
/-! O45 to O47. AOA (spec 44_estimator.md R190 to R197). -/

namespace Sys2Proof.Machine

/-! ### The frequency grid (R191, R192) -/

theorem gridStart_eq (cs : Chanspec) :
    gridStart cs = fOfInt ((5000 + 5 * (cs.center.toNat : Int)) * 10 ^ 6 -
      (cs.bw.mhz : Int) * 10 ^ 6 / 2) := by
  unfold gridStart centerFreqMhz
  push_cast
  rfl

theorem gridEnd_eq (cs : Chanspec) :
    gridEnd cs = fOfInt ((5000 + 5 * (cs.center.toNat : Int)) * 10 ^ 6 +
      (cs.bw.mhz : Int) * 10 ^ 6 / 2) := by
  unfold gridEnd centerFreqMhz
  push_cast
  rfl

/-- A point of the grid is the one of R191. -/
theorem freq_eq_gridFrequency (cs : Chanspec) (i : Nat) :
    freq cs i = gridFrequency cs.center.toNat cs.bw.mhz cs.bw.nsub i := by
  have hlast : i + 1 = cs.bw.nsub ↔ i = cs.bw.nsub - 1 := by
    have := bw_nsub_pos cs.bw
    omega
  simp only [freq, gridFrequency, gridStep, gridStart_eq, gridEnd_eq, hlast]

theorem aoaAngle_eq_expectedAngle (cs : Chanspec) (d : F64) (i : Nat) (num right : Cplx) :
    aoaAngle cs d i num right =
      expectedAngle d (gridFrequency cs.center.toNat cs.bw.mhz cs.bw.nsub i) num right := by
  rw [aoaAngle, wavelength, freq_eq_gridFrequency]
  rfl

/-! ### The snapshot precondition (R190) -/

theorem withSnapshot_of_invalid {s : State} (h : s.status.snapValid = false)
    (body : Chanspec → State → Ending × State) :
    withSnapshot s body = .next (finish (.raise .noSnapshot) s) := by
  rw [withSnapshot, h]
  rfl

theorem withSnapshot_of_decodes {s : State} {cs : Chanspec} (hv : s.status.snapValid = true)
    (hcs : csDecode s.snap.chanspec = .ok cs) (body : Chanspec → State → Ending × State) :
    withSnapshot s body = complete (body cs s) := by
  rw [withSnapshot, hv, hcs]
  rfl

/-! ### The outcomes of AOA (R195) -/

theorem aoaSlots_all (s : State) :
    aoaSlots.all (snapHas s) = true ↔ s.snap.mask.getLsbD 0 = true ∧
      s.snap.mask.getLsbD 12 = true ∧ s.snap.mask.getLsbD 4 = true := by
  simp [aoaSlots, snapHas, maskBit]

theorem aoaSlots_any_lengthDiffers (s : State) (n : Nat) :
    aoaSlots.any (lengthDiffers s n) = true ↔ s.snap.len[0].toNat ≠ n ∨
      s.snap.len[12].toNat ≠ n ∨ s.snap.len[4].toNat ≠ n := by
  simp [aoaSlots, lengthDiffers]

theorem aoaBody_of_missing {s : State} (cs : Chanspec) (h : aoaSlots.all (snapHas s) = false) :
    aoaBody cs s = (.absent, s) := by
  rw [aoaBody, h]
  rfl

theorem aoaBody_of_length {s : State} {cs : Chanspec} (hall : aoaSlots.all (snapHas s) = true)
    (h : aoaSlots.any (lengthDiffers s cs.bw.nsub) = true) :
    aoaBody cs s = (.raise .lengthMismatch, s) := by
  rw [aoaBody, hall, h]
  rfl

theorem exec_aoa_of_ready {s : State} {cs : Chanspec} (h : AoaReady s cs) :
    exec .aoa s = .next (finish .done (aoaWrites cs s)) := by
  have hall : aoaSlots.all (snapHas s) = true := (aoaSlots_all s).2 ⟨h.right, h.center, h.left⟩
  have hlen : aoaSlots.any (lengthDiffers s cs.bw.nsub) = false := by
    rw [← Bool.not_eq_true, aoaSlots_any_lengthDiffers, h.lenRight, h.lenCenter, h.lenLeft]
    simp
  refine (withSnapshot_of_decodes h.valid h.decodes aoaBody).trans ?_
  rw [aoaBody, hall, hlen]
  rfl

/-- Settles O46: the three checks are made in this order, before anything is written. -/
theorem aoaOutcomesInOrder : Obligations.AoaOutcomesInOrder := by
  refine fun s => ⟨fun hv => ⟨_, withSnapshot_of_invalid hv aoaBody, onlyCompletes_raise _ s⟩,
    fun cs hv hcs => ⟨fun hmissing => ⟨finish .absent s, ?_, onlyCompletes_absent s⟩,
      fun h0 h12 h4 hlen => ⟨finish (.raise .lengthMismatch) s, ?_, onlyCompletes_raise _ s⟩⟩⟩ <;>
    refine (withSnapshot_of_decodes hv hcs aoaBody).trans ?_
  · have hall : aoaSlots.all (snapHas s) = false := by
      rw [← Bool.not_eq_true, aoaSlots_all]
      rintro ⟨h0, h12, h4⟩
      rw [h0, h12, h4] at hmissing
      simp at hmissing
    rw [aoaBody_of_missing cs hall]
    rfl
  · rw [aoaBody_of_length ((aoaSlots_all s).2 ⟨h0, h12, h4⟩)
      ((aoaSlots_any_lengthDiffers s _).2 hlen)]
    rfl

/-! ### The angle buffers -/

/-- What an angle buffer reads as below `n` (R195). -/
theorem read?_aoaAngles_inside (m : Sparse F64) (s : State) (cs : Chanspec) (num window : Nat)
    {i : Nat} (h : i < cs.bw.nsub) :
    Sparse.read? (Sparse.writeFrom m 0 (aoaAngles s cs num window)) i =
      some (storedF64 s (window + 8 * i)
        (aoaAngle cs (f64Operand s) i (snapEntry s num i) (snapEntry s 0 i))) := by
  rw [Sparse.read?_writeFrom, aoaAngles_length, if_pos (by omega), Nat.sub_zero, aoaAngles,
    List.getElem?_map, List.getElem?_range h, Option.map_some]

theorem read?_aoaAngles_outside (m : Sparse F64) (s : State) (cs : Chanspec) (num window : Nat)
    {i : Nat} (h : cs.bw.nsub ≤ i) :
    Sparse.read? (Sparse.writeFrom m 0 (aoaAngles s cs num window)) i = Sparse.read? m i :=
  Sparse.read?_writeFrom_outside _ _ _ _ (.inr (by rw [aoaAngles_length]; omega))

/-- A stored angle is the one of R195, a NaN's payload apart. -/
theorem read?_aoaAngles_expected (m : Sparse F64) (s : State) (cs : Chanspec) (num window : Nat)
    {i : Nat} (h : i < cs.bw.nsub) :
    ∃ v, Sparse.read? (Sparse.writeFrom m 0 (aoaAngles s cs num window)) i = some v ∧
      SameNumber v (expectedAngle (s.arg[1] ++ s.arg[0])
        (gridFrequency cs.center.toNat cs.bw.mhz cs.bw.nsub i) (snapEntry s num i)
        (snapEntry s 0 i)) := by
  refine ⟨_, read?_aoaAngles_inside m s cs num window h, ?_⟩
  rw [aoaAngle_eq_expectedAngle]
  exact storedF64_sameNumber s _ _

theorem aoaWrites_res_zero (s : State) (cs : Chanspec) :
    (aoaWrites cs s).res[0].toNat = cs.bw.nsub := by
  have := bw_nsub_le cs.bw
  rw [aoaWrites, setResults_getElem _ _ 0 (by decide)]
  exact toNat_asU32 _ (by omega)

/-- Settles O45: the angles are computed operation by operation and stored below `n`. -/
theorem aoaStoresBothAngleSequences : Obligations.AoaStoresBothAngleSequences := by
  intro s cs h
  exact ⟨_, exec_aoa_of_ready h, ⟨rfl, rfl, rfl, rfl, rfl, rfl⟩, aoaWrites_res_zero s cs,
    fun i hi => ⟨read?_aoaAngles_expected s.aoa0 s cs 12 0x4000 hi,
      read?_aoaAngles_expected s.aoa1 s cs 4 0x5000 hi⟩,
    fun i hi => ⟨read?_aoaAngles_outside s.aoa0 s cs 12 0x4000 hi,
      read?_aoaAngles_outside s.aoa1 s cs 4 0x5000 hi⟩,
    ⟨rfl, rfl, rfl, rfl, rfl, rfl⟩, keepsResultsFrom_setResults [_] _, ⟨rfl, rfl, rfl⟩,
    ⟨rfl, rfl⟩, ⟨rfl, rfl⟩⟩

/-! ### A right entry of (0, 0) (R197) -/

/-- NaN or a zero: what the sums of R194 are over an entry of (0, 0). -/
def NaNOrZero (a : F64) : Prop := fIsNaN a = true ∨ fIsZero a = true

theorem fMant_of_fIsZero {a : F64} (h : fIsZero a = true) : fMant a = 0 := by
  have hmag := fMag_eq a
  rw [of_decide_eq_true h] at hmag
  rw [fMant, if_pos (by omega)]
  omega

theorem fFix_of_fIsZero {a : F64} (h : fIsZero a = true) : fFix a = 0 := by
  rw [← Int.natAbs_eq_zero, natAbs_fFix, fFixAbs, fMant_of_fIsZero h, Nat.zero_shiftLeft]

theorem nanOrZero_fMul (a : F64) {b : F64} (hb : fIsZero b = true) : NaNOrZero (fMul a b) := by
  have hbf := fIsFinite_of_fIsZero hb
  by_cases hn : fIsNaN a = true
  · exact .inl (by rw [fMul_nan (.inl hn), fIsNaN_fNaN])
  · by_cases hi : fIsInf a = true
    · exact .inl ((specialArithmetic a b).mulInfZero hi hb).1
    · have haf : fIsFinite a = true := by
        rw [fIsFinite_eq_not]
        simp [hn, hi]
      rw [fMul_finite haf hbf, fMant_of_fIsZero hb, Nat.mul_zero]
      exact .inr (decide_eq_true (fPack_zero _ _))

theorem nanOrZero_fAdd {a b : F64} (ha : NaNOrZero a) (hb : NaNOrZero b) :
    NaNOrZero (fAdd a b) := by
  rcases ha with ha | ha
  · exact .inl (by rw [fAdd_nan (.inl ha), fIsNaN_fNaN])
  rcases hb with hb | hb
  · exact .inl (by rw [fAdd_nan (.inr hb), fIsNaN_fNaN])
  rw [fAdd_finite (fIsFinite_of_fIsZero ha) (fIsFinite_of_fIsZero hb), fFix_of_fIsZero ha,
    fFix_of_fIsZero hb, if_pos (by decide)]
  exact .inr (fIsZero_withSign _)

theorem nanOrZero_fSub {a b : F64} (ha : NaNOrZero a) (hb : NaNOrZero b) :
    NaNOrZero (fSub a b) := by
  rw [fSub_eq_fAdd]
  refine nanOrZero_fAdd ha ?_
  rwa [NaNOrZero, fIsNaN_fOpp, fIsZero_fOpp]

theorem fIsNaN_fDiv_of_nanOrZero {a b : F64} (ha : NaNOrZero a) (hb : NaNOrZero b) :
    fIsNaN (fDiv a b) = true := by
  rcases ha with ha | ha
  · rw [fDiv_nan (.inl ha), fIsNaN_fNaN]
  rcases hb with hb | hb
  · rw [fDiv_nan (.inr hb), fIsNaN_fNaN]
  exact (specialArithmetic a b).divNan (.inr ⟨ha, hb⟩)

/-- Both parts of a quotient by (0, 0) are NaN (R194). -/
theorem fIsNaN_cDiv_zero (num : Cplx) {right : Cplx} (hre : fIsZero right.re = true)
    (him : fIsZero right.im = true) :
    fIsNaN (cDiv num right).re = true ∧ fIsNaN (cDiv num right).im = true := by
  have hden := nanOrZero_fAdd (nanOrZero_fMul right.re hre) (nanOrZero_fMul right.im him)
  exact ⟨fIsNaN_fDiv_of_nanOrZero
      (nanOrZero_fAdd (nanOrZero_fMul num.re hre) (nanOrZero_fMul num.im him)) hden,
    fIsNaN_fDiv_of_nanOrZero
      (nanOrZero_fSub (nanOrZero_fMul num.im hre) (nanOrZero_fMul num.re him)) hden⟩

/-- NaN goes through the phase, the product, the quotient and ASIN. -/
theorem fIsNaN_aoaAngle_zero (cs : Chanspec) (d : F64) (i : Nat) (num : Cplx) {right : Cplx}
    (hre : fIsZero right.re = true) (him : fIsZero right.im = true) :
    fIsNaN (aoaAngle cs d i num right) = true := by
  obtain ⟨hqre, -⟩ := fIsNaN_cDiv_zero num hre him
  have hphase : phase (cDiv num right) = fNaN := fAtan2_nan (.inr hqre)
  rw [aoaAngle, hphase, fMul_nan (.inl fIsNaN_fNaN), fDiv_nan (.inl fIsNaN_fNaN),
    fAsin_nan fIsNaN_fNaN, fIsNaN_fNaN]

theorem fIsNaN_storedF64 {v : F64} (h : fIsNaN v = true) (s : State) (key : Nat) :
    fIsNaN (storedF64 s key v) = true := by
  rw [storedF64, if_pos h, fIsNaN_fNaNOf]

theorem snapEntry_of_read? {s : State} {slot j : Nat} {z : Cplx}
    (h : Sparse.read? s.snap.grid (gridKey slot j) = some z) : snapEntry s slot j = z := by
  rw [snapEntry, h, Option.getD_some]

/-- Settles O47: the quotient by the entry is NaN, and NaN is stored as NaN. -/
theorem zeroRightEntryGivesNaN : Obligations.ZeroRightEntryGivesNaN := by
  intro s cs i z h hi hz hre him
  have hkey : gridKey 0 i = i := by rw [gridKey_eq, Nat.mul_zero, Nat.zero_add]
  have hentry : snapEntry s 0 i = z := snapEntry_of_read? (hkey.symm ▸ hz)
  have hnan (num window : Nat) : fIsNaN (storedF64 s (window + 8 * i)
      (aoaAngle cs (f64Operand s) i (snapEntry s num i) (snapEntry s 0 i))) = true := by
    rw [hentry]
    exact fIsNaN_storedF64 (fIsNaN_aoaAngle_zero cs _ i _ hre him) s _
  exact ⟨_, _, _, exec_aoa_of_ready h, read?_aoaAngles_inside s.aoa0 s cs 12 0x4000 hi,
    read?_aoaAngles_inside s.aoa1 s cs 4 0x5000 hi, hnan 12 0x4000, hnan 4 0x5000⟩

end Sys2Proof.Machine
end

section
/-! O50 to O53. TOF and PEAK (spec 44_estimator.md R198 to R202). -/

namespace Sys2Proof.Machine

/-! ### The peak (R202) -/

/-- What holds of the best index after the indices below `k` were compared. -/
structure BestBelow (X : Nat → Cplx) (k best : Nat) : Prop where
  lt : best < k
  greatest : ∀ i < k, fGt (mag2 (X i)) (mag2 (X best)) = false
  nan : fIsNaN (mag2 (X 0)) = true → best = 0
  first : fIsNaN (mag2 (X 0)) = false → fIsNaN (mag2 (X best)) = false ∧
    ∀ i < best, fIsNaN (mag2 (X i)) = true ∨ fGt (mag2 (X best)) (mag2 (X i)) = true

theorem bestBelow_one (X : Nat → Cplx) : BestBelow X 1 0 where
  lt := Nat.one_pos
  greatest i hi := by rw [Nat.lt_one_iff.1 hi, fGt_irrefl]
  nan _ := rfl
  first h := ⟨h, fun _ hi => absurd hi (Nat.not_lt_zero _)⟩

/-- What a number does not exceed lies below each number that exceeds it, NaNs apart. -/
theorem nan_or_fGt_of_fGt {a b c : F64} (hab : fGt a b = true) (hcb : fGt c b = false) :
    fIsNaN c = true ∨ fGt a c = true := by
  rw [← Bool.not_eq_true] at hcb
  simp only [fGt_iff] at hab hcb ⊢
  cases hc : fIsNaN c
  · have hle : ¬ fKey b < fKey c := fun h => hcb ⟨hc, hab.2.1, h⟩
    exact .inr ⟨hab.1, rfl, by omega⟩
  · exact .inl rfl

theorem fGt_eq_false_of_nan_or_fGt {a b : F64} (h : fIsNaN b = true ∨ fGt a b = true) :
    fGt b a = false := by
  rcases h with h | h
  · simp [fGt, h]
  · exact fGt_asymm h

/-- A greater magnitude at `k` becomes the best. -/
theorem bestBelow_of_fGt {X : Nat → Cplx} {k best : Nat} (h : BestBelow X k best)
    (hgt : fGt (mag2 (X k)) (mag2 (X best)) = true) : BestBelow X (k + 1) k := by
  have hbefore (i : Nat) (hi : i < k) := nan_or_fGt_of_fGt hgt (h.greatest i hi)
  obtain ⟨hk, hbest, -⟩ := (fGt_iff _ _).1 hgt
  refine ⟨Nat.lt_succ_self k, fun i hi => ?_, fun hnan => ?_, fun _ => ⟨hk, hbefore⟩⟩
  · rcases Nat.lt_succ_iff_lt_or_eq.1 hi with hi | rfl
    · exact fGt_eq_false_of_nan_or_fGt (hbefore i hi)
    · exact fGt_irrefl _
  · rw [h.nan hnan, hnan] at hbest
    cases hbest

/-- Any other magnitude at `k` leaves the best as it is. -/
theorem bestBelow_of_not_fGt {X : Nat → Cplx} {k best : Nat} (h : BestBelow X k best)
    (hgt : fGt (mag2 (X k)) (mag2 (X best)) = false) : BestBelow X (k + 1) best where
  lt := Nat.lt_succ_of_lt h.lt
  greatest i hi := by
    rcases Nat.lt_succ_iff_lt_or_eq.1 hi with hi | rfl
    · exact h.greatest i hi
    · exact hgt
  nan := h.nan
  first := h.first

theorem bestBelow_peakFrom (X : Nat → Cplx) : ∀ fuel k best, BestBelow X k best →
    BestBelow X (k + fuel) (peakFrom X fuel k best)
  | 0, _, _, h => h
  | fuel + 1, k, best, h => by
    rw [peakFrom, Nat.add_comm fuel 1, ← Nat.add_assoc]
    refine bestBelow_peakFrom X fuel (k + 1) _ ?_
    split
    · exact bestBelow_of_fGt h ‹_›
    · exact bestBelow_of_not_fGt h (Bool.eq_false_of_not_eq_true ‹_›)

theorem bestBelow_peak (X : Nat → Cplx) {h : Nat} (hpos : 0 < h) : BestBelow X h (peak X h) := by
  have := bestBelow_peakFrom X (h - 1) 1 0 (bestBelow_one X)
  rwa [Nat.add_sub_cancel' hpos] at this

/-- Settles O52: the loop keeps `BestBelow`. -/
theorem peakIsTheFirstMaximum : Obligations.PeakIsTheFirstMaximum := by
  intro X h hpos
  obtain ⟨hlt, hgreatest, hnan, hfirst⟩ := bestBelow_peak X hpos
  exact ⟨hlt, hgreatest, hnan, hfirst⟩

/-- Equal entries have their peak at index 0. -/
theorem peak_const (z : Cplx) (h : Nat) : peak (fun _ => z) h = 0 :=
  peakFrom_stays _ _ fun _ _ _ => fGt_irrefl _

/-! ### The outcomes of TOF (R200) -/

/-- Settles O51: both errors come before anything is written. -/
theorem tofErrorsInOrder : Obligations.TofErrorsInOrder := by
  refine fun s => ⟨fun hv => ⟨_, withSnapshot_of_invalid hv tofBody, onlyCompletes_raise _ s⟩,
    fun cs c hv hcs hmask hlen => ⟨finish (.raise .lengthMismatch) s, ?_, onlyCompletes_raise _ s⟩⟩
  have hdiffers : coreLengthDiffers s cs.bw.nsub c = true :=
    Bool.and_eq_true_iff.2 ⟨hmask, decide_eq_true hlen⟩
  refine (withSnapshot_of_decodes hv hcs tofBody).trans ?_
  rw [tofBody, if_pos (List.any_eq_true.2 ⟨c, List.mem_finRange c, hdiffers⟩)]
  rfl

theorem exec_tof_of_ready {s : State} {cs : Chanspec} (h : TofReady s cs) :
    exec .tof s = .next (finish .done (setResults (tofResults cs s) s)) := by
  have hlen : (List.finRange 4).any (coreLengthDiffers s cs.bw.nsub) ≠ true := by
    rw [Ne, List.any_eq_true]
    rintro ⟨c, -, hc⟩
    obtain ⟨hmask, hdiffers⟩ := Bool.and_eq_true_iff.1 hc
    exact of_decide_eq_true hdiffers (h.lengths c hmask)
  refine (withSnapshot_of_decodes h.valid h.decodes tofBody).trans ?_
  rw [tofBody, if_neg hlen]
  rfl

/-! ### The results of TOF (R200) -/

theorem coreMask_eq (s : State) :
    coreMask s = (snapHas s 0).toNat + 2 * (snapHas s 4).toNat + 4 * (snapHas s 8).toNat +
      8 * (snapHas s 12).toNat := by
  simp only [coreMask, bitAt_eq]
  omega

theorem coreMask_lt (s : State) : coreMask s < 16 := by
  have := (snapHas s 0).toNat_lt
  have := (snapHas s 4).toNat_lt
  have := (snapHas s 8).toNat_lt
  have := (snapHas s 12).toNat_lt
  rw [coreMask_eq]
  omega

/-- Bit `c` of the valid-core mask says whether core `c` is populated. -/
theorem coreMask_bit (s : State) (c : Fin 4) :
    coreMask s / 2 ^ c.val % 2 = (snapHas s (coreSlot c)).toNat := by
  have := (snapHas s 0).toNat_lt
  have := (snapHas s 4).toNat_lt
  have := (snapHas s 8).toNat_lt
  have := (snapHas s 12).toNat_lt
  rw [coreMask_eq]
  fin_cases c <;> simp [coreSlot] <;> omega

theorem corePeak_lt (s : State) (bw : Bw) (c : Fin 4) : corePeak s bw.nsub c < bw.nsub / 2 := by
  have hpos : 0 < bw.nsub / 2 := by cases bw <;> decide
  rw [corePeak]
  split
  · exact (bestBelow_peak _ hpos).lt
  · exact hpos

theorem res_tof_mask (cs : Chanspec) (s : State) :
    (finish .done (setResults (tofResults cs s) s)).res[0].toNat = coreMask s :=
  toNat_res_of_asU32 (by decide) rfl ((coreMask_lt s).trans (by decide))

theorem res_tof_peak (cs : Chanspec) (s : State) (c : Fin 4) :
    (finish .done (setResults (tofResults cs s) s)).res[1 + c.val].toNat =
      corePeak s cs.bw.nsub c := by
  have := corePeak_lt s cs.bw c
  have := bw_nsub_le cs.bw
  refine toNat_res_of_asU32 (by omega) ?_ (by omega)
  fin_cases c <;> rfl

theorem res_tof_mhz (cs : Chanspec) (s : State) :
    (finish .done (setResults (tofResults cs s) s)).res[5].toNat = cs.bw.mhz :=
  toNat_res_of_asU32 (by decide) rfl ((bw_mhz_le cs.bw).trans_lt (by decide))

theorem res_tof_nsub (cs : Chanspec) (s : State) :
    (finish .done (setResults (tofResults cs s) s)).res[6].toNat = cs.bw.nsub :=
  toNat_res_of_asU32 (by decide) rfl ((bw_nsub_le cs.bw).trans_lt (by decide))

/-- R200's example: core 0 alone, at 20 MHz, with the sequence `(-i) ^ m`. -/
theorem corePeak_tone {s : State} (hmask : s.snap.mask = 0x0001)
    (htone : ∀ m < 64, Sparse.read? s.snap.grid m = some (toneEntry m)) :
    corePeak s 64 0 = 16 := by
  have hseq : coreSequence s 64 0 = tone := List.map_congr_left fun m hm =>
    snapEntry_of_read? ((congrArg (Sparse.read? s.snap.grid)
      (show gridKey 0 m = m by rw [gridKey_eq]; omega)).trans (htone m (List.mem_range.1 hm)))
  rw [corePeak, hseq, snapHas, hmask, if_pos (by decide)]
  exact peak_tone

theorem coreMask_of_core_zero {s : State} (hmask : s.snap.mask = 0x0001) : coreMask s = 1 := by
  simp only [coreMask, snapHas, hmask]
  decide

/-- Settles O50: the mask bit by bit, each peak by core, and the example by `peak_tone`. -/
theorem tofAnswersThePeaks : Obligations.TofAnswersThePeaks := by
  refine ⟨fun s cs h => ⟨_, exec_tof_of_ready h, writesResults_finish (tofResults cs s) s,
      fun c => getLsbD_eq_of_div ?_, ?_, fun c => ?_, res_tof_mhz cs s, res_tof_nsub cs s⟩,
    fun s cs h hbw hmask htone => ⟨_, exec_tof_of_ready h, ?_, ?_, ?_, ?_⟩⟩
  · rw [res_tof_mask]
    exact coreMask_bit s c
  · rw [res_tof_mask]
    exact coreMask_lt s
  · rw [res_tof_peak]
    exact ⟨corePeak_lt s cs.bw c, rfl⟩
  · rw [res_tof_mask, coreMask_of_core_zero hmask]
  · refine (res_tof_peak cs s 0).trans ?_
    rw [hbw]
    exact corePeak_tone hmask htone
  · rw [res_tof_mhz, hbw]
    rfl
  · rw [res_tof_nsub, hbw]
    rfl

/-! ### An impulse (R201 item 3) -/

/-- The inverse DFT of a finite sequence that is zero except at entry 0 is constant. -/
theorem idft_impulse {n : Nat} {x : Cplx} {xs : List Cplx} (hx : cFinite x = true)
    (hxs : xs.all cZero = true) :
    idft n (x :: xs) = fun _ => ⟨fMul (idftScale n) x.re, fMul (idftScale n) x.im⟩ := by
  have hfinite : (x :: xs).all cFinite = true := by
    rw [List.all_cons, hx, Bool.true_and, List.all_eq_true]
    intro y hy
    obtain ⟨hre, him⟩ := Bool.and_eq_true_iff.1 (List.all_eq_true.1 hxs y hy)
    exact Bool.and_eq_true_iff.2 ⟨fIsFinite_of_fIsZero hre, fIsFinite_of_fIsZero him⟩
  funext k
  rw [idft, hfinite, List.tail_cons, if_pos hxs]
  rfl

/-- Settles O53: all outputs are one number, so no index exceeds index 0. -/
theorem impulseHasPeakAtIndexZero : Obligations.ImpulseHasPeakAtIndexZero := by
  intro s cs c h _ hre him hzero
  obtain ⟨m, hm⟩ := Nat.exists_eq_add_one.2 (bw_nsub_pos cs.bw)
  have hseq : coreSequence s cs.bw.nsub c = snapEntry s (4 * c.val) 0 ::
      (List.range m).map fun j => snapEntry s (4 * c.val) (j + 1) := by
    rw [coreSequence, hm, List.range_succ_eq_map, List.map_cons, List.map_map]
    rfl
  have htail : ((List.range m).map fun j => snapEntry s (4 * c.val) (j + 1)).all cZero = true := by
    rw [List.all_map, List.all_eq_true]
    intro j hj
    have := List.mem_range.1 hj
    exact Bool.and_eq_true_iff.2 (hzero (j + 1) (by omega) (by omega))
  have hpeak : corePeak s cs.bw.nsub c = 0 := by
    rw [corePeak, hseq, idft_impulse (Bool.and_eq_true_iff.2 ⟨hre, him⟩) htail, peak_const,
      ite_self]
  exact ⟨_, exec_tof_of_ready h, BitVec.eq_of_toNat_eq ((res_tof_peak cs s c).trans hpeak)⟩

end Sys2Proof.Machine
end
